-- ==== Sys2Proof/Word.lean ====
section
/-! DEFINITION. The widths of spec/00_scope.md R2 as types. All values are unsigned (section 5 of that file). -/

namespace Sys2Proof

/-- `DATA_W`, `BANK_W`: a data byte, a bank number, a port value, a control word. -/
abbrev Byte := BitVec 8

/-- `ADDR_W`: the register `address`. -/
abbrev Address := BitVec 16

/-- `BUS_W`: the cartridge bus, `{BANK, A_HI, A_LO}` (20_memory.md R41). -/
abbrev BusAddress := BitVec 24

/-- `OFFSET_W`: a logical offset (20_memory.md R40). -/
abbrev Offset := BitVec 32

/-- `SUM_W`: the checksum accumulators (10_state.md R15, R16). -/
abbrev Sum := BitVec 32

/-- `CHK_W`: a final checksum or a header checksum field. -/
abbrev Checksum := BitVec 16

/-- The five control-line levels (10_state.md R21). -/
abbrev Levels := BitVec 5

/-- One command (30_encoding.md R70). -/
abbrev CommandWord := BitVec 40

end Sys2Proof
end

