-- ==== Sys2Proof/Syntax.lean ====
section
/-! DEFINITION. The sixteen operations of spec/00_scope.md section 6, one constructor per row of
spec/opcode_table.json. -/

namespace Sys2Proof

/-- A layout as an OPERAND: 0 and 1 of the command word's `L` bit (30_encoding.md R70). The session
register of the same name has a third value (10_state.md R14). -/
inductive Layout where
  | lowROM
  | highROM
  deriving DecidableEq, Repr, Inhabited

/-- The operations, with their operands in the order of 30_encoding.md R71. `romSize` and `pageCount`
are naturals: the command word carries 32 and 16 bits of them, "which limits that one encoding, not
the function" (44_checksum_and_size.md R176, R177; 45_dump_engine.md R190). -/
inductive Instr where
  /-- `SESSION_OPEN`, R262. -/
  | sessionOpen
  /-- `QUIESCE`, R265. -/
  | quiesce
  /-- `APPLY word`, R100. -/
  | applyWord (word : Byte)
  /-- `GOTO_ADDRESS addr`, R110; 17 bits by R77. -/
  | gotoAddress (addr : BitVec 17)
  /-- `GOTO_BANK bank`, R114. -/
  | gotoBank (bank : Byte)
  /-- `READ_DATA`, R117. -/
  | readData
  /-- `MAP offset, layout`, R130. -/
  | mapOffset (offset : Offset) (layout : Layout)
  /-- `UNMAP bank, addr, layout`, R134. -/
  | unmapAddress (bank : Byte) (addr : Address) (layout : Layout)
  /-- `GOTO_OFFSET offset`, R137. -/
  | gotoOffset (offset : Offset)
  /-- `VALIDATE checksum, inverseChecksum`, R170. -/
  | validate (checksum inverseChecksum : Checksum)
  /-- `PARSE_HEADER`, R150. -/
  | parseHeader
  /-- `DECODE_ROM_SIZE code`, R175. -/
  | decodeRomSize (code : Byte)
  /-- `PAGE_COUNT romSize, layout`, R177. -/
  | pageCount (romSize : Nat) (layout : Layout)
  /-- `ROM_PAGES code`, R179. -/
  | romPages (code : Byte)
  /-- `DUMP_ROM startBank, pageCount`, R190. -/
  | dumpRom (startBank : Byte) (pages : Nat)
  /-- `DUMP_SRAM sramSizeCode, romSizeCode`, R210. -/
  | dumpSram (sramSizeCode romSizeCode : Byte)
  deriving DecidableEq, Repr

end Sys2Proof
end

