-- ==== Sys2Proof/WellFormed.lean ====
section
/-! DEFINITION. Which instructions a command word can carry (spec/30_encoding.md R71). Every operand but two
is exact in its type; `PAGE_COUNT` carries its natural operand in `A[31:0]` and `DUMP_ROM` in `A[15:0]`. -/

namespace Sys2Proof

/-- The operands fit the fields of 30_encoding.md R71. -/
def Instr.wellFormed : Instr → Bool
  | .pageCount romSize _ => decide (romSize < 2 ^ 32)
  | .dumpRom _ pages => decide (pages < 2 ^ 16)
  | .sessionOpen | .quiesce | .applyWord _ | .gotoAddress _ | .gotoBank _ | .readData
  | .mapOffset _ _ | .unmapAddress _ _ _ | .gotoOffset _ | .validate _ _ | .parseHeader
  | .decodeRomSize _ | .romPages _ | .dumpSram _ _ => true

end Sys2Proof
end

