-- ==== Sys2Proof/Decode.lean ====
section
/-! DEFINITION. The command word (spec/30_encoding.md R70 to R73): decoder, encoder and the opcode table as data. -/

namespace Sys2Proof

/-- Why a word is no command (30_encoding.md R73). -/
inductive DecodeError where
  /-- the word matches no row of the opcode table: non-zero `z`, `L = 1` where there is no layout operand, or
  a non-zero must-be-zero bit of `A` -/
  | reservedEncoding
  deriving DecidableEq, Repr

/-- Bits `hi` down to `lo` of a command word, as a number (00_scope.md section 5). -/
def bitSlice (w : CommandWord) (hi lo : Nat) : Nat :=
  w.toNat / 2 ^ lo % 2 ^ (hi + 1 - lo)

/-- The layout operand (30_encoding.md R70): 0 LowROM, 1 HighROM. -/
def layoutOfBit (n : Nat) : Layout :=
  if n = 0 then .lowROM else .highROM

/-- The `L` bit of a layout operand. -/
def layoutBit : Layout → Nat
  | .lowROM => 0
  | .highROM => 1

/-- `i` where every must-be-zero bit is zero, else the refusal of 30_encoding.md R73. -/
def acceptIf (zero : Bool) (i : Instr) : Except DecodeError Instr :=
  if zero then .ok i else .error .reservedEncoding

/-- The operation a command word stands for (30_encoding.md R71, R72, R73). -/
def decode (w : CommandWord) : Except DecodeError Instr :=
  if bitSlice w 35 33 ≠ 0 then .error .reservedEncoding
  else
    let noL := bitSlice w 32 32 == 0
    let l := layoutOfBit (bitSlice w 32 32)
    match bitSlice w 39 36 with
    | 0x0 => acceptIf (noL && bitSlice w 31 0 == 0) .sessionOpen
    | 0x1 => acceptIf (noL && bitSlice w 31 0 == 0) .quiesce
    | 0x2 => acceptIf (noL && bitSlice w 31 8 == 0) (.applyWord (.ofNat 8 (bitSlice w 7 0)))
    | 0x3 => acceptIf (noL && bitSlice w 31 17 == 0) (.gotoAddress (.ofNat 17 (bitSlice w 16 0)))
    | 0x4 => acceptIf (noL && bitSlice w 31 8 == 0) (.gotoBank (.ofNat 8 (bitSlice w 7 0)))
    | 0x5 => acceptIf (noL && bitSlice w 31 0 == 0) .readData
    | 0x6 => .ok (.mapOffset (.ofNat 32 (bitSlice w 31 0)) l)
    | 0x7 => acceptIf (bitSlice w 31 24 == 0)
        (.unmapAddress (.ofNat 8 (bitSlice w 23 16)) (.ofNat 16 (bitSlice w 15 0)) l)
    | 0x8 => acceptIf noL (.gotoOffset (.ofNat 32 (bitSlice w 31 0)))
    | 0x9 => acceptIf noL
        (.validate (.ofNat 16 (bitSlice w 31 16)) (.ofNat 16 (bitSlice w 15 0)))
    | 0xA => acceptIf (noL && bitSlice w 31 0 == 0) .parseHeader
    | 0xB => acceptIf (noL && bitSlice w 31 8 == 0) (.decodeRomSize (.ofNat 8 (bitSlice w 7 0)))
    | 0xC => .ok (.pageCount (bitSlice w 31 0) l)
    | 0xD => acceptIf (noL && bitSlice w 31 8 == 0) (.romPages (.ofNat 8 (bitSlice w 7 0)))
    | 0xE => acceptIf (noL && bitSlice w 31 24 == 0)
        (.dumpRom (.ofNat 8 (bitSlice w 23 16)) (bitSlice w 15 0))
    | _ => acceptIf (noL && bitSlice w 31 16 == 0)
        (.dumpSram (.ofNat 8 (bitSlice w 15 8)) (.ofNat 8 (bitSlice w 7 0)))

/-- A command word from its fields `op`, `L` and `A`, with `z = 0` (30_encoding.md R70). -/
def assemble (op l a : Nat) : CommandWord :=
  .ofNat 40 (op * 2 ^ 36 + l * 2 ^ 32 + a)

/-- The word of a well-formed instruction (30_encoding.md R71). -/
def encode : Instr → CommandWord
  | .sessionOpen => assemble 0x0 0 0
  | .quiesce => assemble 0x1 0 0
  | .applyWord word => assemble 0x2 0 word.toNat
  | .gotoAddress addr => assemble 0x3 0 addr.toNat
  | .gotoBank bank => assemble 0x4 0 bank.toNat
  | .readData => assemble 0x5 0 0
  | .mapOffset offset l => assemble 0x6 (layoutBit l) offset.toNat
  | .unmapAddress bank addr l => assemble 0x7 (layoutBit l) (bank.toNat * 2 ^ 16 + addr.toNat)
  | .gotoOffset offset => assemble 0x8 0 offset.toNat
  | .validate checksum inverse => assemble 0x9 0 (checksum.toNat * 2 ^ 16 + inverse.toNat)
  | .parseHeader => assemble 0xA 0 0
  | .decodeRomSize code => assemble 0xB 0 code.toNat
  | .pageCount romSize l => assemble 0xC (layoutBit l) romSize
  | .romPages code => assemble 0xD 0 code.toNat
  | .dumpRom startBank pages => assemble 0xE 0 (startBank.toNat * 2 ^ 16 + pages)
  | .dumpSram sramSizeCode romSizeCode => assemble 0xF 0 (sramSizeCode.toNat * 2 ^ 8 + romSizeCode.toNat)

/-- One row of spec/opcode_table.json: a word `w` selects it when `w & mask == pattern` (30_encoding.md R72). -/
structure OpcodeRow where
  mnemonic : String
  pattern : CommandWord
  mask : CommandWord
  deriving DecidableEq, Repr

/-- `w & mask == match` (30_encoding.md R72). -/
def OpcodeRow.selects (r : OpcodeRow) (w : CommandWord) : Bool :=
  w &&& r.mask == r.pattern

/-- spec/opcode_table.json, row by row. -/
def opcodeTable : List OpcodeRow :=
  [ ⟨"SESSION_OPEN", 0x0000000000#40, 0xFFFFFFFFFF#40⟩,
    ⟨"QUIESCE", 0x1000000000#40, 0xFFFFFFFFFF#40⟩,
    ⟨"APPLY", 0x2000000000#40, 0xFFFFFFFF00#40⟩,
    ⟨"GOTO_ADDRESS", 0x3000000000#40, 0xFFFFFE0000#40⟩,
    ⟨"GOTO_BANK", 0x4000000000#40, 0xFFFFFFFF00#40⟩,
    ⟨"READ_DATA", 0x5000000000#40, 0xFFFFFFFFFF#40⟩,
    ⟨"MAP", 0x6000000000#40, 0xFE00000000#40⟩,
    ⟨"UNMAP", 0x7000000000#40, 0xFEFF000000#40⟩,
    ⟨"GOTO_OFFSET", 0x8000000000#40, 0xFF00000000#40⟩,
    ⟨"VALIDATE", 0x9000000000#40, 0xFF00000000#40⟩,
    ⟨"PARSE_HEADER", 0xA000000000#40, 0xFFFFFFFFFF#40⟩,
    ⟨"DECODE_ROM_SIZE", 0xB000000000#40, 0xFFFFFFFF00#40⟩,
    ⟨"PAGE_COUNT", 0xC000000000#40, 0xFE00000000#40⟩,
    ⟨"ROM_PAGES", 0xD000000000#40, 0xFFFFFFFF00#40⟩,
    ⟨"DUMP_ROM", 0xE000000000#40, 0xFFFF000000#40⟩,
    ⟨"DUMP_SRAM", 0xF000000000#40, 0xFFFFFF0000#40⟩ ]

/-- The mnemonic of an instruction (00_scope.md section 6), the name of its row in `opcodeTable`. -/
def Instr.mnemonic : Instr → String
  | .sessionOpen => "SESSION_OPEN"
  | .quiesce => "QUIESCE"
  | .applyWord _ => "APPLY"
  | .gotoAddress _ => "GOTO_ADDRESS"
  | .gotoBank _ => "GOTO_BANK"
  | .readData => "READ_DATA"
  | .mapOffset _ _ => "MAP"
  | .unmapAddress _ _ _ => "UNMAP"
  | .gotoOffset _ => "GOTO_OFFSET"
  | .validate _ _ => "VALIDATE"
  | .parseHeader => "PARSE_HEADER"
  | .decodeRomSize _ => "DECODE_ROM_SIZE"
  | .pageCount _ _ => "PAGE_COUNT"
  | .romPages _ => "ROM_PAGES"
  | .dumpRom _ _ => "DUMP_ROM"
  | .dumpSram _ _ => "DUMP_SRAM"

/-- The instruction the decoder reads from an instruction whose bits are `w`, of which `nbits` are given and
the rest are 0. A command is one 40-bit word (30_encoding.md R70): it is not stored as bytes anywhere. -/
def decodeTableWord (nbits w : Nat) : Option Instr :=
  if nbits ≤ 40 ∧ w < 2 ^ nbits then (decode (.ofNat 40 w)).toOption else none

end Sys2Proof
end

