-- ==== Sys2Proof/Config.lean ====
section
/-! DEFINITION. What an implementation fixes: the open parameters of spec/00_scope.md R3 with `FOLD_BANK_REF`,
as plain data that `State` carries and no step writes; and the free values, opaque constants whose value
nothing in Lean can know. -/

namespace Sys2Proof

/-- The direction of one port bit (10_state.md R31). -/
inductive Direction where
  | input
  | output
  deriving DecidableEq, Repr, Inhabited

/-- `dir: 8 x {Input, Output}` (10_state.md R31). -/
abbrev Directions := Vector Direction 8

/-- `DIR_ENCODING` (00_scope.md R3, D6): for each bit, the `setDirection` mask bit that means Input and the
one that means Output. The source gives no polarity. -/
structure DirEncoding where
  inputMask : Byte
  outputMask : Byte
  deriving DecidableEq, Repr, Inhabited

/-- `FOLD_BANK_REF` (45_dump_engine.md R197): the bank on which the LowROM fold is tested. -/
inductive FoldBankRef where
  /-- the bank the offset has crossed into: this spec's value (D21) -/
  | entered
  /-- the bank just finished: the other reading of the source -/
  | completed
  deriving DecidableEq, Repr, Inhabited

/-- The open parameters (00_scope.md R3). The constraint `HIROM_ORIGIN_A + 64 <= 256` is the type `Fin 193`,
the constraint `SRAM_x_ADDR <= 0x7FFF` is the type `BitVec 15`. -/
structure Config where
  /-- `HIROM_ORIGIN_A` -/
  hiromOriginA : Fin 193
  /-- `HIROM_ORIGIN_B` -/
  hiromOriginB : Byte
  /-- `SRAM_LOW_BANK` -/
  sramLowBank : Byte
  /-- `SRAM_LOW_ADDR` -/
  sramLowAddr : BitVec 15
  /-- `SRAM_HIGH_BANK` -/
  sramHighBank : Byte
  /-- `SRAM_HIGH_ADDR` -/
  sramHighAddr : BitVec 15
  /-- `CW_SRAM_LOW` -/
  cwSramLow : Byte
  /-- `CW_SRAM_HIGH` -/
  cwSramHigh : Byte
  /-- `CW_READ_IDLE` -/
  cwReadIdle : Byte
  /-- `CW_QUIESCE` -/
  cwQuiesce : Byte
  /-- `CW_POWERUP`, in list order; may be empty -/
  cwPowerup : List Byte
  /-- `DATA_PULLUP_OPEN` -/
  dataPullupOpen : Byte
  /-- `DIR_ENCODING` -/
  dirEncoding : DirEncoding
  /-- `FOLD_BANK_REF` -/
  foldBankRef : FoldBankRef
  deriving DecidableEq, Repr, Inhabited

/-- The platform's own parameters, of which the spec gives no number (91_not_in_source.md N1, N13). Only
`State.reset` mentions it. -/
opaque Config.platform : Config

/-- FREE VALUE. The byte the cartridge drives at transaction `n` for control lines `ctrl` and port outputs
`BANK`, `A_HI`, `A_LO`: the oracle of 10_state.md R33, which may vary from read to read. -/
opaque Config.cartByte (n : Nat) (ctrl : Option Levels) (bank hi lo : Byte) : Byte

/-- FREE VALUE. What a failed transaction number `n` leaves in the byte-wide port register it was to write:
an output latch (10_state.md R36), a pull-up mask or an interrupt-enable mask. -/
opaque Config.failedByte (n : Nat) : Byte

/-- FREE VALUE. What a failed `PortDir`, transaction number `n`, leaves as the port's directions. -/
opaque Config.failedDirections (n : Nat) : Directions

/-- FREE VALUE. The elapsed duration of the `n`-th dump (60_exceptions.md R248: any value). -/
opaque Config.duration (n : Nat) : Nat

end Sys2Proof
end

