-- ==== Sys2Proof/Machine/State.lean ====
section
/-! DEFINITION. The state of the cartridge bus engine as plain data (spec/10_state.md), the outcome a command
returns to the host (spec/30_encoding.md R84, R85), and the state at power-on (spec/10_state.md R25). -/

namespace Sys2Proof.Machine

/-- Memory: (address, byte) cells with addresses strictly rising. -/
abbrev Memory := List Host.Cell

/-- `status` (10_state.md R18). -/
inductive SessionStatus where
  /-- the spec's `Closed` -/
  | closed
  /-- the spec's `Open` -/
  | opened
  deriving DecidableEq, Repr, Inhabited

/-- The phases of the control lines (40_control_lines.md R103). -/
inductive LinePhase where
  /-- `Off` -/
  | off
  /-- `PoweringUp` -/
  | poweringUp
  /-- `ReadIdle` -/
  | readIdle
  /-- `SramEnabled` -/
  | sramEnabled
  /-- `Raw` -/
  | raw
  deriving DecidableEq, Repr, Inhabited

/-- HeaderInfo (10_state.md R22). -/
structure HeaderInfo where
  title : Vector Byte 20
  speed : BitVec 4
  layoutIndicator : BitVec 4
  cartridgeType : Byte
  romSizeCode : Byte
  sramSizeCode : Byte
  country : Byte
  license : Byte
  version : Byte
  inverseChecksum : Checksum
  checksum : Checksum
  nmiVector : BitVec 16
  resetVector : BitVec 16
  deriving DecidableEq, Repr

/-- The session register file (10_state.md R10). `UNSET` of a cache register is `none` (R13, 30_encoding.md
R78); `Undetermined` of `layout` is `none` (R14); `ctrl` is the spec's `opt 5 bits` (R21). -/
structure Session where
  /-- R18 -/
  status : SessionStatus
  /-- R11: the address last requested -/
  address : Address
  /-- R12: the bank last requested -/
  bank : Byte
  /-- R13: the upper byte as written to the port, `none` for `UNSET` -/
  cachedUpperByte : Option Byte
  /-- R13 -/
  cachedLowerByte : Option Byte
  /-- R13 -/
  cachedBank : Option Byte
  /-- R14: `none` is `Undetermined` -/
  layout : Option Layout
  /-- R14 -/
  layoutLocked : Bool
  /-- R17 -/
  currentOffset : Offset
  /-- R15 -/
  runningChecksum : Sum
  /-- R16 -/
  pageSum : Sum
  /-- R22 -/
  header : Option HeaderInfo
  /-- R21: the five line levels, `none` before the first `Lines` -/
  ctrl : Option Levels
  /-- R20: the code of the last fatal error -/
  lastError : Byte
  deriving DecidableEq, Repr

/-- The four byte-wide ports (10_state.md R30). -/
inductive PortId where
  /-- `A_HI`, bus bits 15:8 -/
  | aHi
  /-- `A_LO`, bus bits 7:0 -/
  | aLo
  /-- `BANK`, bus bits 23:16 -/
  | bank
  /-- `DATA` -/
  | data
  deriving DecidableEq, Repr

/-- One port device as the block sees it (10_state.md R31). -/
structure Port where
  /-- output latch -/
  out : Byte
  /-- direction per bit -/
  dir : Directions
  /-- interrupt-enable mask -/
  inten : Byte
  deriving DecidableEq, Repr

/-- The port devices (10_state.md R30, R31); `pull` is the pull-up mask, which `DATA` only has. -/
structure Ports where
  aHi : Port
  aLo : Port
  bank : Port
  data : Port
  pull : Byte
  deriving DecidableEq, Repr

/-- What the block does at its ports and lines: the trace notation of 95_test_vectors.md section 2, with a
flag that is false where the environment failed the transaction (10_state.md R36). -/
inductive Event where
  /-- `ctrl w`: `Lines` (40_control_lines.md R101), and the phase it enters (R103) -/
  | lines (phase : LinePhase) (levels : Levels)
  /-- `wr P v`: `PortWrite` (R32) -/
  | write (port : PortId) (value : Byte) (ok : Bool)
  /-- `rd v`: `PortRead(DATA)` (R33) at a bus address under line levels; `none` where it failed -/
  | read (ctrl : Option Levels) (bus : BusAddress) (value : Option Byte)
  /-- `dir P d`: `PortDir` (R34) of all eight bits, with the `setDirection` mask it carries -/
  | direction (port : PortId) (dir : Direction) (mask : Byte) (ok : Bool)
  /-- `pull DATA m`: `PortPull` (R34) -/
  | pullups (mask : Byte) (ok : Bool)
  /-- `inten P m`: `PortIntEn` (R35) -/
  | intEnable (port : PortId) (mask : Byte) (ok : Bool)
  deriving DecidableEq, Repr

/-- MODEL'S OWN. The environment as plain data: what it will answer, and the record of what it was asked. -/
structure Env where
  /-- what the cartridge drives, keyed by line levels and bus address (10_state.md R33) -/
  cart : Memory
  /-- what the environment gives at a transaction of this number, whatever `cart` says (R33: "vary from read
  to read") -/
  answers : Memory
  /-- the numbers of the transactions the environment fails (R36) -/
  failing : List Nat
  /-- port transactions made so far -/
  txn : Nat
  /-- port transactions and line changes made, newest first -/
  trace : List Event
  deriving DecidableEq, Repr

/-- The four fatal error kinds (60_exceptions.md R230). -/
inductive FatalKind where
  /-- R231 -/
  | headerChecksumMismatch
  /-- R232 -/
  | unknownLayoutField
  /-- R233 -/
  | invalidRomSizeCode
  /-- R234 -/
  | portTransactionFailure
  deriving DecidableEq, Repr

/-- The reasons of a refusal in the spec's sense (30_encoding.md R84, 60_exceptions.md R235): the command is
answered and changes nothing. The machine goes on. -/
inductive RefuseReason where
  | sessionClosed
  | sessionAlreadyOpen
  | layoutUndetermined
  | headerAlreadyParsed
  | argumentOutOfRange
  | reservedEncoding
  deriving DecidableEq, Repr

/-- The status of a command (30_encoding.md R84). -/
inductive Status where
  | ok
  | fatal (kind : FatalKind)
  | refused (reason : RefuseReason)
  deriving DecidableEq, Repr

/-- DumpResult (10_state.md R23). -/
structure DumpResult where
  bytes : List Byte
  checksum : Checksum
  duration : Nat
  deriving DecidableEq, Repr

/-- The results of 30_encoding.md R85. -/
inductive Result where
  /-- `READ_DATA` -/
  | value (v : Byte)
  /-- `MAP` -/
  | bankAddress (bank : Byte) (addr : Address)
  /-- `UNMAP` -/
  | offset (o : Offset)
  /-- `VALIDATE` -/
  | valid (b : Bool)
  /-- `PARSE_HEADER` -/
  | header (h : HeaderInfo)
  /-- `DECODE_ROM_SIZE`: `romSize` is `none` where `sizeValid` is false (44_checksum_and_size.md R175) -/
  | romSize (sizeValid : Bool) (romSize : Option Nat)
  /-- `PAGE_COUNT`, `ROM_PAGES` -/
  | pageCount (n : Nat)
  /-- `DUMP_ROM`, with the flag of 45_dump_engine.md R200 -/
  | romDump (d : DumpResult) (checksumMatch : Bool)
  /-- `DUMP_SRAM` -/
  | sramDump (d : DumpResult)
  deriving DecidableEq, Repr

/-- What a command returns: a status and, when it is `OK`, the result if the operation has one
(30_encoding.md R84, R85). -/
structure Response where
  status : Status
  result : Option Result
  deriving DecidableEq, Repr

/-- MODEL'S OWN. The host's side of the block. -/
structure HostSide where
  /-- the command words the host has still to issue, first one first (00_scope.md R4) -/
  commands : List CommandWord
  /-- what the last command returned -/
  response : Option Response
  /-- dumps completed: the counter of the free value `Config.duration` -/
  dumps : Nat
  deriving DecidableEq, Repr

/-- The machine. -/
structure State where
  /-- the open parameters of 00_scope.md R3, written by nothing -/
  config : Config
  /-- the CartridgeSession (10_state.md R10) -/
  session : Session
  /-- the control-line sequencer (40_control_lines.md R103) -/
  phase : LinePhase
  /-- the port devices (10_state.md R31) -/
  ports : Ports
  /-- the environment -/
  env : Env
  /-- the host -/
  host : HostSide
  deriving DecidableEq, Repr

/-- Reasons the machine stops with a fault. There is none: the spec's fatal errors are taken as it describes
them (60_exceptions.md R236) and leave a machine that goes on, with the session closed. Safe: nothing is
left out. -/
inductive Fault : Type where
  deriving DecidableEq, Repr

/-- Reasons an instruction has no meaning. A refusal of the SPEC is not one of them: it is a `RefuseReason`
in the response. -/
inductive Refusal where
  /-- an instruction not modelled yet. Raised by no arm of `exec`: every instruction has its meaning. Safe. -/
  | notModelled (mnemonic : String)
  deriving DecidableEq, Repr

/-- The three outcomes of an instruction or a step. -/
abbrev Answer := Host.Outcome State Fault Refusal

/-- A port at power-on. DESIGN CHOICE (unspecified in 10_state.md R25; log 1): latch 0, all bits input, interrupt
enable 0. Unsafe. -/
def Port.powerOn : Port :=
  { out := 0, dir := Vector.replicate 8 .input, inten := 0 }

/-- The machine at power-on, before the first `SESSION_OPEN` (10_state.md R25, 70_reset_and_hazards.md R261):
`status = Closed`, `lastError = 0x00`, no header, `ctrl` none, phase `Off`. DESIGN CHOICE (unspecified there; log
1): zero for the other registers and ports, `UNSET` caches, `Undetermined` layout, ports input. Unsafe. The
host has issued nothing and the environment has nothing scheduled (logs 5, 6, 8). -/
def State.reset : State where
  config := { Config.platform with foldBankRef := .entered }
  session :=
    { status := .closed, address := 0, bank := 0
      cachedUpperByte := none, cachedLowerByte := none, cachedBank := none
      layout := none, layoutLocked := false
      currentOffset := 0, runningChecksum := 0, pageSum := 0
      header := none, ctrl := none, lastError := 0 }
  phase := .off
  ports :=
    { aHi := Port.powerOn, aLo := Port.powerOn, bank := Port.powerOn, data := Port.powerOn, pull := 0 }
  env := { cart := [], answers := [], failing := [], txn := 0, trace := [] }
  host := { commands := [], response := none, dumps := 0 }

end Sys2Proof.Machine
end

