-- ==== Sys2Proof/Machine/Operands.lean ====
section
/-! DEFINITION. The arithmetic of operands and operand ranges: fixed parameters (spec/00_scope.md R2), page
sizes and the map (spec/42_cartridge_map.md), the address split (spec/41_address_bus.md), sizes
(spec/44_checksum_and_size.md), dump origins and ranges (spec/45_dump_engine.md). Pure functions. -/

namespace Sys2Proof.Machine

/-- `PAGE(layout)` (42_cartridge_map.md R131). -/
def pageSize : Layout → Nat
  | .lowROM => 32768
  | .highROM => 65536

/-- `HDR_BASE(layout)` (43_header_parser.md R145). -/
def headerBase : Layout → Nat
  | .lowROM => 32704
  | .highROM => 65472

/-- `HDR_LEN` (00_scope.md R2). -/
def headerLength : Nat := 36

/-- `SPLIT_PAGES` (45_dump_engine.md R193). -/
def splitPages : Nat := 64

/-- `SRAM_CEILING` (45_dump_engine.md R213). -/
def sramCeiling : Nat := 0x7FFF

/-- `ROM_CODE_MIN` (30_encoding.md R82). -/
def romCodeMin : Nat := 7

/-- The overflow sentinel of `GOTO_ADDRESS` (30_encoding.md R77). -/
def overflowSentinel : Nat := 0x10000

/-- The upper address byte (41_address_bus.md R111): bits 15:8, with bit 7 set in LowROM. -/
def upperByte (l : Layout) (addr : Address) : Byte :=
  match l with
  | .lowROM => addr.extractLsb' 8 8 ||| 0x80#8
  | .highROM => addr.extractLsb' 8 8

/-- The lower address byte (41_address_bus.md R111). -/
def lowerByte (addr : Address) : Byte :=
  addr.extractLsb' 0 8

/-- `offset < 256 * PAGE(layout)`, the domain of the map (42_cartridge_map.md R132). -/
def inMap (l : Layout) (offset : Nat) : Bool :=
  decide (offset < 256 * pageSize l)

/-- `resolveNat(o, layout)` (42_cartridge_map.md R133): the untruncated quotient and the remainder. -/
def resolveNat (l : Layout) (offset : Nat) : Nat × Nat :=
  (offset / pageSize l, offset % pageSize l)

/-- `MAP` inside its domain (42_cartridge_map.md R130). -/
def mapBankAddress (l : Layout) (offset : Nat) : Byte × Address :=
  (.ofNat 8 (resolveNat l offset).1, .ofNat 16 (resolveNat l offset).2)

/-- `UNMAP` inside its domain (42_cartridge_map.md R134). -/
def unmapOffset (l : Layout) (bank : Byte) (addr : Address) : Offset :=
  .ofNat 32 (bank.toNat * pageSize l + addr.toNat)

/-- `DECODE_ROM_SIZE` (44_checksum_and_size.md R175): `2^(code-7)` megabits, none where the code is invalid. -/
def decodedRomSize (code : Byte) : Option Nat :=
  if romCodeMin ≤ code.toNat then some (2 ^ (code.toNat - romCodeMin)) else none

/-- `PAGE_COUNT` (44_checksum_and_size.md R177). -/
def pagesOf (l : Layout) (romSize : Nat) : Nat :=
  match l with
  | .lowROM => romSize * 2 * 2
  | .highROM => romSize * 2

/-- `sramBytes(sramSizeCode)` (44_checksum_and_size.md R180). -/
def sramBytes (sramSizeCode : Byte) : Nat :=
  sramSizeCode.toNat / 8 * 1024

/-- `passList` (45_dump_engine.md R193): (origin bank, pages) of each pass of a ROM dump. -/
def passList (c : Config) (startBank : Byte) (pages : Nat) (l : Layout) : List (Nat × Nat) :=
  if l = .highROM ∧ splitPages < pages then
    [(c.hiromOriginA.val, splitPages), (c.hiromOriginB.toNat, pages - splitPages)]
  else [(startBank.toNat, pages)]

/-- Every pass stays within bank 255 (45_dump_engine.md R192). -/
def passesFit (passes : List (Nat × Nat)) : Bool :=
  passes.all fun p => decide (p.1 + p.2 ≤ 256)

/-- The layout's SRAM start bank (45_dump_engine.md R211). -/
def sramOriginBank (c : Config) : Layout → Nat
  | .lowROM => c.sramLowBank.toNat
  | .highROM => c.sramHighBank.toNat

/-- The layout's SRAM start address (45_dump_engine.md R211). -/
def sramOriginAddr (c : Config) : Layout → Nat
  | .lowROM => c.sramLowAddr.toNat
  | .highROM => c.sramHighAddr.toNat

/-- The layout's SRAM control word (45_dump_engine.md R211). -/
def sramControlWord (c : Config) : Layout → Byte
  | .lowROM => c.cwSramLow
  | .highROM => c.cwSramHigh

/-- `ceil(n / cap)`, `cap = 0x8000 - a0` bytes a bank: the banks an SRAM dump uses (45_dump_engine.md R212). -/
def sramBanks (a0 n : Nat) : Nat :=
  (n + (sramCeiling + 1 - a0) - 1) / (sramCeiling + 1 - a0)

/-- `sramFits(b0, a0, n)` (45_dump_engine.md R212). -/
def sramFits (b0 a0 n : Nat) : Bool :=
  decide (b0 + sramBanks a0 n ≤ 256)

/-- Where the SRAM dump goes after the byte at (`sb`, `sa`) (45_dump_engine.md R213): the next address, or the
origin address of the next bank once the address exceeds the ceiling. -/
def sramNext (a0 sb sa : Nat) : Nat × Nat :=
  if sramCeiling < sa + 1 then (sb + 1, a0) else (sb, sa + 1)

/-- Byte `k` of a header block. -/
def rawByte (raw : List Byte) (k : Nat) : Byte :=
  raw.getD k 0

/-- A 16-bit header field, low byte at the lower offset (20_memory.md R48). -/
def littleEndian (raw : List Byte) (k : Nat) : BitVec 16 :=
  rawByte raw (k + 1) ++ rawByte raw k

/-- The layout nibble, `raw[21][3:0]` (43_header_parser.md R147). -/
def layoutNibble (raw : List Byte) : BitVec 4 :=
  (rawByte raw 21).extractLsb' 0 4

/-- `extract(raw)` (43_header_parser.md R148). -/
def extractHeader (raw : List Byte) : HeaderInfo where
  title := Vector.ofFn fun k => rawByte raw k.val
  speed := (rawByte raw 21).extractLsb' 4 4
  layoutIndicator := layoutNibble raw
  cartridgeType := rawByte raw 22
  romSizeCode := rawByte raw 23
  sramSizeCode := rawByte raw 24
  country := rawByte raw 25
  license := rawByte raw 26
  version := rawByte raw 27
  inverseChecksum := littleEndian raw 28
  checksum := littleEndian raw 30
  nmiVector := littleEndian raw 32
  resetVector := littleEndian raw 34

/-- The five levels of a control word, bits 4:0; bits 7:5 drive nothing (30_encoding.md R74, R75). -/
def lineLevels (w : Byte) : Levels :=
  w.extractLsb' 0 5

/-- All eight bits of a port in one direction (10_state.md R34). -/
def allBits (d : Direction) : Directions :=
  Vector.replicate 8 d

/-- The `setDirection` mask of `allBits d` (10_state.md R34, 00_scope.md R3). -/
def directionMask (e : DirEncoding) : Direction → Byte
  | .input => e.inputMask
  | .output => e.outputMask

/-- The numbers of 30_encoding.md R84. -/
def FatalKind.code : FatalKind → Byte
  | .headerChecksumMismatch => 0x01
  | .unknownLayoutField => 0x02
  | .invalidRomSizeCode => 0x03
  | .portTransactionFailure => 0x04

/-- The numbers of 30_encoding.md R84. -/
def RefuseReason.code : RefuseReason → Byte
  | .sessionClosed => 0x10
  | .sessionAlreadyOpen => 0x11
  | .layoutUndetermined => 0x12
  | .headerAlreadyParsed => 0x13
  | .argumentOutOfRange => 0x14
  | .reservedEncoding => 0x15

/-- The status code a command reports (30_encoding.md R84). -/
def Status.code : Status → Byte
  | .ok => 0x00
  | .fatal k => k.code
  | .refused r => r.code

end Sys2Proof.Machine
end

