-- ==== Sys2Proof/Machine/Flags.lean ====
section
/-! DEFINITION. The values that play the part of flags (spec/10_state.md R20) and the accumulators
(spec/44_checksum_and_size.md). Pure functions. -/

namespace Sys2Proof.Machine

/-- `valid` (44_checksum_and_size.md R170). -/
def checksumPairValid (checksum inverseChecksum : Checksum) : Bool :=
  checksum ^^^ inverseChecksum == 0xFFFF#16

/-- `sizeValid` (44_checksum_and_size.md R175). -/
def sizeValid (code : Byte) : Bool :=
  (decodedRomSize code).isSome

/-- One byte into an accumulator (44_checksum_and_size.md R171): zero-extended, modulo 2^32. -/
def addByte (acc : Sum) (v : Byte) : Sum :=
  acc + v.setWidth 32

/-- The final value of an accumulator (44_checksum_and_size.md R173): its low 16 bits. -/
def maskedChecksum (acc : Sum) : Checksum :=
  acc.extractLsb' 0 16

/-- `foldCondition(layout, b)` with `b` the bank entered or the bank completed (45_dump_engine.md R197). -/
def foldCondition (ref : FoldBankRef) (l : Layout) (completed entered : Nat) : Bool :=
  match l with
  | .highROM => true
  | .lowROM =>
    match ref with
    | .entered => entered % 2 == 0
    | .completed => completed % 2 == 0

/-- `checksumMatch` (45_dump_engine.md R200). A locked session always has a header (`SessionInv`); with none,
a state no run reaches, there is nothing to match: false (DESIGN CHOICE, log 11). -/
def checksumMatches (header : Option HeaderInfo) (checksum : Checksum) : Bool :=
  match header with
  | some h => checksum == h.checksum
  | none => false

end Sys2Proof.Machine
end

