-- ==== Sys2Proof/Machine/Ops.lean ====
section
/-! DEFINITION. The named operations over the state: memory, port transactions (spec/10_state.md R31 to R36), the
control lines (spec/40_control_lines.md), the quiesce sequence (spec/70_reset_and_hazards.md R265), taking a
fatal error (spec/60_exceptions.md R236), refusing and completing a command, and positioning the bus
(spec/41_address_bus.md, spec/42_cartridge_map.md).

There is no return from a fatal error (60_exceptions.md R239): what stands beside `raise` is `SESSION_OPEN`, which
begins a new session cold (Machine/Session.lean). -/

namespace Sys2Proof.Machine

/-! ### Memory -/

/-- The canonical form: addresses strictly rising. An unlisted address has no value of its own: it reads as a
free value (`dataByte`), so no listed entry can equal it (log 5). -/
def Memory.wf (m : Memory) : Bool :=
  decide ((m.map Prod.fst).Pairwise (· < ·))

/-- The byte listed at an address. -/
def Memory.readByte : Memory → Nat → Option Byte
  | [], _ => none
  | (k, v) :: m, a => if k = a then some v else Memory.readByte m a

/-- The environment's own operation (the block never writes cartridge memory, 00_scope.md section 5): list a byte at
an address, keeping the canonical form. -/
def Memory.writeByte : Memory → Nat → Byte → Memory
  | [], a, b => [(a, b)]
  | (k, v) :: m, a, b =>
    if a < k then (a, b) :: (k, v) :: m
    else if a = k then (a, b) :: m
    else (k, v) :: Memory.writeByte m a b

/-- The bus address the ports drive (20_memory.md R41). -/
def busAddress (p : Ports) : BusAddress :=
  p.bank.out ++ p.aHi.out ++ p.aLo.out

/-- Where `env.cart` lists the byte for line levels and a bus address: the level word (32 where there is none)
above the 24 address bits. -/
def cartKey (ctrl : Option Levels) (bus : BusAddress) : Nat :=
  (match ctrl with
    | some c => c.toNat
    | none => 32) * 2 ^ 24 + bus.toNat

/-- The byte the environment gives to a `PortRead(DATA)` made now (10_state.md R33): what it has scheduled for this
transaction, else what the cartridge lists, else the free oracle. Nothing makes two reads of one address agree. -/
def dataByte (s : State) : Byte :=
  match Memory.readByte s.env.answers s.env.txn with
  | some v => v
  | none =>
    match Memory.readByte s.env.cart (cartKey s.session.ctrl (busAddress s.ports)) with
    | some v => v
    | none =>
      Config.cartByte s.env.txn s.session.ctrl s.ports.bank.out s.ports.aHi.out s.ports.aLo.out

/-! ### Port transactions -/

/-- What a sequence of port transactions comes to: done, or stopped at a failed one (10_state.md R36). -/
inductive Txn (α : Type) where
  | done (a : α) (s : State)
  | failed (s : State)

/-- Go on after a transaction that was done. -/
def Txn.bind {α β : Type} (r : Txn α) (k : α → State → Txn β) : Txn β :=
  match r with
  | .done a s => k a s
  | .failed s => .failed s

/-- Whether the environment fails the transaction made now (10_state.md R36). -/
def nowFails (s : State) : Bool :=
  s.env.failing.contains s.env.txn

/-- Count a port transaction and record it. -/
def State.record (s : State) (e : Event) : State :=
  { s with env := { s.env with txn := s.env.txn + 1, trace := e :: s.env.trace } }

/-- Change one port's registers. -/
def State.setPort (s : State) (p : PortId) (f : Port → Port) : State :=
  match p with
  | .aHi => { s with ports := { s.ports with aHi := f s.ports.aHi } }
  | .aLo => { s with ports := { s.ports with aLo := f s.ports.aLo } }
  | .bank => { s with ports := { s.ports with bank := f s.ports.bank } }
  | .data => { s with ports := { s.ports with data := f s.ports.data } }

/-- `PortWrite(p, v)` (10_state.md R32). A failed one leaves the latch unspecified (R36): a free value. -/
def portWrite (p : PortId) (v : Byte) (s : State) : Txn Unit :=
  if nowFails s then
    .failed ((s.setPort p fun q => { q with out := Config.failedByte s.env.txn }).record (.write p v false))
  else .done () ((s.setPort p fun q => { q with out := v }).record (.write p v true))

/-- `PortRead(DATA)` (10_state.md R33). A failed one returns no value (R36). -/
def portRead (s : State) : Txn Byte :=
  if nowFails s then
    .failed (s.record (.read s.session.ctrl (busAddress s.ports) none))
  else
    .done (dataByte s) (s.record (.read s.session.ctrl (busAddress s.ports) (some (dataByte s))))

/-- `PortDir(p, AllInput)` and `PortDir(p, AllOutput)` (10_state.md R34). The spec states no directions after a
failed one: a free value (log 10). -/
def portDir (p : PortId) (d : Direction) (s : State) : Txn Unit :=
  if nowFails s then
    .failed ((s.setPort p fun q => { q with dir := Config.failedDirections s.env.txn }).record
      (.direction p d (directionMask s.config.dirEncoding d) false))
  else
    .done () ((s.setPort p fun q => { q with dir := allBits d }).record
      (.direction p d (directionMask s.config.dirEncoding d) true))

/-- `PortPull(DATA, m)` (10_state.md R34). The mask after a failed one is a free value (log 10). -/
def portPull (m : Byte) (s : State) : Txn Unit :=
  if nowFails s then
    .failed (State.record { s with ports := { s.ports with pull := Config.failedByte s.env.txn } }
      (.pullups m false))
  else .done () (State.record { s with ports := { s.ports with pull := m } } (.pullups m true))

/-- `PortIntEn(p, 0)` (10_state.md R35). The mask after a failed one is a free value (log 10). -/
def portIntClear (p : PortId) (s : State) : Txn Unit :=
  if nowFails s then
    .failed ((s.setPort p fun q => { q with inten := Config.failedByte s.env.txn }).record
      (.intEnable p 0 false))
  else .done () ((s.setPort p fun q => { q with inten := 0 }).record (.intEnable p 0 true))

/-! ### Control lines -/

/-- `Lines(w)` (40_control_lines.md R101), entering a phase (R103). It cannot fail and is never suppressed (R102). -/
def lines (phase : LinePhase) (w : Byte) (s : State) : State :=
  { s with
    session := { s.session with ctrl := some (lineLevels w) }
    phase := phase
    env := { s.env with trace := .lines phase (lineLevels w) :: s.env.trace } }

/-- `Lines(w)` for each word of a list, in list order (70_reset_and_hazards.md R262). -/
def linesAll (phase : LinePhase) : List Byte → State → State
  | [], s => s
  | w :: ws, s => linesAll phase ws (lines phase w s)

/-! ### The answer to the host -/

/-- Answer the command. -/
def State.respond (s : State) (status : Status) (result : Option Result) : State :=
  { s with host := { s.host with response := some { status := status, result := result } } }

/-- The command succeeds (30_encoding.md R84, R85). -/
def complete (result : Option Result) (s : State) : State :=
  s.respond .ok result

/-- `refuse <Reason>` (60_exceptions.md R235): nothing changes but the answer. -/
def refuse (reason : RefuseReason) (s : State) : State :=
  s.respond (.refused reason) none

/-! ### The quiesce sequence and fatal errors -/

/-- The port transactions of the quiesce sequence, in order (70_reset_and_hazards.md R265). -/
def quiesceTransactions : List (State → Txn Unit) :=
  [ portWrite .aHi 0, portWrite .aLo 0, portWrite .bank 0,
    portPull 0,
    portIntClear .aHi, portIntClear .aLo, portIntClear .bank, portIntClear .data,
    portDir .aHi .input, portDir .aLo .input, portDir .bank .input, portDir .data .input ]

/-- Each transaction once, whatever the others came to (60_exceptions.md R239), and whether all succeeded. -/
def attemptAll : List (State → Txn Unit) → State → State × Bool
  | [], s => (s, true)
  | t :: ts, s =>
    match t s with
    | .done _ s' => attemptAll ts s'
    | .failed s' => ((attemptAll ts s').1, false)

/-- The register clean-up that ends the quiesce sequence (70_reset_and_hazards.md R265). -/
def closeSession (s : State) : State :=
  { s with
    session :=
      { s.session with
        address := 0, bank := 0
        cachedUpperByte := none, cachedLowerByte := none, cachedBank := none
        layout := none, layoutLocked := false, header := none
        status := .closed } }

/-- The quiesce sequence (70_reset_and_hazards.md R265), and whether every transaction succeeded. -/
def quiesceSequence (s : State) : State × Bool :=
  let r := attemptAll quiesceTransactions (lines .off s.config.cwQuiesce s)
  (closeSession r.1, r.2)

/-- `lastError <- code` (60_exceptions.md R236). -/
def State.setLastError (s : State) (code : Byte) : State :=
  { s with session := { s.session with lastError := code } }

/-- `raise <Kind>` (60_exceptions.md R236): record the kind, quiesce, report. A failure inside the quiesce
sequence does not replace the kind (R239). -/
def raise (kind : FatalKind) (s : State) : State :=
  ((quiesceSequence (s.setLastError kind.code)).1).respond (.fatal kind) none

/-- Go on after port transactions, or take the fatal error of a failed one (60_exceptions.md R234). -/
def orRaise {α : Type} (r : Txn α) (k : α → State → State) : State :=
  match r with
  | .done a s => k a s
  | .failed s => raise .portTransactionFailure s

/-! ### Admission -/

/-- `if status != Open: refuse SessionClosed` (60_exceptions.md R235). -/
def whenOpen (s : State) (k : State) : State :=
  if s.session.status = .opened then k else refuse .sessionClosed s

/-- `if layout == Undetermined: refuse LayoutUndetermined`. -/
def withLayout (s : State) (k : Layout → State) : State :=
  match s.session.layout with
  | some l => k l
  | none => refuse .layoutUndetermined s

/-- `if not layoutLocked: refuse LayoutUndetermined`. A locked layout is never Undetermined (`SessionInv`); a
state in which it were, which no run reaches, is refused alike (log 11). -/
def withLockedLayout (s : State) (k : Layout → State) : State :=
  if s.session.layoutLocked then withLayout s k else refuse .layoutUndetermined s

/-! ### Positioning the bus: the operations as sub-steps, without their admission checks (00_scope.md section 5) -/

/-- A port write unless the cache already holds the value (10_state.md R24 item 2). -/
def debouncedWrite (p : PortId) (cached : Option Byte) (v : Byte) (s : State) : Txn Unit :=
  if cached = some v then .done () s else portWrite p v s

/-- `cachedBank <- b; bank <- b`. -/
def State.setBank (s : State) (b : Byte) : State :=
  { s with session := { s.session with cachedBank := some b, bank := b } }

/-- `cachedUpperByte <- v`. -/
def State.setCachedUpper (s : State) (v : Byte) : State :=
  { s with session := { s.session with cachedUpperByte := some v } }

/-- `cachedLowerByte <- v; address <- a`. -/
def State.setAddress (s : State) (v : Byte) (a : Address) : State :=
  { s with session := { s.session with cachedLowerByte := some v, address := a } }

/-- `currentOffset <- offset`. -/
def State.setOffset (s : State) (offset : Offset) : State :=
  { s with session := { s.session with currentOffset := offset } }

/-- `GOTO_BANK(b)` (41_address_bus.md R114, R118). -/
def gotoBankStep (b : Byte) (s : State) : Txn Unit :=
  (debouncedWrite .bank s.session.cachedBank b s).bind fun _ s => .done () (s.setBank b)

/-- `GOTO_ADDRESS(a)` for an ordinary address (41_address_bus.md R110, R118): upper half first (D5). -/
def gotoAddressStep (l : Layout) (a : Address) (s : State) : Txn Unit :=
  (debouncedWrite .aHi s.session.cachedUpperByte (upperByte l a) s).bind fun _ s =>
    let s := s.setCachedUpper (upperByte l a)
    (debouncedWrite .aLo s.session.cachedLowerByte (lowerByte a) s).bind fun _ s =>
      .done () (s.setAddress (lowerByte a) a)

/-- `GOTO_OFFSET(offset)` inside the map's domain (42_cartridge_map.md R137): bank, then address, then
`currentOffset`. -/
def gotoOffsetStep (l : Layout) (offset : Nat) (s : State) : Txn Unit :=
  (gotoBankStep (mapBankAddress l offset).1 s).bind fun _ s =>
    (gotoAddressStep l (mapBankAddress l offset).2 s).bind fun _ s =>
      .done () (s.setOffset (.ofNat 32 offset))

/-- One positioned read: `GOTO_OFFSET(offset)`, `READ_DATA()`. -/
def readAtOffset (l : Layout) (offset : Nat) (s : State) : Txn Byte :=
  (gotoOffsetStep l offset s).bind fun _ s => portRead s

/-! ### Fetching a command -/

/-- The next command word of the host, and the state with it taken (00_scope.md R4). -/
def nextCommand (s : State) : Option (CommandWord × State) :=
  match s.host.commands with
  | [] => none
  | w :: ws => some (w, { s with host := { s.host with commands := ws } })

/-- The answer to a word that is no command (30_encoding.md R73). -/
def refuseWord (e : DecodeError) (s : State) : State :=
  match e with
  | .reservedEncoding => refuse .reservedEncoding s

end Sys2Proof.Machine
end

