-- ==== Sys2Proof/Machine/AddressBus.lean ====
section
/-! DEFINITION. AddressBus (spec/41_address_bus.md): `GOTO_ADDRESS`, `GOTO_BANK`, `READ_DATA`. -/

namespace Sys2Proof.Machine

/-- The overflow recovery path (41_address_bus.md R112): no port transaction, `bank` and `cachedBank` left. -/
def recoverAddress (s : State) : State :=
  { s with
    session := { s.session with address := 0, cachedUpperByte := none, cachedLowerByte := none } }

/-- `GOTO_ADDRESS addr` (41_address_bus.md R110, R112, R113): the sentinel and the operand range are tested
before the layout (60_exceptions.md R235). -/
def execGotoAddress (addr : BitVec 17) (s : State) : Answer :=
  .next <| whenOpen s <|
    if addr.toNat = overflowSentinel then complete none (recoverAddress s)
    else if overflowSentinel < addr.toNat then refuse .argumentOutOfRange s
    else withLayout s fun l =>
      orRaise (gotoAddressStep l (addr.setWidth 16) s) fun _ s => complete none s

/-- `GOTO_BANK bank` (41_address_bus.md R114). -/
def execGotoBank (bank : Byte) (s : State) : Answer :=
  .next <| whenOpen s <| orRaise (gotoBankStep bank s) fun _ s => complete none s

/-- `READ_DATA` (41_address_bus.md R117). -/
def execReadData (s : State) : Answer :=
  .next <| whenOpen s <| orRaise (portRead s) fun v s => complete (some (.value v)) s

end Sys2Proof.Machine
end

