-- ==== Sys2Proof/Machine/CartridgeMap.lean ====
section
/-! DEFINITION. CartridgeMap (spec/42_cartridge_map.md): `MAP`, `UNMAP`, `GOTO_OFFSET`. -/

namespace Sys2Proof.Machine

/-- `MAP offset, layout` (42_cartridge_map.md R130, R132): pure, in any session status. -/
def execMap (offset : Offset) (l : Layout) (s : State) : Answer :=
  .next <|
    if inMap l offset.toNat then
      complete (some (.bankAddress (mapBankAddress l offset.toNat).1 (mapBankAddress l offset.toNat).2)) s
    else refuse .argumentOutOfRange s

/-- `UNMAP bank, addr, layout` (42_cartridge_map.md R134, R135): pure, in any session status. -/
def execUnmap (bank : Byte) (addr : Address) (l : Layout) (s : State) : Answer :=
  .next <|
    if addr.toNat < pageSize l then complete (some (.offset (unmapOffset l bank addr))) s
    else refuse .argumentOutOfRange s

/-- `GOTO_OFFSET offset` (42_cartridge_map.md R137): all three refusals come before any port transaction. -/
def execGotoOffset (offset : Offset) (s : State) : Answer :=
  .next <| whenOpen s <| withLayout s fun l =>
    if inMap l offset.toNat then
      orRaise (gotoOffsetStep l offset.toNat s) fun _ s => complete none s
    else refuse .argumentOutOfRange s

end Sys2Proof.Machine
end

