-- ==== Sys2Proof/Machine/ControlLines.lean ====
section
/-! DEFINITION. ControlLines (spec/40_control_lines.md): `APPLY`. -/

namespace Sys2Proof.Machine

/-- `APPLY word` (40_control_lines.md R100). The lines are then in phase `Raw`, for every word
(R103's table; for the word `CW_READ_IDLE` a DESIGN CHOICE, log 14). -/
def execApply (word : Byte) (s : State) : Answer :=
  .next (whenOpen s (complete none (lines .raw word s)))

end Sys2Proof.Machine
end

