-- ==== Sys2Proof/Machine/DumpEngine.lean ====
section
/-! DEFINITION. DumpEngine (spec/45_dump_engine.md): `DUMP_ROM`, `DUMP_SRAM`. -/

namespace Sys2Proof.Machine

/-- `runningChecksum <- 0; pageSum <- 0` (45_dump_engine.md R198). -/
def State.clearSums (s : State) : State :=
  { s with session := { s.session with runningChecksum := 0, pageSum := 0 } }

/-- One byte into `pageSum` (44_checksum_and_size.md R171). -/
def State.addToPage (s : State) (v : Byte) : State :=
  { s with session := { s.session with pageSum := addByte s.session.pageSum v } }

/-- One byte straight into `runningChecksum` (45_dump_engine.md R216). -/
def State.addToRunning (s : State) (v : Byte) : State :=
  { s with session := { s.session with runningChecksum := addByte s.session.runningChecksum v } }

/-- A fold (44_checksum_and_size.md R172). -/
def State.fold (s : State) : State :=
  { s with
    session :=
      { s.session with
        runningChecksum := s.session.runningChecksum + s.session.pageSum
        pageSum := 0 } }

/-- The inner, bank-scoped loop (45_dump_engine.md R190, R194): position, read, append, accumulate, advance, and
leave when the offset resolves to another bank than `cur`. Answers the bytes and the offset it stopped at. The
first argument bounds the turns: a page has `pageSize l` of them. -/
def pageLoop (l : Layout) (cur : Nat) : Nat → Nat → State → Txn (List Byte × Nat)
  | 0, offset, s => .done ([], offset) s
  | turns + 1, offset, s =>
    (readAtOffset l offset s).bind fun v s =>
      let s := s.addToPage v
      if (resolveNat l (offset + 1)).1 ≠ cur then .done ([v], offset + 1) s
      else
        (pageLoop l cur turns (offset + 1) s).bind fun r s => .done (v :: r.1, r.2) s

/-- The outer page-count loop of one pass (45_dump_engine.md R195, R196): after each page the bank entered becomes
`cur` and the fold condition is tested (R197). -/
def passLoop (l : Layout) : Nat → Nat → Nat → State → Txn (List Byte)
  | 0, _, _, s => .done [] s
  | pages + 1, cur, offset, s =>
    (pageLoop l cur (pageSize l) offset s).bind fun r s =>
      let entered := (resolveNat l r.2).1
      let s := if foldCondition s.config.foldBankRef l cur entered then s.fold else s
      (passLoop l pages entered r.2 s).bind fun rest s => .done (r.1 ++ rest) s

/-- The passes of a ROM dump, one image, no reset of the checksum between them (45_dump_engine.md R193, R198). -/
def runPasses (l : Layout) : List (Nat × Nat) → State → Txn (List Byte)
  | [], s => .done [] s
  | (origin, pages) :: rest, s =>
    (passLoop l pages origin (origin * pageSize l) s).bind fun bs s =>
      (runPasses l rest s).bind fun bs' s => .done (bs ++ bs') s

/-- The result of a dump: its bytes, the masked checksum and a duration that is a free value (60_exceptions.md
R248; log 9). -/
def dumpResult (bytes : List Byte) (s : State) : DumpResult where
  bytes := bytes
  checksum := maskedChecksum s.session.runningChecksum
  duration := Config.duration s.host.dumps

/-- Count a completed dump: the next duration is another free value. -/
def State.countDump (s : State) : State :=
  { s with host := { s.host with dumps := s.host.dumps + 1 } }

/-- End of a ROM dump (45_dump_engine.md R199, R200). -/
def finishRom (bytes : List Byte) (s : State) : State :=
  complete
    (some (.romDump (dumpResult bytes s)
      (checksumMatches s.session.header (maskedChecksum s.session.runningChecksum))))
    s.countDump

/-- `DUMP_ROM startBank, pageCount` (45_dump_engine.md R190 to R203). -/
def execDumpRom (startBank : Byte) (pages : Nat) (s : State) : Answer :=
  .next <| whenOpen s <| withLockedLayout s fun l =>
    let passes := passList s.config startBank pages l
    if passesFit passes then orRaise (runPasses l passes s.clearSums) finishRom
    else refuse .argumentOutOfRange s

/-- The loop of an SRAM dump over the bytes still to read, from (`sb`, `sa`) (45_dump_engine.md R210, R213). -/
def sramLoop (l : Layout) (a0 : Nat) : Nat → Nat → Nat → State → Txn (List Byte)
  | 0, _, _, s => .done [] s
  | count + 1, sb, sa, s =>
    (gotoBankStep (.ofNat 8 sb) s).bind fun _ s =>
      (gotoAddressStep l (.ofNat 16 sa) s).bind fun _ s =>
        (portRead s).bind fun v s =>
          (sramLoop l a0 count (sramNext a0 sb sa).1 (sramNext a0 sb sa).2 (s.addToRunning v)).bind
            fun vs s => .done (v :: vs) s

/-- Back to the read-idle word (45_dump_engine.md R214). -/
def restoreReadIdle (s : State) : State :=
  lines .readIdle s.config.cwReadIdle s

/-- End of an SRAM dump, on whatever exit (45_dump_engine.md R214, R218): read-idle first, then the result or the
fatal error. -/
def finishSram (r : Txn (List Byte)) : State :=
  match r with
  | .done bytes s => complete (some (.sramDump (dumpResult bytes s))) (restoreReadIdle s).countDump
  | .failed s => raise .portTransactionFailure (restoreReadIdle s)

/-- `DUMP_SRAM sramSizeCode, romSizeCode` (45_dump_engine.md R210 to R218). `romSizeCode` has no effect (R215). -/
def execDumpSram (sramSizeCode romSizeCode : Byte) (s : State) : Answer :=
  let _ := romSizeCode
  .next <| whenOpen s <| withLockedLayout s fun l =>
    let n := sramBytes sramSizeCode
    let b0 := sramOriginBank s.config l
    let a0 := sramOriginAddr s.config l
    if sramFits b0 a0 n then
      finishSram
        (sramLoop l a0 n b0 a0 (lines .sramEnabled (sramControlWord s.config l) s.clearSums))
    else refuse .argumentOutOfRange s

end Sys2Proof.Machine
end

