-- ==== Sys2Proof/Machine/HeaderParser.lean ====
section
/-! DEFINITION. HeaderParser (spec/43_header_parser.md): `PARSE_HEADER`. -/

namespace Sys2Proof.Machine

/-- `count` bytes from an offset on, ascending, one positioned read each. -/
def readAscending (l : Layout) : Nat → Nat → State → Txn (List Byte)
  | 0, _, s => .done [] s
  | count + 1, offset, s =>
    (readAtOffset l offset s).bind fun v s =>
      (readAscending l count (offset + 1) s).bind fun vs s => .done (v :: vs) s

/-- `readBlock(HDR_BASE(layout))` (43_header_parser.md R146): all 36 bytes, +20 included. -/
def readBlock (l : Layout) (s : State) : Txn (List Byte) :=
  readAscending l headerLength (headerBase l) s

/-- `layout <- l`, a plain register write (43_header_parser.md R155). -/
def State.setLayout (s : State) (l : Layout) : State :=
  { s with session := { s.session with layout := some l } }

/-- `header <- h; layoutLocked <- true`. -/
def State.lockHeader (s : State) (h : HeaderInfo) : State :=
  { s with session := { s.session with header := some h, layoutLocked := true } }

/-- The acceptance gate on the final block (43_header_parser.md R151). -/
def acceptHeader (raw : List Byte) (s : State) : State :=
  let h := extractHeader raw
  if checksumPairValid h.checksum h.inverseChecksum then
    complete (some (.header h)) (s.lockHeader h)
  else raise .headerChecksumMismatch s

/-- The layout decision on the first block (43_header_parser.md R149, R152). -/
def decideLayout (first : List Byte) (s : State) : State :=
  if layoutNibble first = 0 then acceptHeader first s
  else if layoutNibble first = 1 then orRaise (readBlock .highROM (s.setLayout .highROM)) acceptHeader
  else raise .unknownLayoutField s

/-- `PARSE_HEADER` (43_header_parser.md R150, R153). -/
def execParseHeader (s : State) : Answer :=
  .next <| whenOpen s <|
    if s.session.layoutLocked then refuse .headerAlreadyParsed s
    else orRaise (readBlock .lowROM (s.setLayout .lowROM)) decideLayout

end Sys2Proof.Machine
end

