-- ==== Sys2Proof/Machine/Session.lean ====
section
/-! DEFINITION. Session creation and teardown (spec/70_reset_and_hazards.md): `SESSION_OPEN`, `QUIESCE`. -/

namespace Sys2Proof.Machine

/-- The port configuration of session creation, in order (70_reset_and_hazards.md R262); it stops at a failed
transaction (R264). -/
def configurePorts (s : State) : Txn Unit :=
  (portDir .aHi .output s).bind fun _ s =>
    (portDir .aLo .output s).bind fun _ s =>
      (portDir .bank .output s).bind fun _ s =>
        (portDir .data .input s).bind fun _ s => portPull s.config.dataPullupOpen s

/-- The line changes of session creation (70_reset_and_hazards.md R262): the power-up words, then read-idle. -/
def powerUp (s : State) : State :=
  let s := linesAll .poweringUp s.config.cwPowerup s
  lines .readIdle s.config.cwReadIdle s

/-- The registers of a cold session (70_reset_and_hazards.md R262, R263). -/
def openSession (s : State) : State :=
  { s with
    session :=
      { s.session with
        address := 0, bank := 0, currentOffset := 0
        cachedUpperByte := none, cachedLowerByte := none, cachedBank := none
        layout := none, layoutLocked := false, header := none
        runningChecksum := 0, pageSum := 0
        status := .opened } }

/-- `SESSION_OPEN` (70_reset_and_hazards.md R262, R264). -/
def execSessionOpen (s : State) : Answer :=
  .next <|
    if s.session.status = .opened then refuse .sessionAlreadyOpen s
    else
      orRaise (configurePorts (s.setLastError 0x00)) fun _ s => complete none (openSession (powerUp s))

/-- `QUIESCE` (70_reset_and_hazards.md R265, R267): in any session status. If a transaction of the sequence
failed, the error is reported after all steps, and the sequence is not run again (60_exceptions.md R239). -/
def execQuiesce (s : State) : Answer :=
  let r := quiesceSequence s
  .next <|
    if r.2 then complete none r.1
    else
      (r.1.setLastError FatalKind.portTransactionFailure.code).respond
        (.fatal .portTransactionFailure) none

end Sys2Proof.Machine
end

