-- ==== Sys2Proof/Machine/Sizes.lean ====
section
/-! DEFINITION. ChecksumValidator and size arithmetic (spec/44_checksum_and_size.md): `VALIDATE`,
`DECODE_ROM_SIZE`, `PAGE_COUNT`, `ROM_PAGES`. -/

namespace Sys2Proof.Machine

/-- `VALIDATE checksum, inverseChecksum` (44_checksum_and_size.md R170): pure, in any session status. -/
def execValidate (checksum inverseChecksum : Checksum) (s : State) : Answer :=
  .next (complete (some (.valid (checksumPairValid checksum inverseChecksum))) s)

/-- `DECODE_ROM_SIZE code` (44_checksum_and_size.md R175): pure; an invalid code is a result, no error. -/
def execDecodeRomSize (code : Byte) (s : State) : Answer :=
  .next (complete (some (.romSize (sizeValid code) (decodedRomSize code))) s)

/-- `PAGE_COUNT romSize, layout` (44_checksum_and_size.md R177): pure. -/
def execPageCount (romSize : Nat) (l : Layout) (s : State) : Answer :=
  .next (complete (some (.pageCount (pagesOf l romSize))) s)

/-- `ROM_PAGES code` (44_checksum_and_size.md R179): an invalid code is the fatal `InvalidRomSizeCode`. -/
def execRomPages (code : Byte) (s : State) : Answer :=
  .next <| whenOpen s <| withLockedLayout s fun l =>
    match decodedRomSize code with
    | some romSize => complete (some (.pageCount (pagesOf l romSize))) s
    | none => raise .invalidRomSizeCode s

end Sys2Proof.Machine
end

