-- ==== Sys2Proof/Machine/Dispatch.lean ====
section
/-! DEFINITION. One arm per operation of spec/00_scope.md section 6. -/

namespace Sys2Proof.Machine

/-- What an instruction does. -/
def exec (i : Instr) (s : State) : Host.Outcome State Fault Refusal :=
  match i with
  | .sessionOpen => Sys2Proof.Machine.execSessionOpen s
  | .quiesce => Sys2Proof.Machine.execQuiesce s
  | .applyWord word => Sys2Proof.Machine.execApply word s
  | .gotoAddress addr => Sys2Proof.Machine.execGotoAddress addr s
  | .gotoBank bank => Sys2Proof.Machine.execGotoBank bank s
  | .readData => Sys2Proof.Machine.execReadData s
  | .mapOffset offset layout => Sys2Proof.Machine.execMap offset layout s
  | .unmapAddress bank addr layout => Sys2Proof.Machine.execUnmap bank addr layout s
  | .gotoOffset offset => Sys2Proof.Machine.execGotoOffset offset s
  | .validate checksum inverseChecksum => Sys2Proof.Machine.execValidate checksum inverseChecksum s
  | .parseHeader => Sys2Proof.Machine.execParseHeader s
  | .decodeRomSize code => Sys2Proof.Machine.execDecodeRomSize code s
  | .pageCount romSize layout => Sys2Proof.Machine.execPageCount romSize layout s
  | .romPages code => Sys2Proof.Machine.execRomPages code s
  | .dumpRom startBank pages => Sys2Proof.Machine.execDumpRom startBank pages s
  | .dumpSram sramSizeCode romSizeCode => Sys2Proof.Machine.execDumpSram sramSizeCode romSizeCode s

end Sys2Proof.Machine
end

