-- ==== Sys2Proof/Machine/Step.lean ====
section
/-! DEFINITION. One step: the next command of the host, decoded and run to completion (spec/00_scope.md R4). -/

namespace Sys2Proof.Machine

/-- One command. With none issued the block does nothing (70_reset_and_hazards.md R261); a word that is no
command is refused (30_encoding.md R73). -/
def step (s : State) : Host.Outcome State Fault Refusal :=
  match nextCommand s with
  | none => .next s
  | some (w, s') =>
    match decode w with
    | .ok i => exec i s'
    | .error e => .next (refuseWord e s')

/-- `s` with a command word placed where `step` takes its next one: the host issues it. The bits above `nbits`
are 0. -/
def State.withFetchWord (s : State) (nbits w : Nat) : State :=
  { s with host := { s.host with commands := .ofNat 40 (w % 2 ^ nbits) :: s.host.commands } }

end Sys2Proof.Machine
end

