-- ==== Sys2Proof/Safety.lean ====
section
/-! DEFINITION. The terms in which claims about a run are made: what an environment may still do, the invariant
between commands (spec/10_state.md R24, spec/60_exceptions.md R235), what a quiesced machine is
(spec/70_reset_and_hazards.md R265), and the bus addresses of spec/20_memory.md R42. A safe run is one in which
`SessionInv` holds before every command; no step can stop the machine. -/

namespace Sys2Proof.Machine

/-- The session is open. -/
abbrev State.isOpen (s : State) : Prop :=
  s.session.status = .opened

/-- The environment fails none of the next `n` port transactions (10_state.md R36). -/
abbrev State.soundFor (s : State) (n : Nat) : Prop :=
  ∀ k ∈ s.env.failing, k < s.env.txn ∨ s.env.txn + n ≤ k

/-- The environment fails no port transaction from here on. -/
abbrev State.soundPorts (s : State) : Prop :=
  ∀ k ∈ s.env.failing, k < s.env.txn

/-- The first transaction to fail from here on is number `n`, counted from 0. -/
abbrev State.firstFailure (s : State) (n : Nat) : Prop :=
  s.env.txn + n ∈ s.env.failing ∧ ∀ k < n, s.env.txn + k ∉ s.env.failing

/-- The same state in an environment that fails nothing. -/
def State.withoutFailures (s : State) : State :=
  { s with env := { s.env with failing := [] } }

/-- The environment has scheduled no answer from here on: what the cartridge lists is what it returns. -/
abbrev State.steadyCart (s : State) : Prop :=
  ∀ c ∈ s.env.answers, c.1 < s.env.txn

/-- The byte the cartridge lists for a bus address under line levels, if it lists one. -/
def State.cartAt (s : State) (ctrl : Option Levels) (bus : BusAddress) : Option Byte :=
  Memory.readByte s.env.cart (cartKey ctrl bus)

/-- The bus address an offset drives (20_memory.md R42), by that table's arithmetic alone. -/
def busOfOffset : Layout → Nat → BusAddress
  | .highROM, o => .ofNat 24 o
  | .lowROM, o => .ofNat 24 (o / 32768 * 65536 + 0x8000 + o % 32768)

/-- The bus address of a bank and a requested address (20_memory.md R42). -/
def busOfBankAddress : Layout → Nat → Nat → BusAddress
  | .highROM, bank, addr => .ofNat 24 (bank * 65536 + addr)
  | .lowROM, bank, addr => .ofNat 24 (bank * 65536 + 0x8000 + addr % 32768)

/-- The sum of a list of bytes. -/
def byteSum (bs : List Byte) : Nat :=
  (bs.map BitVec.toNat).sum

/-- The fields of a header block, as 43_header_parser.md R148 lists them. -/
structure HeaderOf (raw : List Byte) (h : HeaderInfo) : Prop where
  title : h.title.toList = raw.take 20
  speed : h.speed.toNat = (raw.getD 21 0).toNat / 16
  layoutIndicator : h.layoutIndicator.toNat = (raw.getD 21 0).toNat % 16
  cartridgeType : raw[22]? = some h.cartridgeType
  romSizeCode : raw[23]? = some h.romSizeCode
  sramSizeCode : raw[24]? = some h.sramSizeCode
  country : raw[25]? = some h.country
  license : raw[26]? = some h.license
  version : raw[27]? = some h.version
  inverseChecksum : h.inverseChecksum.toNat = (raw.getD 28 0).toNat + 256 * (raw.getD 29 0).toNat
  checksum : h.checksum.toNat = (raw.getD 30 0).toNat + 256 * (raw.getD 31 0).toNat
  nmiVector : h.nmiVector.toNat = (raw.getD 32 0).toNat + 256 * (raw.getD 33 0).toNat
  resetVector : h.resetVector.toNat = (raw.getD 34 0).toNat + 256 * (raw.getD 35 0).toNat

/-- The registers, the lines and the status that the quiesce sequence leaves, whatever its port transactions came
to (70_reset_and_hazards.md R265, 60_exceptions.md R239). -/
structure Quiesced (s : State) : Prop where
  status : s.session.status = .closed
  address : s.session.address = 0
  bank : s.session.bank = 0
  cachedUpperByte : s.session.cachedUpperByte = none
  cachedLowerByte : s.session.cachedLowerByte = none
  cachedBank : s.session.cachedBank = none
  layout : s.session.layout = none
  layoutLocked : s.session.layoutLocked = false
  header : s.session.header = none
  ctrl : s.session.ctrl = some (s.config.cwQuiesce.extractLsb' 0 5)
  phase : s.phase = .off

/-- The port transactions among recorded events: all but the line changes (40_control_lines.md R102). -/
def transactionCount (es : List Event) : Nat :=
  es.countP fun e => match e with
    | .lines _ _ => false
    | _ => true

/-- Whether the environment let an event be done (10_state.md R36); a line change cannot fail. -/
def Event.succeeded : Event → Bool
  | .lines _ _ => true
  | .write _ _ ok => ok
  | .read _ _ value => value.isSome
  | .direction _ _ _ ok => ok
  | .pullups _ ok => ok
  | .intEnable _ _ ok => ok

/-- The twelve port transactions of the quiesce sequence, in order, the first of them number `n`, each done unless it is
one of the failing ones (70_reset_and_hazards.md R265, 60_exceptions.md R239). -/
def quiesceEvents (c : Config) (failing : List Nat) (n : Nat) : List Event :=
  let ok (k : Nat) : Bool := !failing.contains (n + k)
  [ .write .aHi 0 (ok 0), .write .aLo 0 (ok 1), .write .bank 0 (ok 2),
    .pullups 0 (ok 3),
    .intEnable .aHi 0 (ok 4), .intEnable .aLo 0 (ok 5), .intEnable .bank 0 (ok 6), .intEnable .data 0 (ok 7),
    .direction .aHi .input c.dirEncoding.inputMask (ok 8),
    .direction .aLo .input c.dirEncoding.inputMask (ok 9),
    .direction .bank .input c.dirEncoding.inputMask (ok 10),
    .direction .data .input c.dirEncoding.inputMask (ok 11) ]

/-- The ports the quiesce sequence leaves, the first of its transactions being number `n`: each of the twelve that does not
fail has its effect, whatever became of the others (70_reset_and_hazards.md R265, 60_exceptions.md R239). The `DATA`
latch is never written. -/
structure PortsIdle (failing : List Nat) (n : Nat) (p : Ports) : Prop where
  aHiOut : n ∉ failing → p.aHi.out = 0
  aLoOut : n + 1 ∉ failing → p.aLo.out = 0
  bankOut : n + 2 ∉ failing → p.bank.out = 0
  pull : n + 3 ∉ failing → p.pull = 0
  aHiInten : n + 4 ∉ failing → p.aHi.inten = 0
  aLoInten : n + 5 ∉ failing → p.aLo.inten = 0
  bankInten : n + 6 ∉ failing → p.bank.inten = 0
  dataInten : n + 7 ∉ failing → p.data.inten = 0
  aHiDir : n + 8 ∉ failing → p.aHi.dir = Vector.replicate 8 .input
  aLoDir : n + 9 ∉ failing → p.aLo.dir = Vector.replicate 8 .input
  bankDir : n + 10 ∉ failing → p.bank.dir = Vector.replicate 8 .input
  dataDir : n + 11 ∉ failing → p.data.dir = Vector.replicate 8 .input

/-- A command that ends in the quiesce sequence (70_reset_and_hazards.md R265): quiesced; before the sequence, exactly the
port transactions and line changes `made`, in order; then its line change and its twelve transactions, with their
effects on the ports; nothing the environment holds is written. -/
structure QuiesceEnd (s t : State) (made : List Event) : Prop where
  quiesced : Quiesced t
  txn : t.env.txn = s.env.txn + transactionCount made + 12
  trace : t.env.trace =
    (quiesceEvents s.config s.env.failing (s.env.txn + transactionCount made)).reverse ++
      .lines .off (s.config.cwQuiesce.extractLsb' 0 5) :: (made.reverse ++ s.env.trace)
  ports : PortsIdle s.env.failing (s.env.txn + transactionCount made) t.ports
  config : t.config = s.config
  cart : t.env.cart = s.env.cart
  answers : t.env.answers = s.env.answers
  failing : t.env.failing = s.env.failing

/-- How a command that took a fatal error ends (60_exceptions.md R236): in the quiesce sequence, after exactly `made`; the
kind recorded and reported, no result. -/
structure FatalEnd (kind : FatalKind) (s t : State) (made : List Event) : Prop extends QuiesceEnd s t made where
  lastError : t.session.lastError = kind.code
  host : t.host = { s.host with response := some { status := .fatal kind, result := none } }

/-- How a command ends whose transaction number `n` is the first to fail (60_exceptions.md R236): in the fatal error
`PortTransactionFailure`. `ref` is where the same command comes to with no failure: up to the failing transaction the
events are the same, and after it none is made but those `after` and the quiesce sequence. `before` are the events
that precede the command's first transaction. -/
def FailsAt (n : Nat) (before after : List Event) (s ref t : State) : Prop :=
  ∃ done e later,
    FatalEnd .portTransactionFailure s t (before ++ done ++ e :: after) ∧ e.succeeded = false ∧
    transactionCount done = n ∧ ref.env.trace = later ++ (done.reverse ++ (before.reverse ++ s.env.trace))

/-- The data reads among recorded events. -/
def readCount (es : List Event) : Nat :=
  es.countP fun e => match e with
    | .read _ _ _ => true
    | _ => false

/-- The port writes among recorded events. -/
def writeCount (es : List Event) : Nat :=
  es.countP fun e => match e with
    | .write _ _ _ => true
    | _ => false

/-- A call of the bus: `GOTO_BANK` or an ordinary `GOTO_ADDRESS`. -/
abbrev BusCall := Byte ⊕ Address

/-- The call as an instruction. -/
def busInstr : BusCall → Instr
  | .inl b => .gotoBank b
  | .inr a => .gotoAddress (a.setWidth 17)

/-- Instructions one after the other, stopping at the first that gives no next state. -/
def runInstrs : List Instr → State → Answer
  | [], s => .next s
  | i :: is, s =>
    match exec i s with
    | .next t => runInstrs is t
    | .fault f => .fault f
    | .refused r => .refused r

/-- The outputs (`BANK`, `A_HI`, `A_LO`) after a call with suppression switched off (41_address_bus.md R115): every
write is issued. -/
def plainCall (l : Layout) (outs : Byte × Byte × Byte) : BusCall → Byte × Byte × Byte
  | .inl b => (b, outs.2.1, outs.2.2)
  | .inr a => (outs.1, upperByte l a, lowerByte a)

/-- The invariant between commands. -/
structure SessionInv (s : State) : Prop where
  /-- a closed session is idle (10_state.md R25; before the first `SESSION_OPEN` by the reset values of log 1) -/
  closedIdle : s.session.status = .closed →
    s.session.address = 0 ∧ s.session.bank = 0 ∧ s.session.cachedUpperByte = none ∧
    s.session.cachedLowerByte = none ∧ s.session.cachedBank = none ∧ s.session.layout = none ∧ s.phase = .off
  /-- the layout is determined exactly when it is locked (60_exceptions.md R235) -/
  lockedLayout : s.session.layoutLocked = s.session.layout.isSome
  /-- a locked session has a header and no other has one (43_header_parser.md R150) -/
  lockedHeader : s.session.layoutLocked = s.session.header.isSome
  /-- no HeaderInfo exists unless its checksum pair validated (70_reset_and_hazards.md R273) -/
  headerValid : ∀ h, s.session.header = some h → h.checksum ^^^ h.inverseChecksum = 0xFFFF
  /-- in LowROM the header is the block whose layout nibble was 0 (43_header_parser.md R149) -/
  headerLow : ∀ h, s.session.header = some h → s.session.layout = some .lowROM → h.layoutIndicator = 0
  /-- a cached byte is what its port drives (10_state.md R24) -/
  coherentUpper : ∀ v, s.session.cachedUpperByte = some v → s.ports.aHi.out = v
  coherentLower : ∀ v, s.session.cachedLowerByte = some v → s.ports.aLo.out = v
  coherentBank : ∀ v, s.session.cachedBank = some v → s.ports.bank.out = v
  /-- a cached byte is the split of `address` in the session's layout: in LowROM with bit 7 forced (10_state.md
  R24 item 3, R116), and `bank` is the cached bank (R12) -/
  splitUpper : ∀ v, s.session.cachedUpperByte = some v →
    ∃ l, s.session.layout = some l ∧ v = upperByte l s.session.address
  splitLower : ∀ v, s.session.cachedLowerByte = some v → v = lowerByte s.session.address
  bankRegister : ∀ v, s.session.cachedBank = some v → s.session.bank = v
  /-- the ports of an open session (10_state.md R30) -/
  openPorts : s.isOpen →
    s.ports.aHi.dir = allBits .output ∧ s.ports.aLo.dir = allBits .output ∧
    s.ports.bank.dir = allBits .output ∧ s.ports.data.dir = allBits .input ∧
    s.ports.pull = s.config.dataPullupOpen
  /-- the lines of an open session: at read-idle, or as the host's last `APPLY` left them (40_control_lines.md
  R103) -/
  openLines : s.isOpen →
    s.phase = .readIdle ∧ s.session.ctrl = some (lineLevels s.config.cwReadIdle) ∨
    s.phase = .raw ∧ s.session.ctrl.isSome
  /-- only the four codes of fatal errors, or 0x00 (30_encoding.md R84) -/
  errorCode : s.session.lastError.toNat ≤ 4
  /-- the memories keep their canonical form -/
  cartCanonical : Memory.wf s.env.cart
  answersCanonical : Memory.wf s.env.answers

end Sys2Proof.Machine
end

