-- ==== Sys2Proof/Certificates/Slice0/Obligations.lean ====
section
/-! DEFINITION. The statements for the provers, from the numbered rules of spec/. Nothing is proved here. Hypotheses on
the environment are on `State.env`: `soundPorts` and `soundFor n` say that no transaction (none of the next `n`)
is failed, `steadyCart` that no answer is scheduled, `cartAt` what the cartridge lists. -/

open Sys2Proof Sys2Proof.Machine

/-! ### The command word -/

/-- 30_encoding.md R70, R71: no bit of an operand is lost between the encoder and the decoder. -/
def Obligations.DecodeOfEncodeIsTheInstruction : Prop :=
  ∀ i : Instr, i.wellFormed = true → decode (encode i) = .ok i

/-- 30_encoding.md R70, R71, R73: each accepted word is the encoding of exactly what it decodes to. -/
def Obligations.EncodeOfDecodedWordIsTheWord : Prop :=
  ∀ (w : CommandWord) (i : Instr), decode w = .ok i → encode i = w ∧ i.wellFormed = true

/-- 30_encoding.md R72, R73: a word decodes exactly when it selects a row of the table, it selects one row only, and
that row is the one of the decoded instruction. -/
def Obligations.WordDecodesToTheOneRowItSelects : Prop :=
  ∀ w : CommandWord,
    match decode w with
    | .ok i => (opcodeTable.filter fun r => r.selects w).map OpcodeRow.mnemonic = [i.mnemonic]
    | .error _ => opcodeTable.filter (fun r => r.selects w) = []

/-- The words 30_encoding.md R86 and 95_test_vectors.md write out decode to their instructions. -/
def Obligations.WordsOfTheSpecDecode : Prop :=
  decode 0x0000000000#40 = .ok .sessionOpen ∧ decode 0x1000000000#40 = .ok .quiesce ∧
  decode 0x2000000016#40 = .ok (.applyWord 0x16) ∧ decode 0x3000010000#40 = .ok (.gotoAddress 0x10000) ∧
  decode 0x4000000070#40 = .ok (.gotoBank 0x70) ∧ decode 0x610000FFC0#40 = .ok (.mapOffset 65472 .highROM) ∧
  decode 0x7100C7FFFF#40 = .ok (.unmapAddress 0xC7 0xFFFF .highROM) ∧
  decode 0x901234EDCB#40 = .ok (.validate 0x1234 0xEDCB) ∧
  decode 0xC100000008#40 = .ok (.pageCount 8 .highROM) ∧ decode 0xE000C00008#40 = .ok (.dumpRom 0xC0 8) ∧
  decode 0xF000004809#40 = .ok (.dumpSram 0x48 9)

/-- 00_scope.md R4: a step takes the host's next command and runs the instruction it decodes to. -/
def Obligations.StepRunsTheDecodedCommand : Prop :=
  ∀ (s : State) (w : CommandWord) (ws : List CommandWord) (i : Instr),
    s.host.commands = w :: ws → decode w = .ok i →
    step s = exec i { s with host := { s.host with commands := ws } }

/-- 30_encoding.md R73, 60_exceptions.md R235: a word that matches no row of the table is refused with reason
`ReservedEncoding` in whatever session state; the command is used up and nothing else changes. -/
def Obligations.ReservedWordIsRefusedAndChangesNothing : Prop :=
  ∀ (s : State) (w : CommandWord) (ws : List CommandWord),
    s.host.commands = w :: ws → (∀ r ∈ opcodeTable, w &&& r.mask ≠ r.pattern) →
    step s =
      .next { s with
        host :=
          { s.host with
            commands := ws
            response := some { status := .refused .reservedEncoding, result := none } } }

/-- 70_reset_and_hazards.md R261: the block does nothing until commanded. -/
def Obligations.StepWithoutCommandChangesNothing : Prop :=
  ∀ s : State, s.host.commands = [] → step s = .next s

/-! ### The whole machine -/

/-- 10_state.md R25, 70_reset_and_hazards.md R261: what the spec fixes at power-on. -/
def Obligations.PowerOnIsClosedWithNoErrorAndNoHeader : Prop :=
  State.reset.session.status = .closed ∧ State.reset.session.lastError = 0x00 ∧
  State.reset.session.header = none

/-- The invariant between commands holds at power-on (by the reset values of log 1, the model's choice). -/
def Obligations.PowerOnHoldsSessionInv : Prop :=
  SessionInv State.reset

/-- 10_state.md R24, 43_header_parser.md R150, R151, 60_exceptions.md R235: every step keeps the invariant. -/
def Obligations.StepKeepsSessionInv : Prop :=
  ∀ s t : State, SessionInv s → step s = .next t → SessionInv t

/-- 30_encoding.md R84: every operation goes on to a next state and answers with a status; it has a result only when
the status is `OK`. -/
def Obligations.EveryInstructionAnswersTheHost : Prop :=
  ∀ (i : Instr) (s : State), ∃ t r,
    exec i s = .next t ∧ t.host.response = some r ∧ (r.result.isSome → r.status = .ok)

/-- 60_exceptions.md R235: a refused command changes nothing but the answer. -/
def Obligations.RefusedCommandChangesOnlyTheAnswer : Prop :=
  ∀ (i : Instr) (s t : State) (reason : RefuseReason) (r : Option Result),
    exec i s = .next t → t.host.response = some { status := .refused reason, result := r } →
    t = { s with host := { s.host with response := some { status := .refused reason, result := none } } }

/-- 60_exceptions.md R236, 70_reset_and_hazards.md R265: a fatal error of whatever operation runs the quiesce sequence, in
full and with its effects on the ports, leaves the session closed, the kind recorded, no result. -/
def Obligations.FatalErrorQuiescesAndCloses : Prop :=
  ∀ (i : Instr) (s t : State) (kind : FatalKind) (r : Option Result),
    exec i s = .next t → t.host.response = some { status := .fatal kind, result := r } →
    r = none ∧ ∃ made, FatalEnd kind s t made

/-- 60_exceptions.md R231 to R234: which operation raises which fatal kind. -/
def Obligations.FatalKindsComeFromTheirOperations : Prop :=
  ∀ (i : Instr) (s t : State) (kind : FatalKind) (r : Option Result),
    exec i s = .next t → t.host.response = some { status := .fatal kind, result := r } →
    match kind with
    | .headerChecksumMismatch | .unknownLayoutField => i = .parseHeader
    | .invalidRomSizeCode => ∃ code, i = .romPages code
    | .portTransactionFailure =>
      i = .sessionOpen ∨ i = .quiesce ∨ (∃ a, i = .gotoAddress a) ∨ (∃ b, i = .gotoBank b) ∨
      i = .readData ∨ (∃ o, i = .gotoOffset o) ∨ i = .parseHeader ∨ (∃ b n, i = .dumpRom b n) ∨
      ∃ c d, i = .dumpSram c d

/-- 70_reset_and_hazards.md R266: the `QUIESCE` command and a fatal error are the only ways out of `Open`, and both
end in the quiesce sequence: its line change, its twelve port transactions in order, each done unless the environment
fails it, their effects on the ports, and the registers it leaves. -/
def Obligations.OpenIsLeftOnlyByQuiesceOrFatalError : Prop :=
  ∀ (i : Instr) (s t : State),
    s.isOpen → exec i s = .next t → ¬ t.isOpen →
    (i = .quiesce ∨ ∃ kind, t.host.response = some { status := .fatal kind, result := none }) ∧
    ∃ made, QuiesceEnd s t made

/-- 10_state.md R14, R22, 43_header_parser.md R153: a locked layout and the header stay until the session closes. -/
def Obligations.LockedLayoutAndHeaderStayWhileOpen : Prop :=
  ∀ (i : Instr) (s t : State),
    s.isOpen → s.session.layoutLocked = true → exec i s = .next t → t.isOpen →
    t.session.layout = s.session.layout ∧ t.session.layoutLocked = true ∧
    t.session.header = s.session.header

/-- 40_control_lines.md R103: which operations move the control lines; any fatal error does. -/
def Obligations.ControlLinesMoveOnlyWithTheirOperations : Prop :=
  ∀ (i : Instr) (s t : State),
    exec i s = .next t → t.session.ctrl ≠ s.session.ctrl ∨ t.phase ≠ s.phase →
    (∃ w, i = .applyWord w) ∨ i = .sessionOpen ∨ i = .quiesce ∨ (∃ c d, i = .dumpSram c d) ∨
    ∃ kind, t.host.response = some { status := .fatal kind, result := none }

/-- 10_state.md R30, R34, R35, 70_reset_and_hazards.md R262, R265: directions, pull-ups and interrupt enables change with
session creation and teardown alone; the `DATA` latch is never written (R32). -/
def Obligations.PortConfigurationMovesOnlyWithSessions : Prop :=
  ∀ (i : Instr) (s t : State), exec i s = .next t →
    t.ports.data.out = s.ports.data.out ∧
    ((t.ports.aHi.dir, t.ports.aLo.dir, t.ports.bank.dir, t.ports.data.dir) ≠
        (s.ports.aHi.dir, s.ports.aLo.dir, s.ports.bank.dir, s.ports.data.dir) ∨
      (t.ports.aHi.inten, t.ports.aLo.inten, t.ports.bank.inten, t.ports.data.inten) ≠
        (s.ports.aHi.inten, s.ports.aLo.inten, s.ports.bank.inten, s.ports.data.inten) ∨
      t.ports.pull ≠ s.ports.pull →
      i = .sessionOpen ∨ i = .quiesce ∨
        ∃ kind, t.host.response = some { status := .fatal kind, result := none })

/-- 10_state.md R10, R15, R16, R17, 44_checksum_and_size.md R171: which operations write `currentOffset` and which
write the accumulators; `SESSION_OPEN` clears all three. -/
def Obligations.OffsetAndAccumulatorsHaveTheirWriters : Prop :=
  ∀ (i : Instr) (s t : State), exec i s = .next t →
    (t.session.currentOffset ≠ s.session.currentOffset →
      (∃ o, i = .gotoOffset o) ∨ i = .parseHeader ∨ (∃ b n, i = .dumpRom b n) ∨ i = .sessionOpen) ∧
    (t.session.runningChecksum ≠ s.session.runningChecksum ∨ t.session.pageSum ≠ s.session.pageSum →
      (∃ b n, i = .dumpRom b n) ∨ (∃ c d, i = .dumpSram c d) ∨ i = .sessionOpen)

/-- 10_state.md R20: `lastError` changes with a fatal error, and `SESSION_OPEN` alone clears it. -/
def Obligations.LastErrorKeptUntilFatalErrorOrSessionOpen : Prop :=
  ∀ (i : Instr) (s t : State),
    exec i s = .next t → t.session.lastError ≠ s.session.lastError →
    i = .sessionOpen ∧ t.session.lastError = 0x00 ∨
    ∃ kind, t.host.response = some { status := .fatal kind, result := none } ∧
      t.session.lastError = kind.code

/-- 00_scope.md section 5: the block never writes cartridge memory. Every byte of it, the environment's schedule, the
open parameters and the commands still to come read after an operation as before; the record of events only grows
and transactions are only counted up. -/
def Obligations.MemoryAndParametersNeverWritten : Prop :=
  ∀ (i : Instr) (s t : State),
    exec i s = .next t →
    (∀ a, Memory.readByte t.env.cart a = Memory.readByte s.env.cart a) ∧
    (∀ a, Memory.readByte t.env.answers a = Memory.readByte s.env.answers a) ∧
    t.env.failing = s.env.failing ∧ t.config = s.config ∧ t.host.commands = s.host.commands ∧
    s.env.txn ≤ t.env.txn ∧ ∃ es, t.env.trace = es ++ s.env.trace

/-- 60_exceptions.md R235, the column `Closed`: on a closed session every operation is refused with `SessionClosed`
but `SESSION_OPEN`, `QUIESCE` and the five pure ones, which answer nothing of the kind. -/
def Obligations.ClosedSessionAdmission : Prop :=
  ∀ (i : Instr) (s : State), s.session.status = .closed →
    match i with
    | .sessionOpen | .quiesce | .mapOffset _ _ | .unmapAddress _ _ _ | .validate _ _
    | .decodeRomSize _ | .pageCount _ _ =>
      ∀ t, exec i s = .next t →
        t.host.response ≠ some { status := .refused .sessionClosed, result := none }
    | .applyWord _ | .gotoAddress _ | .gotoBank _ | .readData | .gotoOffset _ | .parseHeader
    | .romPages _ | .dumpRom _ _ | .dumpSram _ _ =>
      exec i s =
        .next { s with
          host := { s.host with response := some { status := .refused .sessionClosed, result := none } } }

/-- 60_exceptions.md R235, the columns `Open`: `SESSION_OPEN` is refused; with no layout the offset-based operations
are refused with `LayoutUndetermined`; with a locked one `PARSE_HEADER` is refused. -/
def Obligations.OpenSessionAdmission : Prop :=
  ∀ (i : Instr) (s : State) (reason : RefuseReason), s.isOpen →
    (i = .sessionOpen ∧ reason = .sessionAlreadyOpen ∨
      i = .parseHeader ∧ s.session.layoutLocked = true ∧ reason = .headerAlreadyParsed ∨
      ((∃ a : BitVec 17, i = .gotoAddress a ∧ a.toNat ≤ 0xFFFF) ∨ (∃ o, i = .gotoOffset o) ∨
        (∃ c, i = .romPages c) ∨ (∃ b n, i = .dumpRom b n) ∨ ∃ c d, i = .dumpSram c d) ∧
        s.session.layout = none ∧ reason = .layoutUndetermined) →
    exec i s =
      .next { s with
        host := { s.host with response := some { status := .refused reason, result := none } } }

/-! ### Session creation and teardown -/

/-- 70_reset_and_hazards.md R262: `SESSION_OPEN` on a closed session, port transactions and line changes in order. -/
def Obligations.SessionOpenStartsAColdSession : Prop :=
  ∀ s : State, s.session.status = .closed → s.soundFor 5 →
    exec .sessionOpen s =
      .next { s with
        session :=
          { status := .opened, address := 0, bank := 0, cachedUpperByte := none, cachedLowerByte := none
            cachedBank := none, layout := none, layoutLocked := false, currentOffset := 0
            runningChecksum := 0, pageSum := 0, header := none
            ctrl := some (s.config.cwReadIdle.extractLsb' 0 5), lastError := 0x00 }
        phase := .readIdle
        ports :=
          { aHi := { s.ports.aHi with dir := Vector.replicate 8 .output }
            aLo := { s.ports.aLo with dir := Vector.replicate 8 .output }
            bank := { s.ports.bank with dir := Vector.replicate 8 .output }
            data := { s.ports.data with dir := Vector.replicate 8 .input }
            pull := s.config.dataPullupOpen }
        env :=
          { s.env with
            txn := s.env.txn + 5
            trace :=
              ([ Event.direction .aHi .output s.config.dirEncoding.outputMask true,
                 Event.direction .aLo .output s.config.dirEncoding.outputMask true,
                 Event.direction .bank .output s.config.dirEncoding.outputMask true,
                 Event.direction .data .input s.config.dirEncoding.inputMask true,
                 Event.pullups s.config.dataPullupOpen true ] ++
                (s.config.cwPowerup.map fun w => Event.lines .poweringUp (w.extractLsb' 0 5)) ++
                [Event.lines .readIdle (s.config.cwReadIdle.extractLsb' 0 5)]).reverse ++ s.env.trace }
        host := { s.host with response := some { status := .ok, result := none } } }

/-- 70_reset_and_hazards.md R264: the first of the five transactions of session creation that fails, number `n`, is fatal: the
remaining steps are skipped (`n + 1` transactions and no line change come before the quiesce sequence), and the
session stays closed. -/
def Obligations.SessionOpenPortFailureIsFatal : Prop :=
  ∀ (s : State) (n : Nat), s.session.status = .closed → n < 5 →
    (∀ k < n, s.env.txn + k ∉ s.env.failing) → s.env.txn + n ∈ s.env.failing →
    ∃ t made, exec .sessionOpen s = .next t ∧ FatalEnd .portTransactionFailure s t made ∧
      made.length = n + 1 ∧ ∀ p w, Event.lines p w ∉ made

/-- 70_reset_and_hazards.md R265, R267: `QUIESCE` in whatever session status, its transactions in order. -/
def Obligations.QuiesceReturnsEverythingToIdle : Prop :=
  ∀ s : State, s.soundFor 12 →
    exec .quiesce s =
      .next { s with
        session :=
          { s.session with
            status := .closed, address := 0, bank := 0, cachedUpperByte := none
            cachedLowerByte := none, cachedBank := none, layout := none, layoutLocked := false
            header := none, ctrl := some (s.config.cwQuiesce.extractLsb' 0 5) }
        phase := .off
        ports :=
          { aHi := { out := 0, dir := Vector.replicate 8 .input, inten := 0 }
            aLo := { out := 0, dir := Vector.replicate 8 .input, inten := 0 }
            bank := { out := 0, dir := Vector.replicate 8 .input, inten := 0 }
            data := { s.ports.data with dir := Vector.replicate 8 .input, inten := 0 }
            pull := 0 }
        env :=
          { s.env with
            txn := s.env.txn + 12
            trace :=
              ([ Event.lines .off (s.config.cwQuiesce.extractLsb' 0 5),
                 Event.write .aHi 0 true, Event.write .aLo 0 true, Event.write .bank 0 true, Event.pullups 0 true,
                 Event.intEnable .aHi 0 true, Event.intEnable .aLo 0 true, Event.intEnable .bank 0 true,
                 Event.intEnable .data 0 true,
                 Event.direction .aHi .input s.config.dirEncoding.inputMask true,
                 Event.direction .aLo .input s.config.dirEncoding.inputMask true,
                 Event.direction .bank .input s.config.dirEncoding.inputMask true,
                 Event.direction .data .input s.config.dirEncoding.inputMask true ] : List Event).reverse ++
                s.env.trace }
        host := { s.host with response := some { status := .ok, result := none } } }

/-- 60_exceptions.md R239, 70_reset_and_hazards.md R265: with a port failing in it, `QUIESCE` still attempts each of the
twelve steps once, in order (`quiesceEvents`); each that does not fail has its effect (`PortsIdle`); the registers are
cleaned up, and the failure is reported after that. -/
def Obligations.QuiesceAttemptsEveryStepDespiteFailures : Prop :=
  ∀ s : State, (∃ k ∈ s.env.failing, s.env.txn ≤ k ∧ k < s.env.txn + 12) →
    ∃ t, exec .quiesce s = .next t ∧ FatalEnd .portTransactionFailure s t []

/-! ### ControlLines -/

/-- 40_control_lines.md R100, R101: `APPLY` drives the five lines from bits 4:0 and changes nothing else. That the phase is
then `Raw` also where the word is `CW_READ_IDLE` is the model's choice (log 14). -/
def Obligations.ApplyDrivesTheFiveLines : Prop :=
  ∀ (w : Byte) (s : State), s.isOpen →
    exec (.applyWord w) s =
      .next { s with
        session := { s.session with ctrl := some (BitVec.ofNat 5 (w.toNat % 32)) }
        phase := .raw
        env := { s.env with trace := Event.lines .raw (BitVec.ofNat 5 (w.toNat % 32)) :: s.env.trace }
        host := { s.host with response := some { status := .ok, result := none } } }

/-- 30_encoding.md R75: bits 5 to 7 of a control word are accepted and ignored: they drive no line and are not stored. -/
def Obligations.ApplyIgnoresReservedBits : Prop :=
  ∀ (w : Byte) (s : State),
    exec (.applyWord w) s = exec (.applyWord (w &&& 0x1F)) s ∧
    (s.isOpen → ∃ t, exec (.applyWord w) s = .next t ∧
      t.host.response = some { status := .ok, result := none })

/-! ### AddressBus -/

/-- 41_address_bus.md R112, R113, R244: the overflow sentinel resets `address` and the address cache, touches no port
and needs no layout; operands above it are refused and change nothing. -/
def Obligations.GotoAddressFromTheSentinelOn : Prop :=
  ∀ (a : BitVec 17) (s : State), s.isOpen → 0x10000 ≤ a.toNat →
    exec (.gotoAddress a) s =
      .next (if a.toNat = 0x10000 then
        { s with
          session := { s.session with address := 0, cachedUpperByte := none, cachedLowerByte := none }
          host := { s.host with response := some { status := .ok, result := none } } }
      else
        { s with
          host :=
            { s.host with
              response := some { status := .refused .argumentOutOfRange, result := none } } })

/-- 41_address_bus.md R110, R111: an ordinary address, each half written only where the cache does not hold it, upper
first. -/
def Obligations.GotoAddressWritesTheHalvesThatDiffer : Prop :=
  ∀ (a : BitVec 17) (s : State) (l : Layout),
    s.isOpen → s.session.layout = some l → a.toNat ≤ 0xFFFF → s.soundFor 2 →
    let upper : Byte := .ofNat 8 (a.toNat / 256) ||| (if l = .lowROM then 0x80 else 0x00)
    let lower : Byte := .ofNat 8 (a.toNat % 256)
    let up : List Event := if s.session.cachedUpperByte = some upper then [] else [Event.write .aHi upper true]
    let lo : List Event := if s.session.cachedLowerByte = some lower then [] else [Event.write .aLo lower true]
    exec (.gotoAddress a) s =
      .next { s with
        session :=
          { s.session with
            address := .ofNat 16 a.toNat, cachedUpperByte := some upper, cachedLowerByte := some lower }
        ports :=
          { s.ports with
            aHi :=
              { s.ports.aHi with
                out := if s.session.cachedUpperByte = some upper then s.ports.aHi.out else upper }
            aLo :=
              { s.ports.aLo with
                out := if s.session.cachedLowerByte = some lower then s.ports.aLo.out else lower } }
        env :=
          { s.env with
            txn := s.env.txn + up.length + lo.length
            trace := lo ++ up ++ s.env.trace }
        host := { s.host with response := some { status := .ok, result := none } } }

/-- 41_address_bus.md R118: a failed write stops `GOTO_ADDRESS` there, an earlier write of the same call stays made, and
the error is fatal. -/
def Obligations.GotoAddressStopsAtAFailedWrite : Prop :=
  ∀ (a : BitVec 17) (s : State) (l : Layout),
    s.isOpen → s.session.layout = some l → a.toNat ≤ 0xFFFF →
    let upper : Byte := .ofNat 8 (a.toNat / 256) ||| (if l = .lowROM then 0x80 else 0x00)
    let lower : Byte := .ofNat 8 (a.toNat % 256)
    (s.session.cachedUpperByte ≠ some upper → s.env.txn ∈ s.env.failing →
      ∃ t, exec (.gotoAddress a) s = .next t ∧
        FatalEnd .portTransactionFailure s t [Event.write .aHi upper false]) ∧
    (s.session.cachedUpperByte = some upper → s.session.cachedLowerByte ≠ some lower →
      s.env.txn ∈ s.env.failing →
      ∃ t, exec (.gotoAddress a) s = .next t ∧
        FatalEnd .portTransactionFailure s t [Event.write .aLo lower false]) ∧
    (s.session.cachedUpperByte ≠ some upper → s.session.cachedLowerByte ≠ some lower →
      s.env.txn ∉ s.env.failing → s.env.txn + 1 ∈ s.env.failing →
      ∃ t, exec (.gotoAddress a) s = .next t ∧
        FatalEnd .portTransactionFailure s t [Event.write .aHi upper true, Event.write .aLo lower false])

/-- 41_address_bus.md R114: `GOTO_BANK` writes the bank port only where the cache does not hold the bank. -/
def Obligations.GotoBankWritesTheBankThatDiffers : Prop :=
  ∀ (b : Byte) (s : State), s.isOpen → s.soundFor 1 →
    let wr : List Event := if s.session.cachedBank = some b then [] else [Event.write .bank b true]
    exec (.gotoBank b) s =
      .next { s with
        session := { s.session with bank := b, cachedBank := some b }
        ports :=
          { s.ports with
            bank :=
              { s.ports.bank with
                out := if s.session.cachedBank = some b then s.ports.bank.out else b } }
        env := { s.env with txn := s.env.txn + wr.length, trace := wr ++ s.env.trace }
        host := { s.host with response := some { status := .ok, result := none } } }

/-- 41_address_bus.md R117, 10_state.md R33, 20_memory.md R41: one data read at the bus address the port latches form,
under the line levels; what is returned is what the environment gives, and no register changes. The model's choice
(log 5), which no rule states: the byte is the one scheduled for the transaction where there is one, else the one the
cartridge lists; where there is neither it is free. -/
def Obligations.ReadDataReturnsWhatTheEnvironmentGives : Prop :=
  ∀ s : State, s.isOpen → s.soundFor 1 →
    let bus : BusAddress :=
      .ofNat 24 (s.ports.bank.out.toNat * 65536 + s.ports.aHi.out.toNat * 256 + s.ports.aLo.out.toNat)
    ∃ v : Byte,
      (∀ b, Memory.readByte s.env.answers s.env.txn = some b → v = b) ∧
      (Memory.readByte s.env.answers s.env.txn = none →
        ∀ b, s.cartAt s.session.ctrl bus = some b → v = b) ∧
      exec .readData s =
        .next { s with
          env :=
            { s.env with
              txn := s.env.txn + 1
              trace := Event.read s.session.ctrl bus (some v) :: s.env.trace }
          host := { s.host with response := some { status := .ok, result := some (.value v) } } }

/-- 41_address_bus.md R114, R117, R118, 42_cartridge_map.md R137, 10_state.md R36, 60_exceptions.md R234: a failed bank
write, a failed read, and whichever write of a `GOTO_OFFSET` is the first to fail (bank, upper half, lower half, of
those it makes) are fatal there; earlier writes of the call stay made, and `currentOffset` is not updated. -/
def Obligations.FailedWriteOrReadIsFatal : Prop :=
  ∀ s : State, s.isOpen →
    (∀ b : Byte, s.session.cachedBank ≠ some b → s.env.txn ∈ s.env.failing →
      ∃ t, exec (.gotoBank b) s = .next t ∧
        FatalEnd .portTransactionFailure s t [.write .bank b false]) ∧
    (∀ (o : Offset) (l : Layout) (n : Nat),
      let page := if l = .lowROM then 32768 else 65536
      let bank : Byte := .ofNat 8 (o.toNat / page)
      let upper : Byte := .ofNat 8 (o.toNat % page / 256) ||| (if l = .lowROM then 0x80 else 0x00)
      let lower : Byte := .ofNat 8 (o.toNat % page % 256)
      let writes : List (PortId × Byte) :=
        (if s.session.cachedBank = some bank then [] else [(.bank, bank)]) ++
          (if s.session.cachedUpperByte = some upper then [] else [(.aHi, upper)]) ++
          (if s.session.cachedLowerByte = some lower then [] else [(.aLo, lower)])
      s.session.layout = some l → o.toNat < 256 * page → n < writes.length → s.firstFailure n →
      ∃ t, exec (.gotoOffset o) s = .next t ∧
        FatalEnd .portTransactionFailure s t
          ((writes.take n).map (fun w => Event.write w.1 w.2 true) ++
            ((writes.drop n).take 1).map fun w => Event.write w.1 w.2 false) ∧
        t.session.currentOffset = s.session.currentOffset) ∧
    (s.env.txn ∈ s.env.failing →
      ∃ t, exec .readData s = .next t ∧
        FatalEnd .portTransactionFailure s t
          [ .read s.session.ctrl
              (.ofNat 24 (s.ports.bank.out.toNat * 65536 + s.ports.aHi.out.toNat * 256 + s.ports.aLo.out.toNat))
              none ])

/-- 41_address_bus.md R115 item 3, 20_memory.md R58: the outputs after any sequence of calls are those of the same
sequence with suppression switched off. -/
def Obligations.SuppressionNeverChangesTheBus : Prop :=
  ∀ (calls : List BusCall) (s : State) (l : Layout),
    SessionInv s → s.isOpen → s.session.layout = some l → s.soundPorts →
    ∃ t, runInstrs (calls.map busInstr) s = .next t ∧
      (t.ports.bank.out, t.ports.aHi.out, t.ports.aLo.out) =
        calls.foldl (plainCall l) (s.ports.bank.out, s.ports.aHi.out, s.ports.aLo.out)

/-! ### CartridgeMap -/

/-- 42_cartridge_map.md R130, R131, R132: `MAP` inside its domain and its refusal outside, in whatever session
status. -/
def Obligations.MapSplitsTheOffsetByPages : Prop :=
  ∀ (o : Offset) (l : Layout) (s : State),
    let page := if l = .lowROM then 32768 else 65536
    exec (.mapOffset o l) s =
      .next { s with
        host :=
          { s.host with
            response :=
              some (if o.toNat < 256 * page then
                { status := .ok
                  result := some (.bankAddress (.ofNat 8 (o.toNat / page)) (.ofNat 16 (o.toNat % page))) }
              else { status := .refused .argumentOutOfRange, result := none }) } }

/-- 42_cartridge_map.md R134, R135: `UNMAP` inside its domain and its refusal outside, in whatever session status. -/
def Obligations.UnmapJoinsBankAndAddress : Prop :=
  ∀ (b : Byte) (a : Address) (l : Layout) (s : State),
    let page := if l = .lowROM then 32768 else 65536
    exec (.unmapAddress b a l) s =
      .next { s with
        host :=
          { s.host with
            response :=
              some (if a.toNat < page then
                { status := .ok, result := some (.offset (.ofNat 32 (b.toNat * page + a.toNat))) }
              else { status := .refused .argumentOutOfRange, result := none }) } }

/-- 42_cartridge_map.md R136: the round trip, both ways, over the whole domain of either operation. -/
def Obligations.MapAndUnmapAreInverse : Prop :=
  ∀ l : Layout,
    let page := if l = .lowROM then 32768 else 65536
    (∀ (o : Offset) (s : State), o.toNat < 256 * page → ∃ b a t u,
      exec (.mapOffset o l) s = .next t ∧
      t.host.response = some { status := .ok, result := some (.bankAddress b a) } ∧
      exec (.unmapAddress b a l) t = .next u ∧
      u.host.response = some { status := .ok, result := some (.offset o) }) ∧
    (∀ (b : Byte) (a : Address) (s : State), a.toNat < page → ∃ o t u,
      exec (.unmapAddress b a l) s = .next t ∧
      t.host.response = some { status := .ok, result := some (.offset o) } ∧
      exec (.mapOffset o l) t = .next u ∧
      u.host.response = some { status := .ok, result := some (.bankAddress b a) })

/-- 42_cartridge_map.md R137: `GOTO_OFFSET` positions bank, upper half, lower half, each written only where the cache
does not hold it, and records the offset. -/
def Obligations.GotoOffsetPositionsBankThenAddress : Prop :=
  ∀ (o : Offset) (s : State) (l : Layout),
    s.isOpen → s.session.layout = some l → s.soundFor 3 →
    let page := if l = .lowROM then 32768 else 65536
    o.toNat < 256 * page →
    let bank : Byte := .ofNat 8 (o.toNat / page)
    let addr := o.toNat % page
    let upper : Byte := .ofNat 8 (addr / 256) ||| (if l = .lowROM then 0x80 else 0x00)
    let lower : Byte := .ofNat 8 (addr % 256)
    let bk : List Event := if s.session.cachedBank = some bank then [] else [Event.write .bank bank true]
    let up : List Event := if s.session.cachedUpperByte = some upper then [] else [Event.write .aHi upper true]
    let lo : List Event := if s.session.cachedLowerByte = some lower then [] else [Event.write .aLo lower true]
    exec (.gotoOffset o) s =
      .next { s with
        session :=
          { s.session with
            bank := bank, cachedBank := some bank, address := .ofNat 16 addr
            cachedUpperByte := some upper, cachedLowerByte := some lower, currentOffset := o }
        ports :=
          { s.ports with
            bank :=
              { s.ports.bank with
                out := if s.session.cachedBank = some bank then s.ports.bank.out else bank }
            aHi :=
              { s.ports.aHi with
                out := if s.session.cachedUpperByte = some upper then s.ports.aHi.out else upper }
            aLo :=
              { s.ports.aLo with
                out := if s.session.cachedLowerByte = some lower then s.ports.aLo.out else lower } }
        env :=
          { s.env with
            txn := s.env.txn + bk.length + up.length + lo.length
            trace := lo ++ up ++ bk ++ s.env.trace }
        host := { s.host with response := some { status := .ok, result := none } } }

/-- 42_cartridge_map.md R132, R137: an offset outside the layout's domain is refused before any port transaction. -/
def Obligations.GotoOffsetOutsideTheMapIsRefused : Prop :=
  ∀ (o : Offset) (s : State) (l : Layout),
    s.isOpen → s.session.layout = some l → 256 * (if l = .lowROM then 32768 else 65536) ≤ o.toNat →
    exec (.gotoOffset o) s =
      .next { s with
        host :=
          { s.host with response := some { status := .refused .argumentOutOfRange, result := none } } }

/-! ### HeaderParser -/

/-- 43_header_parser.md R146, R148, R150, R154: `PARSE_HEADER` on an open session without a locked layout, whatever the
host has put in the bank cache, whose cartridge lists a LowROM header with a valid pair: the HeaderInfo, the
registers, and the port traffic in full. On a cold session the events are the 74 of R154; a bank or a lower half
that the cache already holds is not written again. -/
def Obligations.ParseHeaderAcceptsALowRomHeader : Prop :=
  ∀ (s : State) (raw : List Byte) (h : HeaderInfo),
    SessionInv s → s.isOpen → s.session.layoutLocked = false → s.soundPorts → s.steadyCart →
    raw.length = 36 → HeaderOf raw h →
    (∀ k < 36, s.cartAt s.session.ctrl (.ofNat 24 (0xFFC0 + k)) = raw[k]?) →
    h.layoutIndicator = 0 → h.checksum ^^^ h.inverseChecksum = 0xFFFF →
    let events : List Event :=
      (if s.session.cachedBank = some 0 then [] else [Event.write .bank 0 true]) ++ [Event.write .aHi 0xFF true] ++
        (List.range 36).flatMap fun k =>
          (if k = 0 ∧ s.session.cachedLowerByte = some 0xC0 then []
            else [Event.write .aLo (.ofNat 8 (0xC0 + k)) true]) ++
            [Event.read s.session.ctrl (.ofNat 24 (0xFFC0 + k)) raw[k]?]
    exec .parseHeader s =
      .next { s with
        session :=
          { s.session with
            address := 0x7FE3, bank := 0, cachedUpperByte := some 0xFF, cachedLowerByte := some 0xE3
            cachedBank := some 0, layout := some .lowROM, layoutLocked := true, currentOffset := 32739
            header := some h }
        ports :=
          { s.ports with
            bank := { s.ports.bank with out := 0 }
            aHi := { s.ports.aHi with out := 0xFF }
            aLo := { s.ports.aLo with out := 0xE3 } }
        env := { s.env with txn := s.env.txn + events.length, trace := events.reverse ++ s.env.trace }
        host := { s.host with response := some { status := .ok, result := some (.header h) } } }

/-- 43_header_parser.md R149, R150, R154: layout nibble 1 means a second block, read as HighROM. -/
def Obligations.ParseHeaderAcceptsAHighRomHeader : Prop :=
  ∀ (s : State) (raw : List Byte) (h : HeaderInfo),
    SessionInv s → s.isOpen → s.session.layoutLocked = false → s.soundPorts → s.steadyCart →
    raw.length = 36 → HeaderOf raw h →
    (∀ k < 36, s.cartAt s.session.ctrl (.ofNat 24 (0xFFC0 + k)) = raw[k]?) →
    h.layoutIndicator = 1 → h.checksum ^^^ h.inverseChecksum = 0xFFFF →
    ∃ t, exec .parseHeader s = .next t ∧
      t.session =
        { s.session with
          address := 0xFFE3, bank := 0, cachedUpperByte := some 0xFF, cachedLowerByte := some 0xE3
          cachedBank := some 0, layout := some .highROM, layoutLocked := true, currentOffset := 65507
          header := some h } ∧
      t.host = { s.host with response := some { status := .ok, result := some (.header h) } } ∧
      t.phase = s.phase ∧ t.ports.pull = s.ports.pull ∧
      ∃ es, t.env.trace = es ++ s.env.trace ∧ readCount es = 72

/-- 43_header_parser.md R149, R151, R152, 60_exceptions.md R237, R238: the two fatal parse errors, the nibble test
first, no read at the other candidate on a mismatch. -/
def Obligations.ParseHeaderRejectsBadHeaders : Prop :=
  ∀ (s : State) (raw : List Byte) (h : HeaderInfo),
    SessionInv s → s.isOpen → s.session.layoutLocked = false → s.soundPorts → s.steadyCart →
    raw.length = 36 → HeaderOf raw h →
    (∀ k < 36, s.cartAt s.session.ctrl (.ofNat 24 (0xFFC0 + k)) = raw[k]?) →
    (2 ≤ h.layoutIndicator.toNat →
      ∃ t made, exec .parseHeader s = .next t ∧ FatalEnd .unknownLayoutField s t made ∧
        readCount made = 36) ∧
    (h.layoutIndicator.toNat < 2 → h.checksum ^^^ h.inverseChecksum ≠ 0xFFFF →
      ∃ t made, exec .parseHeader s = .next t ∧ FatalEnd .headerChecksumMismatch s t made ∧
        readCount made = if h.layoutIndicator = 0 then 36 else 72)

/-- 43_header_parser.md R149, R151, 10_state.md R33: with a cartridge whose second read differs, the layout comes from
the first block's nibble and everything else from the second block. Byte `k` of the two blocks is what the
environment gives at the transactions of R154's order on a cold session. -/
def Obligations.ParseHeaderTrustsOnlyTheFinalBlock : Prop :=
  ∀ (s : State) (first second : List Byte) (h : HeaderInfo),
    s.isOpen → s.session.layoutLocked = false → s.session.cachedUpperByte = none →
    s.session.cachedLowerByte = none → s.session.cachedBank = none → s.soundPorts →
    first.length = 36 → second.length = 36 →
    (∀ k < 36, Memory.readByte s.env.answers (s.env.txn + 3 + 2 * k) = first[k]?) →
    (∀ k < 36, Memory.readByte s.env.answers (s.env.txn + 75 + 2 * k) = second[k]?) →
    (first.getD 21 0).toNat % 16 = 1 → HeaderOf second h →
    h.checksum ^^^ h.inverseChecksum = 0xFFFF →
    ∃ t, exec .parseHeader s = .next t ∧ t.session.layout = some .highROM ∧
      t.session.layoutLocked = true ∧ t.session.header = some h ∧
      t.host = { s.host with response := some { status := .ok, result := some (.header h) } }

/-- 43_header_parser.md R150, 60_exceptions.md R234, R236: a port failure in either block of `PARSE_HEADER` is fatal at that
transaction. `ref` is where the command comes to with no failure, itself perhaps in a fatal error, whose twelve
quiescing transactions are not counted among the parser's; at least the 36 reads of a block are made. -/
def Obligations.ParseHeaderPortFailureIsFatal : Prop :=
  ∀ s : State, s.isOpen → s.session.layoutLocked = false →
    ∃ ref quiescing,
      exec .parseHeader s.withoutFailures = .next ref ∧ quiescing = (if ref.isOpen then 0 else 12) ∧
      s.env.txn + 36 + quiescing ≤ ref.env.txn ∧
      ∀ n, s.firstFailure n → s.env.txn + n + quiescing < ref.env.txn →
        ∃ t, exec .parseHeader s = .next t ∧ FailsAt n [] [] s ref t

/-! ### Checksum validation and sizes -/

/-- 44_checksum_and_size.md R170: `VALIDATE`, pure, in any session status; its equivalent forms. -/
def Obligations.ValidateComparesTheXor : Prop :=
  ∀ (c i : Checksum) (s : State), ∃ valid : Bool,
    exec (.validate c i) s =
      .next { s with
        host := { s.host with response := some { status := .ok, result := some (.valid valid) } } } ∧
    (valid = true ↔ c ^^^ i = 0xFFFF#16) ∧ (valid = true ↔ i = ~~~c) ∧
    (valid = true ↔ c.toNat + i.toNat = 0xFFFF)

/-- 44_checksum_and_size.md R175: `DECODE_ROM_SIZE`, pure; below 7 the flag is false and nothing is raised. -/
def Obligations.DecodeRomSizeGivesAPowerOfTwo : Prop :=
  ∀ (c : Byte) (s : State),
    exec (.decodeRomSize c) s =
      .next { s with
        host :=
          { s.host with
            response :=
              some
                { status := .ok
                  result :=
                    some (if 7 ≤ c.toNat then .romSize true (some (2 ^ (c.toNat - 7)))
                      else .romSize false none) } } }

/-- 44_checksum_and_size.md R177: `PAGE_COUNT`, pure, exact for every natural operand; in both layouts the pages hold
`romSize` megabits. -/
def Obligations.PageCountHoldsTheMegabits : Prop :=
  ∀ (n : Nat) (l : Layout) (s : State), ∃ pages : Nat,
    exec (.pageCount n l) s =
      .next { s with
        host := { s.host with response := some { status := .ok, result := some (.pageCount pages) } } } ∧
    pages = (if l = .lowROM then n * 4 else n * 2) ∧
    pages * (if l = .lowROM then 32768 else 65536) = n * 131072

/-- 44_checksum_and_size.md R179, 60_exceptions.md R233: `ROM_PAGES` on a locked session: the page count, or the fatal
`InvalidRomSizeCode` before which no transaction is made. -/
def Obligations.RomPagesCountsOrRaises : Prop :=
  ∀ (c : Byte) (s : State) (l : Layout),
    s.isOpen → s.session.layoutLocked = true → s.session.layout = some l →
    (7 ≤ c.toNat →
      exec (.romPages c) s =
        .next { s with
          host :=
            { s.host with
              response :=
                some
                  { status := .ok
                    result := some (.pageCount (2 ^ (c.toNat - 7) * (if l = .lowROM then 4 else 2))) } } }) ∧
    (c.toNat < 7 →
      ∃ t, exec (.romPages c) s = .next t ∧ FatalEnd .invalidRomSizeCode s t [])

/-! ### DumpEngine -/

/-- 45_dump_engine.md R194: one run of the inner loop from the first address of a bank reads exactly one page and stops
at the first offset of the next bank. The bound on the turns may be any number from a page on: it is the test of the
bank that ends the loop. -/
def Obligations.InnerLoopReadsExactlyOnePage : Prop :=
  ∀ (l : Layout) (cur turns : Nat) (s : State), s.soundPorts → pageSize l ≤ turns →
    ∃ bs t, pageLoop l cur turns (cur * pageSize l) s =
        .done (bs, (cur + 1) * pageSize l) t ∧
      bs.length = (if l = .lowROM then 32768 else 65536) ∧
      t.session.pageSum.toNat = (s.session.pageSum.toNat + byteSum bs) % 2 ^ 32 ∧
      t.session.runningChecksum = s.session.runningChecksum

/-- 45_dump_engine.md R190, R198 to R201, 20_memory.md R47: an unsplit ROM dump of at least one page returns the
cartridge's bytes of consecutive offsets from the first of `startBank`, leaves the bus at the last byte and
moves no line. -/
def Obligations.DumpRomReturnsTheCartridgeImage : Prop :=
  ∀ (startBank : Byte) (pages : Nat) (s : State) (l : Layout) (image : List Byte),
    let page := if l = .lowROM then 32768 else 65536
    SessionInv s → s.isOpen → s.session.layoutLocked = true → s.session.layout = some l →
    s.soundPorts → s.steadyCart → 0 < pages → startBank.toNat + pages ≤ 256 →
    ¬ (l = .highROM ∧ 64 < pages) → image.length = pages * page →
    (∀ j < pages * page,
      s.cartAt s.session.ctrl (busOfOffset l (startBank.toNat * page + j)) = image[j]?) →
    ∃ t d m, exec (.dumpRom startBank pages) s = .next t ∧
      t.host.response = some { status := .ok, result := some (.romDump d m) } ∧
      d.bytes = image ∧
      t.session =
        { s.session with
          bank := .ofNat 8 (startBank.toNat + pages - 1), cachedBank := some (.ofNat 8 (startBank.toNat + pages - 1))
          address := .ofNat 16 (page - 1), cachedUpperByte := some 0xFF, cachedLowerByte := some 0xFF
          currentOffset := .ofNat 32 ((startBank.toNat + pages) * page - 1)
          runningChecksum := t.session.runningChecksum, pageSum := t.session.pageSum } ∧
      d.checksum.toNat = t.session.runningChecksum.toNat % 65536 ∧
      t.phase = s.phase ∧ t.host.commands = s.host.commands ∧
      ∃ es, t.env.trace = es ++ s.env.trace ∧ readCount es = pages * page

/-- 45_dump_engine.md R193, R198: a HighROM dump of more than 64 pages is split; `startBank` is not used, the second
pass's bytes follow the first's, the checksum covers both. -/
def Obligations.DumpRomSplitUsesTheConfiguredOrigins : Prop :=
  ∀ (startBank : Byte) (pages : Nat) (s : State) (h : HeaderInfo) (image : List Byte),
    SessionInv s → s.isOpen → s.session.layoutLocked = true → s.session.layout = some .highROM →
    s.session.header = some h → s.soundPorts → s.steadyCart → 64 < pages →
    s.config.hiromOriginB.toNat + (pages - 64) ≤ 256 → image.length = pages * 65536 →
    (∀ j < pages * 65536,
      s.cartAt s.session.ctrl
          (busOfOffset .highROM
            (if j < 64 * 65536 then s.config.hiromOriginA.val * 65536 + j
            else s.config.hiromOriginB.toNat * 65536 + (j - 64 * 65536))) =
        image[j]?) →
    ∃ t d m, exec (.dumpRom startBank pages) s = .next t ∧
      t.host.response = some { status := .ok, result := some (.romDump d m) } ∧
      d.bytes = image ∧ d.checksum.toNat = byteSum image % 65536 ∧ (m = true ↔ d.checksum = h.checksum) ∧
      t.session.bank = .ofNat 8 (s.config.hiromOriginB.toNat + (pages - 64) - 1) ∧
      t.session.address = 0xFFFF

/-- 45_dump_engine.md R197, R198, R200, R203, 44_checksum_and_size.md R173: which bytes the checksum of an unsplit dump
covers: every byte in HighROM; in LowROM all, or all but the last bank, by the parity of `startBank + pageCount`,
the bank entered last. With `FOLD_BANK_REF = entered` (decision D21) the last bank is left out where that is odd;
with `completed`, the other reading of R197, where it is even. -/
def Obligations.DumpRomChecksumCoversWholeLogicalPages : Prop :=
  ∀ (startBank : Byte) (pages : Nat) (s : State) (l : Layout) (h : HeaderInfo),
    s.isOpen → s.session.layoutLocked = true → s.session.layout = some l → s.session.header = some h →
    s.soundPorts → startBank.toNat + pages ≤ 256 →
    ¬ (l = .highROM ∧ 64 < pages) →
    let leftOut := if s.config.foldBankRef = .entered then 1 else 0
    ∃ t d m, exec (.dumpRom startBank pages) s = .next t ∧
      t.host.response = some { status := .ok, result := some (.romDump d m) } ∧
      d.bytes.length = pages * (if l = .lowROM then 32768 else 65536) ∧
      d.checksum.toNat =
        byteSum
          (if l = .lowROM ∧ (startBank.toNat + pages) % 2 = leftOut then d.bytes.take ((pages - 1) * 32768)
          else d.bytes) % 65536 ∧
      (m = true ↔ d.checksum = h.checksum)

/-- 45_dump_engine.md R192, R193, R212: a dump with a pass that runs past bank 255, ROM or SRAM, is refused before
anything is touched. -/
def Obligations.DumpPastTheLastBankIsRefused : Prop :=
  ∀ (s : State) (l : Layout),
    s.isOpen → s.session.layoutLocked = true → s.session.layout = some l →
    (∀ (startBank : Byte) (pages : Nat),
      ¬ (l = .highROM ∧ 64 < pages) ∧ 256 < startBank.toNat + pages ∨
        (l = .highROM ∧ 64 < pages) ∧ 256 < s.config.hiromOriginB.toNat + (pages - 64) →
      exec (.dumpRom startBank pages) s =
        .next { s with
          host :=
            { s.host with
              response := some { status := .refused .argumentOutOfRange, result := none } } }) ∧
    (∀ sramSizeCode romSizeCode : Byte,
      let n := sramSizeCode.toNat / 8 * 1024
      let b0 := if l = .lowROM then s.config.sramLowBank.toNat else s.config.sramHighBank.toNat
      let cap := 0x8000 -
        (if l = .lowROM then s.config.sramLowAddr.toNat else s.config.sramHighAddr.toNat)
      256 < b0 + (n + cap - 1) / cap →
      exec (.dumpSram sramSizeCode romSizeCode) s =
        .next { s with
          host :=
            { s.host with
              response := some { status := .refused .argumentOutOfRange, result := none } } })

/-- 45_dump_engine.md R192, R198: a dump of no pages makes no transaction, clears the accumulators and returns no bytes.
The duration is a free value. -/
def Obligations.DumpRomOfNoPagesIsEmpty : Prop :=
  ∀ (startBank : Byte) (s : State) (l : Layout) (h : HeaderInfo),
    s.isOpen → s.session.layoutLocked = true → s.session.layout = some l → s.session.header = some h →
    ∃ duration,
      exec (.dumpRom startBank 0) s =
        .next { s with
          session := { s.session with runningChecksum := 0, pageSum := 0 }
          host :=
            { s.host with
              dumps := s.host.dumps + 1
              response :=
                some
                  { status := .ok
                    result :=
                      some (.romDump { bytes := [], checksum := 0, duration := duration }
                        (decide (h.checksum = 0))) } } }

/-- 45_dump_engine.md R202, 60_exceptions.md R236: a port failure at whichever transaction of a ROM dump, split or not, aborts
it there, and no bytes are returned. `ref` is where the dump comes to with no failure; it makes at least one
transaction for each byte. -/
def Obligations.DumpRomPortFailureDiscardsTheDump : Prop :=
  ∀ (startBank : Byte) (pages : Nat) (s : State) (l : Layout),
    s.isOpen → s.session.layoutLocked = true → s.session.layout = some l →
    (if l = .highROM ∧ 64 < pages then s.config.hiromOriginB.toNat + (pages - 64) else startBank.toNat + pages) ≤ 256 →
    ∃ ref d m,
      exec (.dumpRom startBank pages) s.withoutFailures = .next ref ∧
      ref.host.response = some { status := .ok, result := some (.romDump d m) } ∧
      s.env.txn + pages * (if l = .lowROM then 32768 else 65536) ≤ ref.env.txn ∧
      ∀ n, s.firstFailure n → s.env.txn + n < ref.env.txn →
        ∃ t, exec (.dumpRom startBank pages) s = .next t ∧ FailsAt n [] [] s ref t

/-- 45_dump_engine.md R210, R211, R213, R214, R216, R217, 44_checksum_and_size.md R180: an SRAM dump returns the bytes
the cartridge lists under the SRAM word from the origin on, wrapping to the origin address of the next bank above
0x7FFF; the checksum is their sum; the lines are back at read-idle; `currentOffset` is not written. -/
def Obligations.DumpSramReturnsTheWindow : Prop :=
  ∀ (sramSizeCode romSizeCode : Byte) (s : State) (l : Layout) (image : List Byte),
    let n := sramSizeCode.toNat / 8 * 1024
    let b0 := if l = .lowROM then s.config.sramLowBank.toNat else s.config.sramHighBank.toNat
    let a0 := if l = .lowROM then s.config.sramLowAddr.toNat else s.config.sramHighAddr.toNat
    let cw := if l = .lowROM then s.config.cwSramLow else s.config.cwSramHigh
    let cap := 0x8000 - a0
    SessionInv s → s.isOpen → s.session.layoutLocked = true → s.session.layout = some l →
    s.soundPorts → s.steadyCart → b0 + (n + cap - 1) / cap ≤ 256 → image.length = n →
    (∀ j < n,
      s.cartAt (some (cw.extractLsb' 0 5)) (busOfBankAddress l (b0 + j / cap) (a0 + j % cap)) =
        image[j]?) →
    ∃ t d, exec (.dumpSram sramSizeCode romSizeCode) s = .next t ∧
      t.host.response = some { status := .ok, result := some (.sramDump d) } ∧
      d.bytes = image ∧ d.checksum.toNat = byteSum image % 65536 ∧
      t.session.runningChecksum.toNat = byteSum image ∧ t.session.pageSum = 0 ∧
      t.session.ctrl = some (s.config.cwReadIdle.extractLsb' 0 5) ∧ t.phase = .readIdle ∧
      t.session.currentOffset = s.session.currentOffset ∧ t.session.header = s.session.header ∧
      t.session.layout = s.session.layout ∧ t.session.layoutLocked = true ∧ t.isOpen ∧
      t.session.lastError = s.session.lastError ∧ t.host.commands = s.host.commands ∧
      (0 < n →
        t.session.bank = .ofNat 8 (b0 + (n - 1) / cap) ∧
        t.session.address = .ofNat 16 (a0 + (n - 1) % cap)) ∧
      ∃ es, t.env.trace =
          Event.lines .readIdle (s.config.cwReadIdle.extractLsb' 0 5) ::
            (es ++ Event.lines .sramEnabled (cw.extractLsb' 0 5) :: s.env.trace) ∧
        readCount es = n ∧ ∀ p w, Event.lines p w ∉ es

/-- 45_dump_engine.md R215: `romSizeCode` has no effect on an SRAM dump, and no value of it raises
`InvalidRomSizeCode`. -/
def Obligations.DumpSramIgnoresTheRomSizeCode : Prop :=
  ∀ (sramSizeCode code code' : Byte) (s : State),
    exec (.dumpSram sramSizeCode code) s = exec (.dumpSram sramSizeCode code') s ∧
    ∀ t, exec (.dumpSram sramSizeCode code) s = .next t →
      t.host.response ≠ some { status := .fatal .invalidRomSizeCode, result := none }

/-- 45_dump_engine.md R214, R218: a port failure at whichever transaction of an SRAM dump: read-idle first, then the quiesce
sequence, no bytes returned. `ref` is where the dump comes to with no failure; it makes at least one transaction for
each byte. -/
def Obligations.DumpSramFailureRestoresReadIdleFirst : Prop :=
  ∀ (sramSizeCode romSizeCode : Byte) (s : State) (l : Layout),
    let n := sramSizeCode.toNat / 8 * 1024
    let b0 := if l = .lowROM then s.config.sramLowBank.toNat else s.config.sramHighBank.toNat
    let a0 := if l = .lowROM then s.config.sramLowAddr.toNat else s.config.sramHighAddr.toNat
    let cw := if l = .lowROM then s.config.cwSramLow else s.config.cwSramHigh
    let cap := 0x8000 - a0
    s.isOpen → s.session.layoutLocked = true → s.session.layout = some l →
    b0 + (n + cap - 1) / cap ≤ 256 →
    ∃ ref d,
      exec (.dumpSram sramSizeCode romSizeCode) s.withoutFailures = .next ref ∧
      ref.host.response = some { status := .ok, result := some (.sramDump d) } ∧
      s.env.txn + n ≤ ref.env.txn ∧
      ∀ k, s.firstFailure k → s.env.txn + k < ref.env.txn →
        ∃ t, exec (.dumpSram sramSizeCode romSizeCode) s = .next t ∧
          FailsAt k [Event.lines .sramEnabled (cw.extractLsb' 0 5)]
            [Event.lines .readIdle (s.config.cwReadIdle.extractLsb' 0 5)] s ref t
end

