-- ==== Sys2Proof/Laws/Memory.lean ====
section
/-! SUPPORT. The laws of memory: every memory operation keeps the canonical form; a read after a write. -/

namespace Sys2Proof.Machine

theorem memory_wf_iff (m : Memory) : Memory.wf m = true ↔ (m.map Prod.fst).Pairwise (· < ·) := by
  simp [Memory.wf]

theorem memory_wf_cons (c : Host.Cell) (m : Memory) :
    Memory.wf (c :: m) = true ↔ (∀ d ∈ m, c.1 < d.1) ∧ Memory.wf m = true := by
  simp [memory_wf_iff, List.pairwise_cons]

theorem memory_wf_nil : Memory.wf [] = true := rfl

/-- An address no cell has is not listed. -/
theorem readByte_eq_none {m : Memory} {a : Nat} (h : ∀ c ∈ m, c.1 ≠ a) : Memory.readByte m a = none := by
  induction m with
  | nil => rfl
  | cons c m ih =>
    simp only [List.mem_cons, forall_eq_or_imp] at h
    simp [Memory.readByte, h.1, ih h.2]

theorem readByte_mem {m : Memory} {a : Nat} {b : Byte} (h : Memory.readByte m a = some b) :
    (a, b) ∈ m := by
  induction m with
  | nil => simp [Memory.readByte] at h
  | cons c m ih =>
    rcases c with ⟨k, v⟩
    simp only [Memory.readByte] at h
    split at h
    · simp_all
    · exact List.mem_cons_of_mem _ (ih h)

/-- In a canonical memory a listed cell is what its address reads as. -/
theorem readByte_of_mem {m : Memory} {a : Nat} {b : Byte} (hw : Memory.wf m = true) (h : (a, b) ∈ m) :
    Memory.readByte m a = some b := by
  induction m with
  | nil => simp at h
  | cons c m ih =>
    rcases c with ⟨k, v⟩
    rw [memory_wf_cons] at hw
    rcases List.mem_cons.mp h with h | h
    · cases h; simp [Memory.readByte]
    · have := hw.1 _ h
      simp only at this
      simp [Memory.readByte, Nat.ne_of_lt this, ih hw.2 h]

theorem readByte_writeByte_same (m : Memory) (a : Nat) (b : Byte) :
    Memory.readByte (Memory.writeByte m a b) a = some b := by
  induction m with
  | nil => simp [Memory.writeByte, Memory.readByte]
  | cons c m ih =>
    rcases c with ⟨k, v⟩
    simp only [Memory.writeByte]
    split
    · simp [Memory.readByte]
    · split
      · simp [Memory.readByte]
      · rename_i h; simp [Memory.readByte, Ne.symm h, ih]

theorem readByte_writeByte_other (m : Memory) {a a' : Nat} (b : Byte) (h : a' ≠ a) :
    Memory.readByte (Memory.writeByte m a b) a' = Memory.readByte m a' := by
  induction m with
  | nil => simp [Memory.writeByte, Memory.readByte, h.symm]
  | cons c m ih =>
    rcases c with ⟨k, v⟩
    simp only [Memory.writeByte]
    split
    · simp [Memory.readByte, h.symm]
    · split
      · rename_i h2; subst h2; simp [Memory.readByte, h.symm]
      · simp [Memory.readByte, ih]

theorem mem_writeByte {m : Memory} {a : Nat} {b : Byte} {c : Host.Cell}
    (h : c ∈ Memory.writeByte m a b) : c = (a, b) ∨ c ∈ m := by
  induction m with
  | nil => simpa [Memory.writeByte] using h
  | cons d m ih =>
    rcases d with ⟨k, v⟩
    simp only [Memory.writeByte] at h
    split at h
    · rcases List.mem_cons.mp h with h | h
      · exact .inl h
      · exact .inr h
    · split at h
      · rcases List.mem_cons.mp h with h | h
        · exact .inl h
        · exact .inr (List.mem_cons_of_mem _ h)
      · rcases List.mem_cons.mp h with h | h
        · exact .inr (h ▸ List.mem_cons_self)
        · exact (ih h).imp_right (List.mem_cons_of_mem _)

/-- A write keeps the canonical form. -/
theorem wf_writeByte {m : Memory} (a : Nat) (b : Byte) (h : Memory.wf m = true) :
    Memory.wf (Memory.writeByte m a b) = true := by
  induction m with
  | nil => simp [Memory.writeByte, Memory.wf]
  | cons c m ih =>
    rcases c with ⟨k, v⟩
    have hc := (memory_wf_cons _ _).mp h
    simp only [Memory.writeByte]
    split
    · rename_i hlt
      refine (memory_wf_cons _ _).mpr ⟨?_, h⟩
      intro d hd
      rcases List.mem_cons.mp hd with hd | hd
      · subst hd; exact hlt
      · exact Nat.lt_trans hlt (hc.1 d hd)
    · split
      · rename_i heq; subst heq
        exact (memory_wf_cons _ _).mpr ⟨hc.1, hc.2⟩
      · rename_i h1 h2
        refine (memory_wf_cons _ _).mpr ⟨?_, ih hc.2⟩
        intro d hd
        rcases mem_writeByte hd with hd | hd
        · subst hd; show k < a; omega
        · exact hc.1 d hd

/-- The cells listed at power-on are canonical. -/
theorem reset_memory_wf : Memory.wf State.reset.env.cart = true ∧ Memory.wf State.reset.env.answers = true :=
  ⟨rfl, rfl⟩

end Sys2Proof.Machine
end

