-- ==== Sys2Proof/Laws/State.lean ====
section
/-! SUPPORT. One lemma per field of `State` per named update, true by `rfl`, so that no proof unfolds an update. -/

namespace Sys2Proof.Machine

variable (s : State)

@[simp] theorem record_config (e : Event) : (s.record e).config = s.config := rfl
@[simp] theorem record_session (e : Event) : (s.record e).session = s.session := rfl
@[simp] theorem record_phase (e : Event) : (s.record e).phase = s.phase := rfl
@[simp] theorem record_ports (e : Event) : (s.record e).ports = s.ports := rfl
@[simp] theorem record_env (e : Event) :
    (s.record e).env =
      { s.env with txn := s.env.txn + 1, trace := e :: s.env.trace } := rfl
@[simp] theorem record_host (e : Event) : (s.record e).host = s.host := rfl

@[simp] theorem respond_config (c : Status) (r : Option Result) : (s.respond c r).config = s.config := rfl
@[simp] theorem respond_session (c : Status) (r : Option Result) : (s.respond c r).session = s.session := rfl
@[simp] theorem respond_phase (c : Status) (r : Option Result) : (s.respond c r).phase = s.phase := rfl
@[simp] theorem respond_ports (c : Status) (r : Option Result) : (s.respond c r).ports = s.ports := rfl
@[simp] theorem respond_env (c : Status) (r : Option Result) : (s.respond c r).env = s.env := rfl
@[simp] theorem respond_host (c : Status) (r : Option Result) :
    (s.respond c r).host =
      { s.host with response := some { status := c, result := r } } := rfl

@[simp] theorem setLastError_config (c : Byte) : (s.setLastError c).config = s.config := rfl
@[simp] theorem setLastError_session (c : Byte) :
    (s.setLastError c).session =
      { s.session with lastError := c } := rfl
@[simp] theorem setLastError_phase (c : Byte) : (s.setLastError c).phase = s.phase := rfl
@[simp] theorem setLastError_ports (c : Byte) : (s.setLastError c).ports = s.ports := rfl
@[simp] theorem setLastError_env (c : Byte) : (s.setLastError c).env = s.env := rfl
@[simp] theorem setLastError_host (c : Byte) : (s.setLastError c).host = s.host := rfl

@[simp] theorem setBank_config (b : Byte) : (s.setBank b).config = s.config := rfl
@[simp] theorem setBank_session (b : Byte) :
    (s.setBank b).session =
      { s.session with cachedBank := some b, bank := b } := rfl
@[simp] theorem setBank_phase (b : Byte) : (s.setBank b).phase = s.phase := rfl
@[simp] theorem setBank_ports (b : Byte) : (s.setBank b).ports = s.ports := rfl
@[simp] theorem setBank_env (b : Byte) : (s.setBank b).env = s.env := rfl
@[simp] theorem setBank_host (b : Byte) : (s.setBank b).host = s.host := rfl

@[simp] theorem setCachedUpper_config (v : Byte) : (s.setCachedUpper v).config = s.config := rfl
@[simp] theorem setCachedUpper_session (v : Byte) :
    (s.setCachedUpper v).session =
      { s.session with cachedUpperByte := some v } := rfl
@[simp] theorem setCachedUpper_phase (v : Byte) : (s.setCachedUpper v).phase = s.phase := rfl
@[simp] theorem setCachedUpper_ports (v : Byte) : (s.setCachedUpper v).ports = s.ports := rfl
@[simp] theorem setCachedUpper_env (v : Byte) : (s.setCachedUpper v).env = s.env := rfl
@[simp] theorem setCachedUpper_host (v : Byte) : (s.setCachedUpper v).host = s.host := rfl

@[simp] theorem setAddress_config (v : Byte) (a : Address) : (s.setAddress v a).config = s.config := rfl
@[simp] theorem setAddress_session (v : Byte) (a : Address) :
    (s.setAddress v a).session =
      { s.session with cachedLowerByte := some v, address := a } := rfl
@[simp] theorem setAddress_phase (v : Byte) (a : Address) : (s.setAddress v a).phase = s.phase := rfl
@[simp] theorem setAddress_ports (v : Byte) (a : Address) : (s.setAddress v a).ports = s.ports := rfl
@[simp] theorem setAddress_env (v : Byte) (a : Address) : (s.setAddress v a).env = s.env := rfl
@[simp] theorem setAddress_host (v : Byte) (a : Address) : (s.setAddress v a).host = s.host := rfl

@[simp] theorem setOffset_config (o : Offset) : (s.setOffset o).config = s.config := rfl
@[simp] theorem setOffset_session (o : Offset) :
    (s.setOffset o).session =
      { s.session with currentOffset := o } := rfl
@[simp] theorem setOffset_phase (o : Offset) : (s.setOffset o).phase = s.phase := rfl
@[simp] theorem setOffset_ports (o : Offset) : (s.setOffset o).ports = s.ports := rfl
@[simp] theorem setOffset_env (o : Offset) : (s.setOffset o).env = s.env := rfl
@[simp] theorem setOffset_host (o : Offset) : (s.setOffset o).host = s.host := rfl

@[simp] theorem setLayout_config (l : Layout) : (s.setLayout l).config = s.config := rfl
@[simp] theorem setLayout_session (l : Layout) :
    (s.setLayout l).session =
      { s.session with layout := some l } := rfl
@[simp] theorem setLayout_phase (l : Layout) : (s.setLayout l).phase = s.phase := rfl
@[simp] theorem setLayout_ports (l : Layout) : (s.setLayout l).ports = s.ports := rfl
@[simp] theorem setLayout_env (l : Layout) : (s.setLayout l).env = s.env := rfl
@[simp] theorem setLayout_host (l : Layout) : (s.setLayout l).host = s.host := rfl

@[simp] theorem lockHeader_config (h : HeaderInfo) : (s.lockHeader h).config = s.config := rfl
@[simp] theorem lockHeader_session (h : HeaderInfo) :
    (s.lockHeader h).session =
      { s.session with header := some h, layoutLocked := true } := rfl
@[simp] theorem lockHeader_phase (h : HeaderInfo) : (s.lockHeader h).phase = s.phase := rfl
@[simp] theorem lockHeader_ports (h : HeaderInfo) : (s.lockHeader h).ports = s.ports := rfl
@[simp] theorem lockHeader_env (h : HeaderInfo) : (s.lockHeader h).env = s.env := rfl
@[simp] theorem lockHeader_host (h : HeaderInfo) : (s.lockHeader h).host = s.host := rfl

@[simp] theorem clearSums_config : s.clearSums.config = s.config := rfl
@[simp] theorem clearSums_session :
    s.clearSums.session =
      { s.session with runningChecksum := 0, pageSum := 0 } := rfl
@[simp] theorem clearSums_phase : s.clearSums.phase = s.phase := rfl
@[simp] theorem clearSums_ports : s.clearSums.ports = s.ports := rfl
@[simp] theorem clearSums_env : s.clearSums.env = s.env := rfl
@[simp] theorem clearSums_host : s.clearSums.host = s.host := rfl

@[simp] theorem addToPage_config (v : Byte) : (s.addToPage v).config = s.config := rfl
@[simp] theorem addToPage_session (v : Byte) :
    (s.addToPage v).session =
      { s.session with pageSum := addByte s.session.pageSum v } := rfl
@[simp] theorem addToPage_phase (v : Byte) : (s.addToPage v).phase = s.phase := rfl
@[simp] theorem addToPage_ports (v : Byte) : (s.addToPage v).ports = s.ports := rfl
@[simp] theorem addToPage_env (v : Byte) : (s.addToPage v).env = s.env := rfl
@[simp] theorem addToPage_host (v : Byte) : (s.addToPage v).host = s.host := rfl

@[simp] theorem addToRunning_config (v : Byte) : (s.addToRunning v).config = s.config := rfl
@[simp] theorem addToRunning_session (v : Byte) :
    (s.addToRunning v).session =
      { s.session with runningChecksum := addByte s.session.runningChecksum v } := rfl
@[simp] theorem addToRunning_phase (v : Byte) : (s.addToRunning v).phase = s.phase := rfl
@[simp] theorem addToRunning_ports (v : Byte) : (s.addToRunning v).ports = s.ports := rfl
@[simp] theorem addToRunning_env (v : Byte) : (s.addToRunning v).env = s.env := rfl
@[simp] theorem addToRunning_host (v : Byte) : (s.addToRunning v).host = s.host := rfl

@[simp] theorem fold_config : s.fold.config = s.config := rfl
@[simp] theorem fold_session :
    s.fold.session =
      { s.session with
        runningChecksum := s.session.runningChecksum + s.session.pageSum, pageSum := 0 } := rfl
@[simp] theorem fold_phase : s.fold.phase = s.phase := rfl
@[simp] theorem fold_ports : s.fold.ports = s.ports := rfl
@[simp] theorem fold_env : s.fold.env = s.env := rfl
@[simp] theorem fold_host : s.fold.host = s.host := rfl

@[simp] theorem countDump_config : s.countDump.config = s.config := rfl
@[simp] theorem countDump_session : s.countDump.session = s.session := rfl
@[simp] theorem countDump_phase : s.countDump.phase = s.phase := rfl
@[simp] theorem countDump_ports : s.countDump.ports = s.ports := rfl
@[simp] theorem countDump_env : s.countDump.env = s.env := rfl
@[simp] theorem countDump_host : s.countDump.host = { s.host with dumps := s.host.dumps + 1 } := rfl

@[simp] theorem lines_config (p : LinePhase) (w : Byte) : (lines p w s).config = s.config := rfl
@[simp] theorem lines_session (p : LinePhase) (w : Byte) :
    (lines p w s).session =
      { s.session with ctrl := some (lineLevels w) } := rfl
@[simp] theorem lines_phase (p : LinePhase) (w : Byte) : (lines p w s).phase = p := rfl
@[simp] theorem lines_ports (p : LinePhase) (w : Byte) : (lines p w s).ports = s.ports := rfl
@[simp] theorem lines_env (p : LinePhase) (w : Byte) :
    (lines p w s).env =
      { s.env with trace := .lines p (lineLevels w) :: s.env.trace } := rfl
@[simp] theorem lines_host (p : LinePhase) (w : Byte) : (lines p w s).host = s.host := rfl

@[simp] theorem complete_config (r : Option Result) : (complete r s).config = s.config := rfl
@[simp] theorem complete_session (r : Option Result) : (complete r s).session = s.session := rfl
@[simp] theorem complete_phase (r : Option Result) : (complete r s).phase = s.phase := rfl
@[simp] theorem complete_ports (r : Option Result) : (complete r s).ports = s.ports := rfl
@[simp] theorem complete_env (r : Option Result) : (complete r s).env = s.env := rfl
@[simp] theorem complete_host (r : Option Result) :
    (complete r s).host =
      { s.host with response := some { status := .ok, result := r } } := rfl

@[simp] theorem refuse_config (r : RefuseReason) : (refuse r s).config = s.config := rfl
@[simp] theorem refuse_session (r : RefuseReason) : (refuse r s).session = s.session := rfl
@[simp] theorem refuse_phase (r : RefuseReason) : (refuse r s).phase = s.phase := rfl
@[simp] theorem refuse_ports (r : RefuseReason) : (refuse r s).ports = s.ports := rfl
@[simp] theorem refuse_env (r : RefuseReason) : (refuse r s).env = s.env := rfl
@[simp] theorem refuse_host (r : RefuseReason) :
    (refuse r s).host =
      { s.host with response := some { status := .refused r, result := none } } := rfl

@[simp] theorem closeSession_config : (closeSession s).config = s.config := rfl
@[simp] theorem closeSession_session :
    (closeSession s).session =
      { s.session with
        address := 0, bank := 0, cachedUpperByte := none, cachedLowerByte := none, cachedBank := none
        layout := none, layoutLocked := false, header := none, status := .closed } := rfl
@[simp] theorem closeSession_phase : (closeSession s).phase = s.phase := rfl
@[simp] theorem closeSession_ports : (closeSession s).ports = s.ports := rfl
@[simp] theorem closeSession_env : (closeSession s).env = s.env := rfl
@[simp] theorem closeSession_host : (closeSession s).host = s.host := rfl

@[simp] theorem openSession_config : (openSession s).config = s.config := rfl
@[simp] theorem openSession_session :
    (openSession s).session =
      { s.session with
        address := 0, bank := 0, currentOffset := 0, cachedUpperByte := none, cachedLowerByte := none
        cachedBank := none, layout := none, layoutLocked := false, header := none
        runningChecksum := 0, pageSum := 0, status := .opened } := rfl
@[simp] theorem openSession_phase : (openSession s).phase = s.phase := rfl
@[simp] theorem openSession_ports : (openSession s).ports = s.ports := rfl
@[simp] theorem openSession_env : (openSession s).env = s.env := rfl
@[simp] theorem openSession_host : (openSession s).host = s.host := rfl

@[simp] theorem recoverAddress_config : (recoverAddress s).config = s.config := rfl
@[simp] theorem recoverAddress_session :
    (recoverAddress s).session =
      { s.session with address := 0, cachedUpperByte := none, cachedLowerByte := none } := rfl
@[simp] theorem recoverAddress_phase : (recoverAddress s).phase = s.phase := rfl
@[simp] theorem recoverAddress_ports : (recoverAddress s).ports = s.ports := rfl
@[simp] theorem recoverAddress_env : (recoverAddress s).env = s.env := rfl
@[simp] theorem recoverAddress_host : (recoverAddress s).host = s.host := rfl

@[simp] theorem restoreReadIdle_config : (restoreReadIdle s).config = s.config := rfl
@[simp] theorem restoreReadIdle_session :
    (restoreReadIdle s).session =
      { s.session with ctrl := some (lineLevels s.config.cwReadIdle) } := rfl
@[simp] theorem restoreReadIdle_phase : (restoreReadIdle s).phase = .readIdle := rfl
@[simp] theorem restoreReadIdle_ports : (restoreReadIdle s).ports = s.ports := rfl
@[simp] theorem restoreReadIdle_env :
    (restoreReadIdle s).env =
      { s.env with
        trace := .lines .readIdle (lineLevels s.config.cwReadIdle) :: s.env.trace } := rfl
@[simp] theorem restoreReadIdle_host : (restoreReadIdle s).host = s.host := rfl

@[simp] theorem withFetchWord_config (n w : Nat) : (s.withFetchWord n w).config = s.config := rfl
@[simp] theorem withFetchWord_session (n w : Nat) : (s.withFetchWord n w).session = s.session := rfl
@[simp] theorem withFetchWord_phase (n w : Nat) : (s.withFetchWord n w).phase = s.phase := rfl
@[simp] theorem withFetchWord_ports (n w : Nat) : (s.withFetchWord n w).ports = s.ports := rfl
@[simp] theorem withFetchWord_env (n w : Nat) : (s.withFetchWord n w).env = s.env := rfl
@[simp] theorem withFetchWord_host (n w : Nat) :
    (s.withFetchWord n w).host =
      { s.host with commands := .ofNat 40 (w % 2 ^ n) :: s.host.commands } := rfl

/-! `setPort` changes one port and nothing else. -/

@[simp] theorem setPort_config (p : PortId) (f : Port → Port) : (s.setPort p f).config = s.config := by
  cases p <;> rfl
@[simp] theorem setPort_session (p : PortId) (f : Port → Port) : (s.setPort p f).session = s.session := by
  cases p <;> rfl
@[simp] theorem setPort_phase (p : PortId) (f : Port → Port) : (s.setPort p f).phase = s.phase := by
  cases p <;> rfl
@[simp] theorem setPort_env (p : PortId) (f : Port → Port) : (s.setPort p f).env = s.env := by
  cases p <;> rfl
@[simp] theorem setPort_host (p : PortId) (f : Port → Port) : (s.setPort p f).host = s.host := by
  cases p <;> rfl
@[simp] theorem setPort_aHi_ports_aHi (f : Port → Port) :
    (s.setPort .aHi f).ports.aHi = f s.ports.aHi := rfl
@[simp] theorem setPort_aHi_ports_aLo (f : Port → Port) :
    (s.setPort .aHi f).ports.aLo = s.ports.aLo := rfl
@[simp] theorem setPort_aHi_ports_bank (f : Port → Port) :
    (s.setPort .aHi f).ports.bank = s.ports.bank := rfl
@[simp] theorem setPort_aHi_ports_data (f : Port → Port) :
    (s.setPort .aHi f).ports.data = s.ports.data := rfl
@[simp] theorem setPort_aHi_ports_pull (f : Port → Port) :
    (s.setPort .aHi f).ports.pull = s.ports.pull := rfl
@[simp] theorem setPort_aLo_ports_aHi (f : Port → Port) :
    (s.setPort .aLo f).ports.aHi = s.ports.aHi := rfl
@[simp] theorem setPort_aLo_ports_aLo (f : Port → Port) :
    (s.setPort .aLo f).ports.aLo = f s.ports.aLo := rfl
@[simp] theorem setPort_aLo_ports_bank (f : Port → Port) :
    (s.setPort .aLo f).ports.bank = s.ports.bank := rfl
@[simp] theorem setPort_aLo_ports_data (f : Port → Port) :
    (s.setPort .aLo f).ports.data = s.ports.data := rfl
@[simp] theorem setPort_aLo_ports_pull (f : Port → Port) :
    (s.setPort .aLo f).ports.pull = s.ports.pull := rfl
@[simp] theorem setPort_bank_ports_aHi (f : Port → Port) :
    (s.setPort .bank f).ports.aHi = s.ports.aHi := rfl
@[simp] theorem setPort_bank_ports_aLo (f : Port → Port) :
    (s.setPort .bank f).ports.aLo = s.ports.aLo := rfl
@[simp] theorem setPort_bank_ports_bank (f : Port → Port) :
    (s.setPort .bank f).ports.bank = f s.ports.bank := rfl
@[simp] theorem setPort_bank_ports_data (f : Port → Port) :
    (s.setPort .bank f).ports.data = s.ports.data := rfl
@[simp] theorem setPort_bank_ports_pull (f : Port → Port) :
    (s.setPort .bank f).ports.pull = s.ports.pull := rfl
@[simp] theorem setPort_data_ports_aHi (f : Port → Port) :
    (s.setPort .data f).ports.aHi = s.ports.aHi := rfl
@[simp] theorem setPort_data_ports_aLo (f : Port → Port) :
    (s.setPort .data f).ports.aLo = s.ports.aLo := rfl
@[simp] theorem setPort_data_ports_bank (f : Port → Port) :
    (s.setPort .data f).ports.bank = s.ports.bank := rfl
@[simp] theorem setPort_data_ports_data (f : Port → Port) :
    (s.setPort .data f).ports.data = f s.ports.data := rfl
@[simp] theorem setPort_data_ports_pull (f : Port → Port) :
    (s.setPort .data f).ports.pull = s.ports.pull := rfl

end Sys2Proof.Machine
end

