-- ==== Sys2Proof/Laws/Ops.lean ====
section
/-! SUPPORT. For each shared operation, once, everything it can do. -/

namespace Sys2Proof.Machine

/-! ### Whether a transaction fails -/

theorem nowFails_eq_true {s : State} : nowFails s = true ↔ s.env.txn ∈ s.env.failing := by
  simp [nowFails]

theorem nowFails_of_soundFor {s : State} {n : Nat} (h : s.soundFor (n + 1)) : nowFails s = false := by
  cases hf : nowFails s with
  | false => rfl
  | true =>
    have := h _ (nowFails_eq_true.mp hf)
    omega

theorem nowFails_of_soundPorts {s : State} (h : s.soundPorts) : nowFails s = false := by
  cases hf : nowFails s with
  | false => rfl
  | true => exact absurd (h _ (nowFails_eq_true.mp hf)) (Nat.lt_irrefl _)

theorem soundFor_of_soundPorts {s : State} (n : Nat) (h : s.soundPorts) : s.soundFor n :=
  fun k hk => .inl (h k hk)

/-- Soundness of the environment carries over to any state with the same failures and a later count. -/
theorem soundPorts_mono {s t : State} (h : s.soundPorts) (hf : t.env.failing = s.env.failing)
    (ht : s.env.txn ≤ t.env.txn) : t.soundPorts :=
  fun k hk => Nat.lt_of_lt_of_le (h k (hf ▸ hk)) ht

theorem soundFor_step {s t : State} {n : Nat} (h : s.soundFor (n + 1))
    (hf : t.env.failing = s.env.failing) (ht : t.env.txn = s.env.txn + 1) : t.soundFor n := by
  intro k hk
  have := h k (hf ▸ hk)
  omega

/-! ### Sequencing -/

@[simp] theorem txn_bind_done {α β : Type} (a : α) (s : State) (k : α → State → Txn β) :
    (Txn.done a s).bind k = k a s := rfl

@[simp] theorem txn_bind_failed {α β : Type} (s : State) (k : α → State → Txn β) :
    (Txn.failed s : Txn α).bind k = .failed s := rfl

@[simp] theorem orRaise_done {α : Type} (a : α) (s : State) (k : α → State → State) :
    orRaise (.done a s) k = k a s := rfl

@[simp] theorem orRaise_failed {α : Type} (s : State) (k : α → State → State) :
    orRaise (.failed s : Txn α) k = raise .portTransactionFailure s := rfl

/-- The state a sequence of transactions ends in, done or failed. -/
def Txn.final {α : Type} : Txn α → State
  | .done _ s => s
  | .failed s => s

@[simp] theorem final_done {α : Type} (a : α) (s : State) : (Txn.done a s).final = s := rfl
@[simp] theorem final_failed {α : Type} (s : State) : (Txn.failed s : Txn α).final = s := rfl

/-- A done sequence went through a done first part. -/
theorem bind_eq_done {α β : Type} {r : Txn α} {k : α → State → Txn β} {b : β} {t : State}
    (h : r.bind k = .done b t) : ∃ a s, r = .done a s ∧ k a s = .done b t := by
  cases r with
  | done a s => exact ⟨a, s, rfl, h⟩
  | failed s => cases h

/-! ### Port transactions -/

theorem portWrite_sound {s : State} (p : PortId) (v : Byte) (h : nowFails s = false) :
    portWrite p v s = .done () ((s.setPort p fun q => { q with out := v }).record (.write p v true)) := by
  simp [portWrite, h]

theorem portWrite_fails {s : State} (p : PortId) (v : Byte) (h : nowFails s = true) :
    portWrite p v s =
      .failed ((s.setPort p fun q => { q with out := Config.failedByte s.env.txn }).record
        (.write p v false)) := by
  simp [portWrite, h]

theorem portRead_sound {s : State} (h : nowFails s = false) :
    portRead s =
      .done (dataByte s) (s.record (.read s.session.ctrl (busAddress s.ports) (some (dataByte s)))) := by
  simp [portRead, h]

theorem portRead_fails {s : State} (h : nowFails s = true) :
    portRead s = .failed (s.record (.read s.session.ctrl (busAddress s.ports) none)) := by
  simp [portRead, h]

theorem portDir_sound {s : State} (p : PortId) (d : Direction) (h : nowFails s = false) :
    portDir p d s =
      .done () ((s.setPort p fun q => { q with dir := allBits d }).record
        (.direction p d (directionMask s.config.dirEncoding d) true)) := by
  simp [portDir, h]

theorem portDir_fails {s : State} (p : PortId) (d : Direction) (h : nowFails s = true) :
    portDir p d s =
      .failed ((s.setPort p fun q => { q with dir := Config.failedDirections s.env.txn }).record
        (.direction p d (directionMask s.config.dirEncoding d) false)) := by
  simp [portDir, h]

theorem portPull_sound {s : State} (m : Byte) (h : nowFails s = false) :
    portPull m s = .done () (State.record { s with ports := { s.ports with pull := m } } (.pullups m true)) := by
  simp [portPull, h]

theorem portPull_fails {s : State} (m : Byte) (h : nowFails s = true) :
    portPull m s =
      .failed (State.record { s with ports := { s.ports with pull := Config.failedByte s.env.txn } }
        (.pullups m false)) := by
  simp [portPull, h]

theorem portIntClear_sound {s : State} (p : PortId) (h : nowFails s = false) :
    portIntClear p s =
      .done () ((s.setPort p fun q => { q with inten := 0 }).record (.intEnable p 0 true)) := by
  simp [portIntClear, h]

theorem portIntClear_fails {s : State} (p : PortId) (h : nowFails s = true) :
    portIntClear p s =
      .failed ((s.setPort p fun q => { q with inten := Config.failedByte s.env.txn }).record
        (.intEnable p 0 false)) := by
  simp [portIntClear, h]

/-- One port transaction, done or failed: it counts one, records one event, and leaves everything but the ports. -/
structure OneTransaction (s t : State) : Prop where
  config : t.config = s.config
  session : t.session = s.session
  phase : t.phase = s.phase
  host : t.host = s.host
  cart : t.env.cart = s.env.cart
  answers : t.env.answers = s.env.answers
  failing : t.env.failing = s.env.failing
  txn : t.env.txn = s.env.txn + 1
  trace : ∃ e, t.env.trace = e :: s.env.trace

theorem portWrite_once (p : PortId) (v : Byte) (s : State) : OneTransaction s (portWrite p v s).final := by
  cases h : nowFails s with
  | false => rw [portWrite_sound p v h]; constructor <;> simp
  | true => rw [portWrite_fails p v h]; constructor <;> simp

theorem portRead_once (s : State) : OneTransaction s (portRead s).final := by
  cases h : nowFails s with
  | false => rw [portRead_sound h]; constructor <;> simp
  | true => rw [portRead_fails h]; constructor <;> simp

theorem portDir_once (p : PortId) (d : Direction) (s : State) : OneTransaction s (portDir p d s).final := by
  cases h : nowFails s with
  | false => rw [portDir_sound p d h]; constructor <;> simp
  | true => rw [portDir_fails p d h]; constructor <;> simp

theorem portPull_once (m : Byte) (s : State) : OneTransaction s (portPull m s).final := by
  cases h : nowFails s with
  | false => rw [portPull_sound m h]; constructor <;> simp
  | true => rw [portPull_fails m h]; constructor <;> simp

theorem portIntClear_once (p : PortId) (s : State) : OneTransaction s (portIntClear p s).final := by
  cases h : nowFails s with
  | false => rw [portIntClear_sound p h]; constructor <;> simp
  | true => rw [portIntClear_fails p h]; constructor <;> simp

theorem portRead_ports (s : State) : (portRead s).final.ports = s.ports := by
  cases h : nowFails s with
  | false => rw [portRead_sound h]; rfl
  | true => rw [portRead_fails h]; rfl

/-! ### The byte a read gives -/

theorem dataByte_of_answer {s : State} {v : Byte} (h : Memory.readByte s.env.answers s.env.txn = some v) :
    dataByte s = v := by
  simp [dataByte, h]

theorem dataByte_of_cart {s : State} {v : Byte} (ha : Memory.readByte s.env.answers s.env.txn = none)
    (hc : s.cartAt s.session.ctrl (busAddress s.ports) = some v) : dataByte s = v := by
  simp only [State.cartAt] at hc
  simp [dataByte, ha, hc]

theorem readByte_answers_steady {s : State} (h : s.steadyCart) :
    Memory.readByte s.env.answers s.env.txn = none :=
  readByte_eq_none fun c hc => Nat.ne_of_lt (h c hc)

theorem steadyCart_mono {s t : State} (h : s.steadyCart) (hf : t.env.answers = s.env.answers)
    (ht : s.env.txn ≤ t.env.txn) : t.steadyCart :=
  fun c hc => Nat.lt_of_lt_of_le (h c (hf ▸ hc)) ht

/-! ### A list of lines -/

theorem linesAll_eq (p : LinePhase) (ws : List Byte) (s : State) :
    (linesAll p ws s).config = s.config ∧ (linesAll p ws s).ports = s.ports ∧
    (linesAll p ws s).host = s.host ∧
    (linesAll p ws s).session =
      { s.session with ctrl := (linesAll p ws s).session.ctrl } ∧
    (linesAll p ws s).env =
      { s.env with trace := (ws.map fun w => Event.lines p (lineLevels w)).reverse ++ s.env.trace } := by
  induction ws generalizing s with
  | nil => simp [linesAll]
  | cons w ws ih =>
    obtain ⟨h1, h2, h3, h4, h5⟩ := ih (lines p w s)
    simp only [linesAll]
    refine ⟨h1, h2, h3, ?_, ?_⟩
    · rw [h4]; rfl
    · rw [h5]; simp

/-! ### The quiesce sequence -/

/-- A run of transactions that are each one transaction: it counts them all, whatever failed. -/
theorem attemptAll_frame {ts : List (State → Txn Unit)}
    (hts : ∀ t ∈ ts, ∀ s, OneTransaction s (t s).final) (s : State) :
    (attemptAll ts s).1.config = s.config ∧ (attemptAll ts s).1.session = s.session ∧
    (attemptAll ts s).1.phase = s.phase ∧ (attemptAll ts s).1.host = s.host ∧
    (attemptAll ts s).1.env.cart = s.env.cart ∧ (attemptAll ts s).1.env.answers = s.env.answers ∧
    (attemptAll ts s).1.env.failing = s.env.failing ∧
    (attemptAll ts s).1.env.txn = s.env.txn + ts.length ∧
    ∃ es, es.length = ts.length ∧ (attemptAll ts s).1.env.trace = es ++ s.env.trace := by
  induction ts generalizing s with
  | nil => exact ⟨rfl, rfl, rfl, rfl, rfl, rfl, rfl, rfl, [], rfl, rfl⟩
  | cons t ts ih =>
    have h1 := hts t List.mem_cons_self s
    have hi := ih (fun u hu => hts u (List.mem_cons_of_mem _ hu)) (t s).final
    have he : (attemptAll (t :: ts) s).1 = (attemptAll ts (t s).final).1 := by
      simp only [attemptAll]
      cases t s <;> rfl
    rw [he]
    obtain ⟨a, b, c, d, e, f, g, i, es, hl, hes⟩ := hi
    obtain ⟨ev, hev⟩ := h1.trace
    refine ⟨a.trans h1.config, b.trans h1.session, c.trans h1.phase, d.trans h1.host,
      e.trans h1.cart, f.trans h1.answers, g.trans h1.failing, ?_, es ++ [ev], ?_, ?_⟩
    · rw [i, h1.txn, List.length_cons]; omega
    · simp [hl]
    · rw [hes, hev]; simp

theorem quiesceTransactions_once : ∀ t ∈ quiesceTransactions, ∀ s, OneTransaction s (t s).final := by
  intro t ht s
  simp only [quiesceTransactions, List.mem_cons, List.not_mem_nil, or_false] at ht
  rcases ht with h | h | h | h | h | h | h | h | h | h | h | h <;> subst h <;>
    first
      | exact portWrite_once _ _ s
      | exact portPull_once _ s
      | exact portIntClear_once _ s
      | exact portDir_once _ _ s

/-! What one transaction of the sequence records, counts and does to the ports, done or failed. -/

theorem portWrite_final (p : PortId) (v : Byte) (s : State) :
    (portWrite p v s).final.env =
        { s.env with txn := s.env.txn + 1, trace := .write p v (!s.env.failing.contains s.env.txn) :: s.env.trace } ∧
      (portWrite p v s).final.ports =
        (s.setPort p fun q =>
          { q with out := if s.env.failing.contains s.env.txn then Config.failedByte s.env.txn else v }).ports := by
  unfold portWrite nowFails
  cases h : s.env.failing.contains s.env.txn <;> cases p <;> exact ⟨rfl, rfl⟩

theorem portPull_final (m : Byte) (s : State) :
    (portPull m s).final.env =
        { s.env with txn := s.env.txn + 1, trace := .pullups m (!s.env.failing.contains s.env.txn) :: s.env.trace } ∧
      (portPull m s).final.ports =
        { s.ports with pull := if s.env.failing.contains s.env.txn then Config.failedByte s.env.txn else m } := by
  unfold portPull nowFails
  cases h : s.env.failing.contains s.env.txn <;> exact ⟨rfl, rfl⟩

theorem portIntClear_final (p : PortId) (s : State) :
    (portIntClear p s).final.env =
        { s.env with
          txn := s.env.txn + 1, trace := .intEnable p 0 (!s.env.failing.contains s.env.txn) :: s.env.trace } ∧
      (portIntClear p s).final.ports =
        (s.setPort p fun q =>
          { q with inten := if s.env.failing.contains s.env.txn then Config.failedByte s.env.txn else 0 }).ports := by
  unfold portIntClear nowFails
  cases h : s.env.failing.contains s.env.txn <;> cases p <;> exact ⟨rfl, rfl⟩

theorem portDir_final (p : PortId) (d : Direction) (s : State) :
    (portDir p d s).final.env =
        { s.env with
          txn := s.env.txn + 1
          trace :=
            .direction p d (directionMask s.config.dirEncoding d) (!s.env.failing.contains s.env.txn) ::
              s.env.trace } ∧
      (portDir p d s).final.ports =
        (s.setPort p fun q =>
          { q with
            dir := if s.env.failing.contains s.env.txn then Config.failedDirections s.env.txn
              else allBits d }).ports := by
  unfold portDir nowFails
  cases h : s.env.failing.contains s.env.txn <;> cases p <;> exact ⟨rfl, rfl⟩

/-- The ports after an update of one of them depend on the ports alone. -/
theorem setPort_ports_of {s t : State} (p : PortId) (f : Port → Port) (h : t.ports = s.ports) :
    (t.setPort p f).ports = (s.setPort p f).ports := by
  cases p <;> simp [State.setPort, h]

theorem attemptAll_cons (t : State → Txn Unit) (ts : List (State → Txn Unit)) (s : State) :
    (attemptAll (t :: ts) s).1 = (attemptAll ts (t s).final).1 := by
  simp only [attemptAll]
  cases t s <;> rfl

/-- The twelve transactions as they are recorded, and what they leave at the ports (70_reset_and_hazards.md R265). -/
theorem attemptAll_quiesce (s : State) :
    (attemptAll quiesceTransactions s).1.env.trace =
      (quiesceEvents s.config s.env.failing s.env.txn).reverse ++ s.env.trace ∧
    PortsIdle s.env.failing s.env.txn (attemptAll quiesceTransactions s).1.ports := by
  simp only [quiesceTransactions, attemptAll_cons]
  simp only [attemptAll]
  constructor
  · simp only [(portDir_final _ _ _).1, (portIntClear_final _ _).1, (portPull_final _ _).1, (portWrite_final _ _ _).1,
      (portDir_once _ _ _).config, (portIntClear_once _ _).config, (portPull_once _ _).config,
      (portWrite_once _ _ _).config, Nat.add_assoc, Nat.reduceAdd, directionMask, quiesceEvents, Nat.add_zero,
      List.reverse_cons, List.reverse_nil, List.nil_append, List.cons_append]
  · constructor <;>
      simp +contextual [portDir_final, portIntClear_final, portPull_final, portWrite_final, State.setPort,
        Nat.add_assoc, allBits]

/-- A run of transactions each of which is done exactly when it is not to fail is done throughout exactly when none is. -/
theorem attemptAll_ok {ts : List (State → Txn Unit)} (hts : ∀ t ∈ ts, ∀ s, OneTransaction s (t s).final)
    (hok : ∀ t ∈ ts, ∀ s, nowFails s = true ↔ ∃ u, t s = .failed u) (s : State) :
    (attemptAll ts s).2 = true ↔ ∀ k < ts.length, s.env.txn + k ∉ s.env.failing := by
  induction ts generalizing s with
  | nil => simp [attemptAll]
  | cons t ts ih =>
    have h1 := hts t List.mem_cons_self s
    have h2 := hok t List.mem_cons_self s
    have hi := ih (fun u hu => hts u (List.mem_cons_of_mem _ hu)) (fun u hu => hok u (List.mem_cons_of_mem _ hu))
      (t s).final
    rw [h1.failing, h1.txn] at hi
    simp only [attemptAll]
    cases h : t s with
    | failed u =>
      have := nowFails_eq_true.mp (h2.mpr ⟨u, h⟩)
      simp only [Bool.false_eq_true, false_iff, not_forall]
      exact ⟨0, Nat.succ_pos _, by simpa using this⟩
    | done a u =>
      have hn : s.env.txn ∉ s.env.failing := fun hm => by
        obtain ⟨w, hw⟩ := h2.mp (nowFails_eq_true.mpr hm)
        rw [h] at hw; cases hw
      rw [h, final_done] at hi
      simp only [hi]
      constructor
      · intro hk k hlt
        cases k with
        | zero => exact hn
        | succ k =>
          have := hk k (Nat.lt_of_succ_lt_succ hlt)
          rwa [Nat.add_assoc, Nat.add_comm 1] at this
      · intro hk k hlt
        have := hk (k + 1) (Nat.succ_lt_succ hlt)
        rwa [Nat.add_assoc, Nat.add_comm 1]

theorem quiesceTransactions_fail : ∀ t ∈ quiesceTransactions, ∀ s, nowFails s = true ↔ ∃ u, t s = .failed u := by
  intro t ht s
  simp only [quiesceTransactions, List.mem_cons, List.not_mem_nil, or_false] at ht
  rcases ht with h | h | h | h | h | h | h | h | h | h | h | h <;> subst h <;>
    cases hn : nowFails s <;> simp [portWrite, portPull, portIntClear, portDir, hn]

/-- The quiesce sequence reports success exactly when none of its transactions is to fail. -/
theorem quiesceSequence_ok (s : State) :
    (quiesceSequence s).2 = true ↔ ∀ k < 12, s.env.txn + k ∉ s.env.failing :=
  attemptAll_ok quiesceTransactions_once quiesceTransactions_fail (lines .off s.config.cwQuiesce s)

/-- What the quiesce sequence leaves, whatever its transactions came to. -/
theorem quiesceSequence_frame (s : State) :
    (quiesceSequence s).1.config = s.config ∧
    (quiesceSequence s).1.session =
      { s.session with
        status := .closed, address := 0, bank := 0, cachedUpperByte := none, cachedLowerByte := none
        cachedBank := none, layout := none, layoutLocked := false, header := none
        ctrl := some (lineLevels s.config.cwQuiesce) } ∧
    (quiesceSequence s).1.phase = .off ∧ (quiesceSequence s).1.host = s.host ∧
    (quiesceSequence s).1.env.cart = s.env.cart ∧ (quiesceSequence s).1.env.answers = s.env.answers ∧
    (quiesceSequence s).1.env.failing = s.env.failing ∧
    (quiesceSequence s).1.env.txn = s.env.txn + 12 ∧
    (quiesceSequence s).1.env.trace =
      (quiesceEvents s.config s.env.failing s.env.txn).reverse ++
        .lines .off (lineLevels s.config.cwQuiesce) :: s.env.trace ∧
    PortsIdle s.env.failing s.env.txn (quiesceSequence s).1.ports := by
  obtain ⟨a, b, c, d, e, f, g, i, _⟩ :=
    attemptAll_frame quiesceTransactions_once (lines .off s.config.cwQuiesce s)
  obtain ⟨j, k⟩ := attemptAll_quiesce (lines .off s.config.cwQuiesce s)
  simp only [quiesceSequence, closeSession_config, closeSession_session, closeSession_phase,
    closeSession_host, closeSession_env, closeSession_ports, a, b, c, d, e, f, g, i, j]
  exact ⟨rfl, rfl, rfl, rfl, rfl, rfl, rfl, rfl, rfl, k⟩

/-- What a fatal error leaves. -/
theorem raise_frame (k : FatalKind) (s : State) :
    (raise k s).config = s.config ∧
    (raise k s).session =
      { s.session with
        status := .closed, address := 0, bank := 0, cachedUpperByte := none, cachedLowerByte := none
        cachedBank := none, layout := none, layoutLocked := false, header := none
        ctrl := some (lineLevels s.config.cwQuiesce), lastError := k.code } ∧
    (raise k s).phase = .off ∧
    (raise k s).host = { s.host with response := some { status := .fatal k, result := none } } ∧
    (raise k s).env.cart = s.env.cart ∧ (raise k s).env.answers = s.env.answers ∧
    (raise k s).env.failing = s.env.failing ∧ (raise k s).env.txn = s.env.txn + 12 ∧
    (raise k s).env.trace =
      (quiesceEvents s.config s.env.failing s.env.txn).reverse ++
        .lines .off (lineLevels s.config.cwQuiesce) :: s.env.trace ∧
    PortsIdle s.env.failing s.env.txn (raise k s).ports := by
  obtain ⟨a, b, c, d, e, f, g, i, j, l⟩ := quiesceSequence_frame (s.setLastError k.code)
  exact ⟨a, b, c, by simp only [raise, respond_host, d]; rfl, e, f, g, i, j, l⟩

/-- A fatal error taken where only the environment, the ports and the session have moved from `s`, by the events
`made`. -/
theorem raise_fatalEnd {kind : FatalKind} {s u : State} {made : List Event} (hc : u.config = s.config)
    (hh : u.host = s.host) (hcart : u.env.cart = s.env.cart) (ha : u.env.answers = s.env.answers)
    (hf : u.env.failing = s.env.failing) (hn : u.env.txn = s.env.txn + transactionCount made)
    (ht : u.env.trace = made.reverse ++ s.env.trace) : FatalEnd kind s (raise kind u) made := by
  obtain ⟨a, b, c, d, e, f, g, i, j, l⟩ := raise_frame kind u
  refine ⟨⟨?_, by rw [i, hn], by rw [j, hc, hf, hn, ht]; rfl, by rw [← hf, ← hn]; exact l, a.trans hc, e.trans hcart,
    f.trans ha, g.trans hf⟩, by rw [b], by rw [d, hh]⟩
  constructor <;> first | rw [b] | exact c
  rw [a]; rfl

/-- The line changes of session creation, in one equation (70_reset_and_hazards.md R262). -/
theorem powerUp_eq (s : State) :
    powerUp s =
      { s with
        session := { s.session with ctrl := some (lineLevels s.config.cwReadIdle) }
        phase := .readIdle
        env :=
          { s.env with
            trace :=
              .lines .readIdle (lineLevels s.config.cwReadIdle) ::
                ((s.config.cwPowerup.map fun w => Event.lines .poweringUp (lineLevels w)).reverse ++
                  s.env.trace) } } := by
  obtain ⟨h1, h2, h3, h4, h5⟩ := linesAll_eq .poweringUp s.config.cwPowerup s
  simp only [powerUp, lines, h1, h2, h3, h5]
  rw [h4]

end Sys2Proof.Machine
end

