-- ==== Sys2Proof/Laws/Positioning.lean ====
section
/-! SUPPORT. What positioning the bus can do, and what it leaves alone: one lemma per sub-step, for the done and for
the failed outcome. -/

namespace Sys2Proof.Machine

/-- The record from `s` to `t` grew by port transactions only, one for each that was counted. -/
def Traffic (s t : State) : Prop :=
  ∃ es, t.env.trace = es ++ s.env.trace ∧ t.env.txn = s.env.txn + es.length ∧ ∀ p w, Event.lines p w ∉ es

theorem traffic_refl (s : State) : Traffic s s :=
  ⟨[], rfl, rfl, by simp⟩

theorem Traffic.trans {s t u : State} (h : Traffic s t) (k : Traffic t u) : Traffic s u := by
  obtain ⟨a, ha, na, la⟩ := h
  obtain ⟨b, hb, nb, lb⟩ := k
  refine ⟨b ++ a, by rw [hb, ha, List.append_assoc], by rw [nb, na, List.length_append]; omega, fun p w h => ?_⟩
  rcases List.mem_append.mp h with h | h
  · exact lb p w h
  · exact la p w h

/-- Where no line moves, the events are the transactions. -/
theorem transactionCount_eq_length {es : List Event} (h : ∀ p w, Event.lines p w ∉ es) :
    transactionCount es = es.length := by
  rw [transactionCount, List.countP_eq_length]
  intro e he
  cases e with
  | lines p w => exact absurd he (h p w)
  | _ => rfl

theorem transactionCount_append (a b : List Event) :
    transactionCount (a ++ b) = transactionCount a + transactionCount b :=
  List.countP_append

/-- The part of the state that no positioning and no read touches. -/
structure BusFrame (s t : State) : Prop where
  config : t.config = s.config
  phase : t.phase = s.phase
  host : t.host = s.host
  status : t.session.status = s.session.status
  layout : t.session.layout = s.session.layout
  layoutLocked : t.session.layoutLocked = s.session.layoutLocked
  header : t.session.header = s.session.header
  ctrl : t.session.ctrl = s.session.ctrl
  lastError : t.session.lastError = s.session.lastError
  dirs : t.ports.aHi.dir = s.ports.aHi.dir ∧ t.ports.aLo.dir = s.ports.aLo.dir ∧
    t.ports.bank.dir = s.ports.bank.dir
  intens : t.ports.aHi.inten = s.ports.aHi.inten ∧ t.ports.aLo.inten = s.ports.aLo.inten ∧
    t.ports.bank.inten = s.ports.bank.inten
  data : t.ports.data = s.ports.data
  pull : t.ports.pull = s.ports.pull
  cart : t.env.cart = s.env.cart
  answers : t.env.answers = s.env.answers
  failing : t.env.failing = s.env.failing
  txn : s.env.txn ≤ t.env.txn
  trace : Traffic s t

theorem BusFrame.refl (s : State) : BusFrame s s :=
  ⟨rfl, rfl, rfl, rfl, rfl, rfl, rfl, rfl, rfl, ⟨rfl, rfl, rfl⟩, ⟨rfl, rfl, rfl⟩, rfl, rfl, rfl, rfl, rfl,
    Nat.le_refl _, traffic_refl s⟩

theorem BusFrame.trans {s t u : State} (h : BusFrame s t) (k : BusFrame t u) : BusFrame s u where
  config := k.config.trans h.config
  phase := k.phase.trans h.phase
  host := k.host.trans h.host
  status := k.status.trans h.status
  layout := k.layout.trans h.layout
  layoutLocked := k.layoutLocked.trans h.layoutLocked
  header := k.header.trans h.header
  ctrl := k.ctrl.trans h.ctrl
  lastError := k.lastError.trans h.lastError
  dirs := ⟨k.dirs.1.trans h.dirs.1, k.dirs.2.1.trans h.dirs.2.1, k.dirs.2.2.trans h.dirs.2.2⟩
  intens := ⟨k.intens.1.trans h.intens.1, k.intens.2.1.trans h.intens.2.1, k.intens.2.2.trans h.intens.2.2⟩
  data := k.data.trans h.data
  pull := k.pull.trans h.pull
  cart := k.cart.trans h.cart
  answers := k.answers.trans h.answers
  failing := k.failing.trans h.failing
  txn := Nat.le_trans h.txn k.txn
  trace := h.trace.trans k.trace

theorem BusFrame.soundPorts {s t : State} (h : BusFrame s t) (hs : s.soundPorts) : t.soundPorts :=
  soundPorts_mono hs h.failing h.txn

theorem BusFrame.steadyCart {s t : State} (h : BusFrame s t) (hs : s.steadyCart) : t.steadyCart :=
  steadyCart_mono hs h.answers h.txn

/-- A frame built over a sequence: the first part's final state, then the rest. -/
theorem bind_frame {α β : Type} {s : State} {r : Txn α} {k : α → State → Txn β}
    (h : BusFrame s r.final) (hk : ∀ a t, r = .done a t → BusFrame t (k a t).final) :
    BusFrame s (r.bind k).final := by
  cases r with
  | done a t => exact h.trans (hk a t rfl)
  | failed t => exact h

theorem traffic_one {s t : State} (e : Event) (h : t.env.trace = e :: s.env.trace)
    (hn : t.env.txn = s.env.txn + 1) (he : ∀ p w, e ≠ .lines p w) : Traffic s t :=
  ⟨[e], h, hn, fun p w h => he p w (List.mem_singleton.mp h).symm⟩

/-- An update outside the environment records nothing. -/
theorem traffic_of_env {s t : State} (h : t.env = s.env) : Traffic s t :=
  ⟨[], by rw [h]; rfl, by rw [h]; rfl, by simp⟩

theorem portWrite_frame {p : PortId} (hp : p ≠ .data) (v : Byte) (s : State) :
    BusFrame s (portWrite p v s).final := by
  cases h : nowFails s with
  | false =>
    rw [portWrite_sound p v h]
    cases p with
    | data => exact absurd rfl hp
    | _ =>
      constructor
      case trace => exact traffic_one _ rfl rfl (by intros; simp)
      all_goals simp [State.setPort, State.record]
  | true =>
    rw [portWrite_fails p v h]
    cases p with
    | data => exact absurd rfl hp
    | _ =>
      constructor
      case trace => exact traffic_one _ rfl rfl (by intros; simp)
      all_goals simp [State.setPort, State.record]

theorem portRead_frame (s : State) : BusFrame s (portRead s).final := by
  cases h : nowFails s with
  | false =>
    rw [portRead_sound h]
    constructor
    case trace => exact traffic_one _ rfl rfl (by intros; simp)
    all_goals simp
  | true =>
    rw [portRead_fails h]
    constructor
    case trace => exact traffic_one _ rfl rfl (by intros; simp)
    all_goals simp

theorem debouncedWrite_frame {p : PortId} (hp : p ≠ .data) (c : Option Byte) (v : Byte) (s : State) :
    BusFrame s (debouncedWrite p c v s).final := by
  unfold debouncedWrite
  split
  · exact BusFrame.refl s
  · exact portWrite_frame hp v s

/-- A debounced write leaves the session registers alone; when done, the port drives the value if the cache was
right about it. -/
theorem debouncedWrite_done {p : PortId} {c : Option Byte} {v : Byte} {s t : State} {u : Unit}
    (h : debouncedWrite p c v s = .done u t) :
    t.session = s.session ∧
    (c = some v ∧ t = s ∨
      c ≠ some v ∧ t = (s.setPort p fun q => { q with out := v }).record (.write p v true)) := by
  unfold debouncedWrite at h
  split at h
  · cases h; exact ⟨rfl, .inl ⟨‹_›, rfl⟩⟩
  · cases hf : nowFails s with
    | true => rw [portWrite_fails p v hf] at h; cases h
    | false =>
      rw [portWrite_sound p v hf] at h
      cases h
      exact ⟨by simp, .inr ⟨‹_›, rfl⟩⟩

theorem gotoBankStep_frame (b : Byte) (s : State) : BusFrame s (gotoBankStep b s).final := by
  refine bind_frame (debouncedWrite_frame (by decide) _ b s) fun _ t _ => ?_
  constructor <;> first | exact traffic_of_env rfl | simp

theorem gotoAddressStep_frame (l : Layout) (a : Address) (s : State) :
    BusFrame s (gotoAddressStep l a s).final := by
  refine bind_frame (debouncedWrite_frame (by decide) _ _ s) fun _ t _ => ?_
  refine BusFrame.trans (t := t.setCachedUpper (upperByte l a)) (by constructor <;> first | exact traffic_of_env rfl | simp) ?_
  refine bind_frame (debouncedWrite_frame (by decide) _ _ _) fun _ u _ => ?_
  constructor <;> first | exact traffic_of_env rfl | simp

theorem gotoOffsetStep_frame (l : Layout) (o : Nat) (s : State) :
    BusFrame s (gotoOffsetStep l o s).final := by
  refine bind_frame (gotoBankStep_frame _ s) fun _ t _ => ?_
  refine bind_frame (gotoAddressStep_frame l _ t) fun _ u _ => ?_
  constructor <;> first | exact traffic_of_env rfl | simp

theorem readAtOffset_frame (l : Layout) (o : Nat) (s : State) : BusFrame s (readAtOffset l o s).final :=
  bind_frame (gotoOffsetStep_frame l o s) fun _ t _ => portRead_frame t

/-- A done `GOTO_BANK` (41_address_bus.md R114, R115). -/
theorem gotoBankStep_done {b : Byte} {s t : State} {u : Unit} (h : gotoBankStep b s = .done u t) :
    t.session = { s.session with cachedBank := some b, bank := b } ∧
    t.ports.aHi = s.ports.aHi ∧ t.ports.aLo = s.ports.aLo ∧
    ((∀ v, s.session.cachedBank = some v → s.ports.bank.out = v) → t.ports.bank.out = b) := by
  obtain ⟨_, w, hw, ht⟩ := bind_eq_done h
  cases ht
  obtain ⟨hs, hc⟩ := debouncedWrite_done hw
  rcases hc with ⟨hc, rfl⟩ | ⟨_, rfl⟩
  · exact ⟨by simp, rfl, rfl, fun hcoh => hcoh _ hc⟩
  · exact ⟨by simp, rfl, rfl, fun _ => rfl⟩

/-- A done `GOTO_ADDRESS` of an ordinary address (41_address_bus.md R110, R111, R115). -/
theorem gotoAddressStep_done {l : Layout} {a : Address} {s t : State} {u : Unit}
    (h : gotoAddressStep l a s = .done u t) :
    t.session =
      { s.session with
        cachedUpperByte := some (upperByte l a), cachedLowerByte := some (lowerByte a), address := a } ∧
    t.ports.bank = s.ports.bank ∧
    ((∀ v, s.session.cachedUpperByte = some v → s.ports.aHi.out = v) →
      t.ports.aHi.out = upperByte l a) ∧
    ((∀ v, s.session.cachedLowerByte = some v → s.ports.aLo.out = v) →
      t.ports.aLo.out = lowerByte a) := by
  obtain ⟨_, w, hw, ht⟩ := bind_eq_done h
  obtain ⟨hs, hc⟩ := debouncedWrite_done hw
  obtain ⟨_, x, hx, hy⟩ := bind_eq_done ht
  cases hy
  obtain ⟨hs', hc'⟩ := debouncedWrite_done hx
  simp only [setCachedUpper_session] at hs' hc'
  rcases hc with ⟨hc, rfl⟩ | ⟨_, rfl⟩ <;> rcases hc' with ⟨hc', rfl⟩ | ⟨_, rfl⟩
  · exact ⟨by simp, rfl, fun k => k _ hc, fun k => k _ hc'⟩
  · exact ⟨by simp, rfl, fun k => k _ hc, fun _ => rfl⟩
  · exact ⟨by simp, rfl, fun _ => rfl, fun k => k _ hc'⟩
  · exact ⟨by simp, rfl, fun _ => rfl, fun _ => rfl⟩

/-- The cached bytes are what their ports drive (10_state.md R24). -/
structure Coherent (s : State) : Prop where
  upper : ∀ v, s.session.cachedUpperByte = some v → s.ports.aHi.out = v
  lower : ∀ v, s.session.cachedLowerByte = some v → s.ports.aLo.out = v
  bank : ∀ v, s.session.cachedBank = some v → s.ports.bank.out = v

/-- A done `GOTO_OFFSET` (42_cartridge_map.md R137). -/
theorem gotoOffsetStep_done {l : Layout} {o : Nat} {s t : State} {u : Unit}
    (h : gotoOffsetStep l o s = .done u t) :
    t.session =
      { s.session with
        cachedBank := some (mapBankAddress l o).1, bank := (mapBankAddress l o).1
        cachedUpperByte := some (upperByte l (mapBankAddress l o).2)
        cachedLowerByte := some (lowerByte (mapBankAddress l o).2), address := (mapBankAddress l o).2
        currentOffset := .ofNat 32 o } ∧
    (Coherent s → t.ports.bank.out = (mapBankAddress l o).1 ∧
      t.ports.aHi.out = upperByte l (mapBankAddress l o).2 ∧
      t.ports.aLo.out = lowerByte (mapBankAddress l o).2) := by
  obtain ⟨_, w, hw, ht⟩ := bind_eq_done h
  obtain ⟨_, x, hx, hy⟩ := bind_eq_done ht
  cases hy
  obtain ⟨a1, a2, a3, a4⟩ := gotoBankStep_done hw
  obtain ⟨b1, b2, b3, b4⟩ := gotoAddressStep_done hx
  refine ⟨?_, fun hc => ⟨?_, ?_, ?_⟩⟩
  · simp [b1, a1]
  · show x.ports.bank.out = _
    rw [b2]; exact a4 hc.bank
  · exact b3 fun v hv => by rw [a1] at hv; rw [a2]; exact hc.upper v hv
  · exact b4 fun v hv => by rw [a1] at hv; rw [a3]; exact hc.lower v hv

/-- A done positioned read: the registers and the ports of `gotoOffsetStep_done`, and the byte the environment gives
there. -/
theorem readAtOffset_done {l : Layout} {o : Nat} {s t : State} {v : Byte}
    (h : readAtOffset l o s = .done v t) :
    t.session =
      { s.session with
        cachedBank := some (mapBankAddress l o).1, bank := (mapBankAddress l o).1
        cachedUpperByte := some (upperByte l (mapBankAddress l o).2)
        cachedLowerByte := some (lowerByte (mapBankAddress l o).2), address := (mapBankAddress l o).2
        currentOffset := .ofNat 32 o } ∧
    (Coherent s → Coherent t ∧ t.ports.bank.out = (mapBankAddress l o).1 ∧
      t.ports.aHi.out = upperByte l (mapBankAddress l o).2 ∧
      t.ports.aLo.out = lowerByte (mapBankAddress l o).2) ∧
    ∃ w, gotoOffsetStep l o s = .done () w ∧ v = dataByte w ∧ t.ports = w.ports ∧
      w.session = t.session ∧
      t.env.trace = .read w.session.ctrl (busAddress w.ports) (some v) :: w.env.trace := by
  obtain ⟨_, w, hw, ht⟩ := bind_eq_done h
  obtain ⟨a1, a2⟩ := gotoOffsetStep_done hw
  cases hf : nowFails w with
  | true => rw [portRead_fails hf] at ht; cases ht
  | false =>
    rw [portRead_sound hf] at ht
    cases ht
    refine ⟨by simpa using a1, fun hc => ?_, w, hw, rfl, rfl, rfl, rfl⟩
    obtain ⟨b1, b2, b3⟩ := a2 hc
    refine ⟨⟨?_, ?_, ?_⟩, b1, b2, b3⟩
    · intro x hx; simp [a1] at hx; simpa [hx] using b2
    · intro x hx; simp [a1] at hx; simpa [hx] using b3
    · intro x hx; simp [a1] at hx; simpa [hx] using b1

/-- With no failure ahead, positioning is done. -/
theorem gotoBankStep_sound {s : State} (b : Byte) (h : s.soundPorts) :
    ∃ t, gotoBankStep b s = .done () t := by
  unfold gotoBankStep debouncedWrite
  split
  · exact ⟨_, rfl⟩
  · rw [portWrite_sound _ _ (nowFails_of_soundPorts h)]; exact ⟨_, rfl⟩

theorem gotoAddressStep_sound {s : State} (l : Layout) (a : Address) (h : s.soundPorts) :
    ∃ t, gotoAddressStep l a s = .done () t := by
  have hd : ∃ t, debouncedWrite .aHi s.session.cachedUpperByte (upperByte l a) s = .done () t := by
    unfold debouncedWrite
    split
    · exact ⟨_, rfl⟩
    · rw [portWrite_sound _ _ (nowFails_of_soundPorts h)]; exact ⟨_, rfl⟩
  obtain ⟨t, ht⟩ := hd
  have hf := debouncedWrite_frame (p := .aHi) (by decide) s.session.cachedUpperByte (upperByte l a) s
  rw [ht] at hf
  have hs : (t.setCachedUpper (upperByte l a)).soundPorts := hf.soundPorts h
  unfold gotoAddressStep
  rw [ht]
  simp only [txn_bind_done]
  unfold debouncedWrite
  split
  · exact ⟨_, rfl⟩
  · rw [portWrite_sound _ _ (nowFails_of_soundPorts hs)]; exact ⟨_, rfl⟩

theorem gotoOffsetStep_sound {s : State} (l : Layout) (o : Nat) (h : s.soundPorts) :
    ∃ t, gotoOffsetStep l o s = .done () t := by
  obtain ⟨t, ht⟩ := gotoBankStep_sound (mapBankAddress l o).1 h
  have hf := gotoBankStep_frame (mapBankAddress l o).1 s
  rw [ht, final_done] at hf
  obtain ⟨u, hu⟩ := gotoAddressStep_sound l (mapBankAddress l o).2 (hf.soundPorts h)
  exact ⟨_, by rw [gotoOffsetStep, ht, txn_bind_done, hu]; rfl⟩

theorem readAtOffset_sound {s : State} (l : Layout) (o : Nat) (h : s.soundPorts) :
    ∃ v t, readAtOffset l o s = .done v t := by
  obtain ⟨t, ht⟩ := gotoOffsetStep_sound l o h
  have hf := gotoOffsetStep_frame l o s
  rw [ht, final_done] at hf
  exact ⟨_, _, by rw [readAtOffset, ht, txn_bind_done, portRead_sound (nowFails_of_soundPorts (hf.soundPorts h))]⟩

end Sys2Proof.Machine
end

