-- ==== Sys2Proof/Laws/Loops.lean ====
section
/-! SUPPORT. What the loops of the header parser and the dump engine can do: what they leave alone on whatever exit,
and that they end done when no transaction fails. -/

namespace Sys2Proof.Machine

/-- The caches and the bus registers agree with the ports and with the layout (10_state.md R12, R24). -/
structure BusAt (l : Layout) (s : State) : Prop extends Coherent s where
  splitUpper : ∀ v, s.session.cachedUpperByte = some v → v = upperByte l s.session.address
  splitLower : ∀ v, s.session.cachedLowerByte = some v → v = lowerByte s.session.address
  bankRegister : ∀ v, s.session.cachedBank = some v → s.session.bank = v

/-- Updates of accumulators only: the bus, the environment and everything `BusFrame` keeps are as before. -/
structure SumsOnly (s t : State) : Prop where
  frame : BusFrame s t
  ports : t.ports = s.ports
  env : t.env = s.env
  address : t.session.address = s.session.address
  bank : t.session.bank = s.session.bank
  cachedUpperByte : t.session.cachedUpperByte = s.session.cachedUpperByte
  cachedLowerByte : t.session.cachedLowerByte = s.session.cachedLowerByte
  cachedBank : t.session.cachedBank = s.session.cachedBank
  currentOffset : t.session.currentOffset = s.session.currentOffset

theorem sumsOnly_refl (s : State) : SumsOnly s s := by
  constructor <;> first | exact BusFrame.refl s | rfl

theorem addToPage_sumsOnly (s : State) (v : Byte) : SumsOnly s (s.addToPage v) := by
  constructor <;> first | rfl | (constructor <;> first | exact traffic_of_env rfl | simp)

theorem addToRunning_sumsOnly (s : State) (v : Byte) : SumsOnly s (s.addToRunning v) := by
  constructor <;> first | rfl | (constructor <;> first | exact traffic_of_env rfl | simp)

theorem clearSums_sumsOnly (s : State) : SumsOnly s s.clearSums := by
  constructor <;> first | rfl | (constructor <;> first | exact traffic_of_env rfl | simp)

theorem fold_sumsOnly (s : State) : SumsOnly s s.fold := by
  constructor <;> first | rfl | (constructor <;> first | exact traffic_of_env rfl | simp)

theorem ifFold_sumsOnly (c : Bool) (s : State) : SumsOnly s (if c then s.fold else s) := by
  cases c
  · exact sumsOnly_refl s
  · exact fold_sumsOnly s

theorem SumsOnly.coherent {s t : State} (h : SumsOnly s t) (k : Coherent s) : Coherent t where
  upper := by rw [h.cachedUpperByte, h.ports]; exact k.upper
  lower := by rw [h.cachedLowerByte, h.ports]; exact k.lower
  bank := by rw [h.cachedBank, h.ports]; exact k.bank

theorem SumsOnly.busAt {l : Layout} {s t : State} (h : SumsOnly s t) (k : BusAt l s) : BusAt l t where
  toCoherent := h.coherent k.toCoherent
  splitUpper := by rw [h.cachedUpperByte, h.address]; exact k.splitUpper
  splitLower := by rw [h.cachedLowerByte, h.address]; exact k.splitLower
  bankRegister := by rw [h.cachedBank, h.bank]; exact k.bankRegister

theorem gotoAddressStep_busAt {l : Layout} {a : Address} {s t : State} {u : Unit}
    (h : gotoAddressStep l a s = .done u t) (hc : Coherent s)
    (hb : ∀ v, s.session.cachedBank = some v → s.session.bank = v) : BusAt l t := by
  obtain ⟨h1, h2, h3, h4⟩ := gotoAddressStep_done h
  have h3 := h3 hc.upper
  have h4 := h4 hc.lower
  refine ⟨⟨?_, ?_, ?_⟩, ?_, ?_, ?_⟩
  · intro v hv; simp [h1] at hv; simpa [hv] using h3
  · intro v hv; simp [h1] at hv; simpa [hv] using h4
  · intro v hv; rw [h2]; exact hc.bank v (by simpa [h1] using hv)
  · intro v hv; simp [h1] at hv ⊢; exact hv.symm
  · intro v hv; simp [h1] at hv ⊢; exact hv.symm
  · intro v hv; simp [h1] at hv ⊢; exact hb v hv

theorem gotoBankStep_coherent {b : Byte} {s t : State} {u : Unit} (h : gotoBankStep b s = .done u t)
    (hc : Coherent s) : Coherent t := by
  obtain ⟨h1, h2, h3, h4⟩ := gotoBankStep_done h
  have h4 := h4 hc.bank
  refine ⟨?_, ?_, ?_⟩
  · intro v hv; rw [h2]; exact hc.upper v (by simpa [h1] using hv)
  · intro v hv; rw [h3]; exact hc.lower v (by simpa [h1] using hv)
  · intro v hv; simp [h1] at hv; simpa [hv] using h4

theorem gotoOffsetStep_busAt {l : Layout} {o : Nat} {s t : State} {u : Unit}
    (h : gotoOffsetStep l o s = .done u t) (hc : Coherent s) : BusAt l t := by
  obtain ⟨_, w, hw, ht⟩ := bind_eq_done h
  obtain ⟨_, x, hx, hy⟩ := bind_eq_done ht
  cases hy
  have hb : ∀ v, w.session.cachedBank = some v → w.session.bank = v := by
    intro v hv
    simp [(gotoBankStep_done hw).1] at hv ⊢
    exact hv
  have h := gotoAddressStep_busAt hx (gotoBankStep_coherent hw hc) hb
  exact ⟨⟨h.upper, h.lower, h.bank⟩, h.splitUpper, h.splitLower, h.bankRegister⟩

theorem readAtOffset_busAt {l : Layout} {o : Nat} {s t : State} {v : Byte}
    (h : readAtOffset l o s = .done v t) (hc : Coherent s) : BusAt l t := by
  obtain ⟨_, _, w, hw, _, hp, hs, _⟩ := readAtOffset_done h
  have k := gotoOffsetStep_busAt hw hc
  refine ⟨⟨?_, ?_, ?_⟩, ?_, ?_, ?_⟩
  · rw [← hs, hp]; exact k.upper
  · rw [← hs, hp]; exact k.lower
  · rw [← hs, hp]; exact k.bank
  · rw [← hs]; exact k.splitUpper
  · rw [← hs]; exact k.splitLower
  · rw [← hs]; exact k.bankRegister

/-! ### Reading ascending bytes (43_header_parser.md R146) -/

theorem readAscending_frame (l : Layout) (count offset : Nat) (s : State) :
    BusFrame s (readAscending l count offset s).final := by
  induction count generalizing offset s with
  | zero => exact BusFrame.refl s
  | succ n ih =>
    refine bind_frame (readAtOffset_frame l offset s) fun v t _ => ?_
    exact bind_frame (ih (offset + 1) t) fun vs u _ => BusFrame.refl u

theorem readAscending_sound {s : State} (l : Layout) (count offset : Nat) (h : s.soundPorts) :
    ∃ bs t, readAscending l count offset s = .done bs t ∧ bs.length = count := by
  induction count generalizing offset s with
  | zero => exact ⟨[], s, rfl, rfl⟩
  | succ n ih =>
    obtain ⟨v, t, ht⟩ := readAtOffset_sound l offset h
    have hf := readAtOffset_frame l offset s
    rw [ht, final_done] at hf
    obtain ⟨bs, u, hu, hl⟩ := ih (offset + 1) (hf.soundPorts h)
    exact ⟨v :: bs, u, by simp only [readAscending, ht, txn_bind_done, hu], by simp [hl]⟩

theorem readAscending_busAt {l : Layout} {count offset : Nat} {s t : State} {bs : List Byte}
    (h : readAscending l count offset s = .done bs t) (hc : Coherent s) (hn : 0 < count) : BusAt l t := by
  induction count generalizing offset s bs with
  | zero => exact absurd hn (Nat.lt_irrefl 0)
  | succ n ih =>
    obtain ⟨v, w, hw, ht⟩ := bind_eq_done h
    obtain ⟨vs, x, hx, hy⟩ := bind_eq_done ht
    cases hy
    have hb := readAtOffset_busAt hw hc
    cases n with
    | zero => cases hx; exact hb
    | succ m => exact ih hx hb.toCoherent (Nat.succ_pos m)

/-- Reading bytes leaves the accumulators alone (44_checksum_and_size.md R171). -/
theorem readAtOffset_sums (l : Layout) (o : Nat) (s : State) :
    (readAtOffset l o s).final.session.runningChecksum = s.session.runningChecksum ∧
    (readAtOffset l o s).final.session.pageSum = s.session.pageSum := by
  have hdeb : ∀ (p : PortId) (c : Option Byte) (v : Byte) (s : State),
      (debouncedWrite p c v s).final.session = s.session := by
    intro p c v s
    unfold debouncedWrite
    split
    · rfl
    · exact (portWrite_once p v s).session
  have hstep : ∀ {α β : Type} (s : State) (r : Txn α) (k : α → State → Txn β),
      (r.final.session.runningChecksum = s.session.runningChecksum ∧
        r.final.session.pageSum = s.session.pageSum) →
      (∀ a t, r = .done a t → (k a t).final.session.runningChecksum = t.session.runningChecksum ∧
        (k a t).final.session.pageSum = t.session.pageSum) →
      (r.bind k).final.session.runningChecksum = s.session.runningChecksum ∧
        (r.bind k).final.session.pageSum = s.session.pageSum := by
    intro α β s r k h1 h2
    cases r with
    | done a t => exact ⟨(h2 a t rfl).1.trans h1.1, (h2 a t rfl).2.trans h1.2⟩
    | failed t => exact h1
  refine hstep s _ _ ?_ fun _ t _ => ⟨by rw [(portRead_once t).session], by rw [(portRead_once t).session]⟩
  refine hstep s _ _ ?_ fun _ t _ => ?_
  · exact hstep s _ _ ⟨by rw [hdeb], by rw [hdeb]⟩ fun _ t _ => ⟨rfl, rfl⟩
  · refine hstep t _ _ ?_ fun _ u _ => ⟨rfl, rfl⟩
    refine hstep t _ _ ⟨by rw [hdeb], by rw [hdeb]⟩ fun _ u _ => ?_
    exact hstep u _ _ ⟨by rw [hdeb]; rfl, by rw [hdeb]; rfl⟩ fun _ v _ => ⟨rfl, rfl⟩

/-! ### The loops of a ROM dump (45_dump_engine.md R194, R195, R193) -/

theorem pageLoop_frame (l : Layout) (cur turns offset : Nat) (s : State) :
    BusFrame s (pageLoop l cur turns offset s).final := by
  induction turns generalizing offset s with
  | zero => exact BusFrame.refl s
  | succ n ih =>
    refine bind_frame (readAtOffset_frame l offset s) fun v t _ => ?_
    refine (addToPage_sumsOnly t v).frame.trans ?_
    split
    · exact BusFrame.refl _
    · exact bind_frame (ih (offset + 1) _) fun r u _ => BusFrame.refl u

theorem passLoop_frame (l : Layout) (pages cur offset : Nat) (s : State) :
    BusFrame s (passLoop l pages cur offset s).final := by
  induction pages generalizing cur offset s with
  | zero => exact BusFrame.refl s
  | succ n ih =>
    refine bind_frame (pageLoop_frame l cur (pageSize l) offset s) fun r t _ => ?_
    refine BusFrame.trans (ifFold_sumsOnly (foldCondition t.config.foldBankRef l cur (resolveNat l r.2).1) t).frame ?_
    exact bind_frame (ih _ _ _) fun bs u _ => BusFrame.refl u

theorem runPasses_frame (l : Layout) (ps : List (Nat × Nat)) (s : State) :
    BusFrame s (runPasses l ps s).final := by
  induction ps generalizing s with
  | nil => exact BusFrame.refl s
  | cons p ps ih =>
    refine bind_frame (passLoop_frame l p.2 p.1 _ s) fun bs t _ => ?_
    exact bind_frame (ih t) fun bs' u _ => BusFrame.refl u

theorem pageLoop_sound {s : State} (l : Layout) (cur turns offset : Nat) (h : s.soundPorts) :
    ∃ r t, pageLoop l cur turns offset s = .done r t := by
  induction turns generalizing offset s with
  | zero => exact ⟨_, _, rfl⟩
  | succ n ih =>
    obtain ⟨v, t, ht⟩ := readAtOffset_sound l offset h
    have hf := readAtOffset_frame l offset s
    rw [ht, final_done] at hf
    have hs : (t.addToPage v).soundPorts := (hf.trans (addToPage_sumsOnly t v).frame).soundPorts h
    simp only [pageLoop, ht, txn_bind_done]
    split
    · exact ⟨_, _, rfl⟩
    · obtain ⟨r, u, hu⟩ := ih (offset + 1) hs
      exact ⟨_, _, by rw [hu]; rfl⟩

theorem passLoop_sound {s : State} (l : Layout) (pages cur offset : Nat) (h : s.soundPorts) :
    ∃ bs t, passLoop l pages cur offset s = .done bs t := by
  induction pages generalizing cur offset s with
  | zero => exact ⟨_, _, rfl⟩
  | succ n ih =>
    obtain ⟨r, t, ht⟩ := pageLoop_sound l cur (pageSize l) offset h
    have hf := pageLoop_frame l cur (pageSize l) offset s
    rw [ht, final_done] at hf
    simp only [passLoop, ht, txn_bind_done]
    obtain ⟨bs, u, hu⟩ := ih (resolveNat l r.2).1 r.2
      ((hf.trans (ifFold_sumsOnly
        (foldCondition t.config.foldBankRef l cur (resolveNat l r.2).1) t).frame).soundPorts h)
    exact ⟨_, _, by rw [hu]; rfl⟩

theorem runPasses_sound {s : State} (l : Layout) (ps : List (Nat × Nat)) (h : s.soundPorts) :
    ∃ bs t, runPasses l ps s = .done bs t := by
  induction ps generalizing s with
  | nil => exact ⟨_, _, rfl⟩
  | cons p ps ih =>
    obtain ⟨bs, t, ht⟩ := passLoop_sound l p.2 p.1 (p.1 * pageSize l) h
    have hf := passLoop_frame l p.2 p.1 (p.1 * pageSize l) s
    rw [ht, final_done] at hf
    obtain ⟨bs', u, hu⟩ := ih (hf.soundPorts h)
    exact ⟨bs ++ bs', u, by simp only [runPasses, ht, txn_bind_done, hu]⟩

theorem pageLoop_busAt {l : Layout} {cur turns offset : Nat} {s t : State} {r : List Byte × Nat}
    (h : pageLoop l cur turns offset s = .done r t) (hb : BusAt l s) : BusAt l t := by
  induction turns generalizing offset s r with
  | zero => cases h; exact hb
  | succ n ih =>
    obtain ⟨v, w, hw, ht⟩ := bind_eq_done h
    have hw := (addToPage_sumsOnly w v).busAt (readAtOffset_busAt hw hb.toCoherent)
    simp only at ht
    split at ht
    · cases ht; exact hw
    · obtain ⟨r', x, hx, hy⟩ := bind_eq_done ht
      cases hy
      exact ih hx hw

theorem passLoop_busAt {l : Layout} {pages cur offset : Nat} {s t : State} {bs : List Byte}
    (h : passLoop l pages cur offset s = .done bs t) (hb : BusAt l s) : BusAt l t := by
  induction pages generalizing cur offset s bs with
  | zero => cases h; exact hb
  | succ n ih =>
    obtain ⟨r, w, hw, ht⟩ := bind_eq_done h
    obtain ⟨bs', x, hx, hy⟩ := bind_eq_done ht
    cases hy
    exact ih hx ((ifFold_sumsOnly _ w).busAt (pageLoop_busAt hw hb))

theorem runPasses_busAt {l : Layout} {ps : List (Nat × Nat)} {s t : State} {bs : List Byte}
    (h : runPasses l ps s = .done bs t) (hb : BusAt l s) : BusAt l t := by
  induction ps generalizing s bs with
  | nil => cases h; exact hb
  | cons p ps ih =>
    obtain ⟨bs', w, hw, ht⟩ := bind_eq_done h
    obtain ⟨bs'', x, hx, hy⟩ := bind_eq_done ht
    cases hy
    exact ih hx (passLoop_busAt hw hb)

/-! ### The loop of an SRAM dump (45_dump_engine.md R210) -/

theorem sramLoop_frame (l : Layout) (a0 count sb sa : Nat) (s : State) :
    BusFrame s (sramLoop l a0 count sb sa s).final := by
  induction count generalizing sb sa s with
  | zero => exact BusFrame.refl s
  | succ n ih =>
    refine bind_frame (gotoBankStep_frame _ s) fun _ t _ => ?_
    refine bind_frame (gotoAddressStep_frame l _ t) fun _ u _ => ?_
    refine bind_frame (portRead_frame u) fun v w _ => ?_
    refine (addToRunning_sumsOnly w v).frame.trans ?_
    exact bind_frame (ih _ _ _) fun vs x _ => BusFrame.refl x

theorem sramLoop_sound {s : State} (l : Layout) (a0 count sb sa : Nat) (h : s.soundPorts) :
    ∃ bs t, sramLoop l a0 count sb sa s = .done bs t ∧ bs.length = count := by
  induction count generalizing sb sa s with
  | zero => exact ⟨[], s, rfl, rfl⟩
  | succ n ih =>
    obtain ⟨t, ht⟩ := gotoBankStep_sound (.ofNat 8 sb) h
    have f1 := gotoBankStep_frame (.ofNat 8 sb) s
    rw [ht, final_done] at f1
    obtain ⟨u, hu⟩ := gotoAddressStep_sound l (.ofNat 16 sa) (f1.soundPorts h)
    have f2 := gotoAddressStep_frame l (.ofNat 16 sa) t
    rw [hu, final_done] at f2
    have hr := portRead_sound (nowFails_of_soundPorts ((f1.trans f2).soundPorts h))
    have f3 := portRead_frame u
    rw [hr, final_done] at f3
    simp only [sramLoop, ht, hu, hr, txn_bind_done]
    obtain ⟨bs, x, hx, hl⟩ := ih (sramNext a0 sb sa).1 (sramNext a0 sb sa).2
      ((f1.trans (f2.trans (f3.trans (addToRunning_sumsOnly _ (dataByte u)).frame))).soundPorts h)
    exact ⟨_, x, by rw [hx, txn_bind_done], by simp [hl]⟩

theorem sramLoop_busAt {l : Layout} {a0 count sb sa : Nat} {s t : State} {bs : List Byte}
    (h : sramLoop l a0 count sb sa s = .done bs t) (hb : BusAt l s) : BusAt l t := by
  induction count generalizing sb sa s bs with
  | zero => cases h; exact hb
  | succ n ih =>
    obtain ⟨_, w, hw, h1⟩ := bind_eq_done h
    obtain ⟨_, x, hx, h2⟩ := bind_eq_done h1
    obtain ⟨v, y, hy, h3⟩ := bind_eq_done h2
    obtain ⟨vs, z, hz, h4⟩ := bind_eq_done h3
    cases h4
    have hbank : ∀ b, w.session.cachedBank = some b → w.session.bank = b := by
      intro b hb'
      simp [(gotoBankStep_done hw).1] at hb' ⊢
      exact hb'
    have hx := gotoAddressStep_busAt hx (gotoBankStep_coherent hw hb.toCoherent) hbank
    have hs := (portRead_once x).session
    have hp := portRead_ports x
    rw [hy, final_done] at hs hp
    have hy' : BusAt l y := by
      refine ⟨⟨?_, ?_, ?_⟩, ?_, ?_, ?_⟩
      · rw [hs, hp]; exact hx.upper
      · rw [hs, hp]; exact hx.lower
      · rw [hs, hp]; exact hx.bank
      · rw [hs]; exact hx.splitUpper
      · rw [hs]; exact hx.splitLower
      · rw [hs]; exact hx.bankRegister
    exact ih hz ((addToRunning_sumsOnly y v).busAt hy')

end Sys2Proof.Machine
end

