-- ==== Sys2Proof/Laws/Bus.lean ====
section
/-! SUPPORT. The bus address a positioning drives, the byte read there, and what a done sequence says of the failures of
the environment. -/

namespace Sys2Proof.Machine

/-! ### The address split and the bus address, as numbers (20_memory.md R42, 41_address_bus.md R111) -/

theorem upperByte_toNat (l : Layout) (a : Address) :
    (upperByte l a).toNat = match l with
      | .lowROM => 128 + a.toNat / 256 % 128
      | .highROM => a.toNat / 256 := by
  have ha := a.isLt
  cases l with
  | highROM => simp [upperByte, Nat.shiftRight_eq_div_pow]; omega
  | lowROM =>
    have h : ∀ n : Fin 256, (BitVec.ofNat 8 n.val ||| 0x80#8).toNat = 128 + n.val % 128 := by decide +kernel
    have e : a.extractLsb' 8 8 = BitVec.ofNat 8 (a.toNat / 256) := by
      apply BitVec.eq_of_toNat_eq
      simp [Nat.shiftRight_eq_div_pow]
    simp only [upperByte, e]
    exact h ⟨a.toNat / 256, by omega⟩

theorem lowerByte_toNat (a : Address) : (lowerByte a).toNat = a.toNat % 256 := by
  simp [lowerByte]

theorem busAddress_toNat (p : Ports) :
    (busAddress p).toNat = p.bank.out.toNat * 65536 + p.aHi.out.toNat * 256 + p.aLo.out.toNat := by
  have h1 := p.aHi.out.isLt
  have h2 := p.aLo.out.isLt
  rw [busAddress, BitVec.toNat_append, BitVec.toNat_append, ← Nat.shiftLeft_add_eq_or_of_lt h2,
    ← Nat.shiftLeft_add_eq_or_of_lt h1, Nat.shiftLeft_eq, Nat.shiftLeft_eq]
  omega

theorem busAddress_of_offset {l : Layout} {o : Nat} {p : Ports} (ho : o < 256 * pageSize l)
    (hb : p.bank.out = (mapBankAddress l o).1) (hu : p.aHi.out = upperByte l (mapBankAddress l o).2)
    (hl : p.aLo.out = lowerByte (mapBankAddress l o).2) : busAddress p = busOfOffset l o := by
  apply BitVec.eq_of_toNat_eq
  rw [busAddress_toNat, hb, hu, hl, upperByte_toNat, lowerByte_toNat]
  cases l <;>
    simp only [mapBankAddress, resolveNat, pageSize, busOfOffset, BitVec.toNat_ofNat] at ho ⊢ <;> omega

theorem busAddress_of_bankAddress {l : Layout} {b a : Nat} {p : Ports} (ha : a < 65536)
    (hb : p.bank.out = .ofNat 8 b) (hu : p.aHi.out = upperByte l (.ofNat 16 a))
    (hl : p.aLo.out = lowerByte (.ofNat 16 a)) : busAddress p = busOfBankAddress l b a := by
  apply BitVec.eq_of_toNat_eq
  rw [busAddress_toNat, hb, hu, hl, upperByte_toNat, lowerByte_toNat]
  cases l <;> simp only [busOfBankAddress, BitVec.toNat_ofNat] <;> omega

/-- A done positioned read of an offset for which a steady cartridge lists a byte returns that byte. -/
theorem readAtOffset_value {l : Layout} {o : Nat} {s t : State} {v b : Byte}
    (h : readAtOffset l o s = .done v t) (hc : Coherent s) (hs : s.steadyCart) (ho : o < 256 * pageSize l)
    (hb : s.cartAt s.session.ctrl (busOfOffset l o) = some b) : v = b := by
  obtain ⟨_, hp, w, hw, hv, hpw, hsw, _⟩ := readAtOffset_done h
  obtain ⟨_, p1, p2, p3⟩ := hp hc
  rw [hpw] at p1 p2 p3
  have hf := gotoOffsetStep_frame l o s
  rw [hw, final_done] at hf
  rw [hv]
  refine dataByte_of_cart (readByte_answers_steady (hf.steadyCart hs)) ?_
  rw [State.cartAt, hf.ctrl, hf.cart, busAddress_of_offset ho p1 p2 p3]
  exact hb

/-! ### A done sequence met no failure (10_state.md R36) -/

/-- None of the transactions made from `s` to `t` was to fail. -/
def Unfailed (s t : State) : Prop :=
  t.env.failing = s.env.failing ∧ s.env.txn ≤ t.env.txn ∧
    ∀ k ∈ s.env.failing, k < s.env.txn ∨ t.env.txn ≤ k

theorem unfailed_refl (s : State) : Unfailed s s :=
  ⟨rfl, Nat.le_refl _, fun k _ => Nat.lt_or_ge k s.env.txn⟩

theorem Unfailed.trans {s t u : State} (h : Unfailed s t) (k : Unfailed t u) : Unfailed s u := by
  refine ⟨k.1.trans h.1, Nat.le_trans h.2.1 k.2.1, fun n hn => ?_⟩
  have a := h.2.2 n hn
  have b := k.2.2 n (h.1.symm ▸ hn)
  omega

theorem unfailed_of_env {s t : State} (h : t.env = s.env) : Unfailed s t :=
  ⟨by rw [h], by rw [h], fun k _ => by rw [h]; exact Nat.lt_or_ge k _⟩

theorem unfailed_one {s t : State} (hn : nowFails s = false) (hf : t.env.failing = s.env.failing)
    (ht : t.env.txn = s.env.txn + 1) : Unfailed s t := by
  refine ⟨hf, by omega, fun k hk => ?_⟩
  have : k ≠ s.env.txn := fun h => by simp [nowFails, ← h, hk] at hn
  omega

theorem portWrite_unfailed {p : PortId} {v : Byte} {s t : State} {u : Unit} (h : portWrite p v s = .done u t) :
    Unfailed s t := by
  cases hn : nowFails s with
  | true => rw [portWrite_fails p v hn] at h; cases h
  | false =>
    have := portWrite_once p v s
    rw [h] at this
    exact unfailed_one hn this.failing this.txn

theorem debouncedWrite_unfailed {p : PortId} {c : Option Byte} {v : Byte} {s t : State} {u : Unit}
    (h : debouncedWrite p c v s = .done u t) : Unfailed s t := by
  unfold debouncedWrite at h
  split at h
  · cases h; exact unfailed_refl s
  · exact portWrite_unfailed h

theorem gotoBankStep_unfailed {b : Byte} {s t : State} {u : Unit} (h : gotoBankStep b s = .done u t) :
    Unfailed s t := by
  obtain ⟨_, w, hw, ht⟩ := bind_eq_done h
  cases ht
  exact (debouncedWrite_unfailed hw).trans (unfailed_of_env rfl)

theorem gotoAddressStep_unfailed {l : Layout} {a : Address} {s t : State} {u : Unit}
    (h : gotoAddressStep l a s = .done u t) : Unfailed s t := by
  obtain ⟨_, w, hw, ht⟩ := bind_eq_done h
  obtain ⟨_, x, hx, hy⟩ := bind_eq_done ht
  cases hy
  exact ((debouncedWrite_unfailed hw).trans (unfailed_of_env rfl)).trans
    ((debouncedWrite_unfailed hx).trans (unfailed_of_env rfl))

theorem gotoOffsetStep_unfailed {l : Layout} {o : Nat} {s t : State} {u : Unit}
    (h : gotoOffsetStep l o s = .done u t) : Unfailed s t := by
  obtain ⟨_, w, hw, ht⟩ := bind_eq_done h
  obtain ⟨_, x, hx, hy⟩ := bind_eq_done ht
  cases hy
  exact ((gotoBankStep_unfailed hw).trans (gotoAddressStep_unfailed hx)).trans (unfailed_of_env rfl)

/-- A done read made at least one transaction, its own. -/
theorem portRead_unfailed {s t : State} {v : Byte} (h : portRead s = .done v t) :
    Unfailed s t ∧ s.env.txn + 1 ≤ t.env.txn := by
  cases hn : nowFails s with
  | true => rw [portRead_fails hn] at h; cases h
  | false =>
    have := portRead_once s
    rw [h, final_done] at this
    exact ⟨unfailed_one hn this.failing this.txn, Nat.le_of_eq this.txn.symm⟩

theorem readAtOffset_unfailed {l : Layout} {o : Nat} {s t : State} {v : Byte}
    (h : readAtOffset l o s = .done v t) : Unfailed s t ∧ s.env.txn + 1 ≤ t.env.txn := by
  obtain ⟨_, w, hw, ht⟩ := bind_eq_done h
  have a := gotoOffsetStep_unfailed hw
  obtain ⟨b, c⟩ := portRead_unfailed ht
  exact ⟨a.trans b, Nat.le_trans (Nat.succ_le_succ a.2.1) c⟩

/-- A done inner loop made a transaction for each byte it answers, none of them failing. -/
theorem pageLoop_unfailed {l : Layout} {cur turns offset : Nat} {s t : State} {r : List Byte × Nat}
    (h : pageLoop l cur turns offset s = .done r t) : Unfailed s t ∧ s.env.txn + r.1.length ≤ t.env.txn := by
  induction turns generalizing offset s r with
  | zero => cases h; exact ⟨unfailed_refl _, Nat.le_refl _⟩
  | succ n ih =>
    obtain ⟨v, w, hw, ht⟩ := bind_eq_done h
    obtain ⟨a, b⟩ := readAtOffset_unfailed hw
    have a := a.trans (unfailed_of_env (t := w.addToPage v) rfl)
    simp only at ht
    split at ht
    · cases ht; exact ⟨a, b⟩
    · obtain ⟨r', x, hx, hy⟩ := bind_eq_done ht
      cases hy
      obtain ⟨c, d⟩ := ih hx
      refine ⟨a.trans c, ?_⟩
      have d : w.env.txn + r'.1.length ≤ t.env.txn := d
      simp only [List.length_cons]
      omega

theorem passLoop_unfailed {l : Layout} {pages cur offset : Nat} {s t : State} {bs : List Byte}
    (h : passLoop l pages cur offset s = .done bs t) : Unfailed s t ∧ s.env.txn + bs.length ≤ t.env.txn := by
  induction pages generalizing cur offset s bs with
  | zero => cases h; exact ⟨unfailed_refl _, Nat.le_refl _⟩
  | succ n ih =>
    obtain ⟨r, w, hw, ht⟩ := bind_eq_done h
    obtain ⟨bs', x, hx, hy⟩ := bind_eq_done ht
    cases hy
    obtain ⟨a, b⟩ := pageLoop_unfailed hw
    obtain ⟨c, d⟩ := ih hx
    have e : (if foldCondition w.config.foldBankRef l cur (resolveNat l r.2).1 then w.fold else w).env = w.env := by
      split <;> rfl
    rw [e] at d
    refine ⟨a.trans ((unfailed_of_env e).trans c), ?_⟩
    simp only [List.length_append]
    omega

theorem sramLoop_unfailed {l : Layout} {a0 count sb sa : Nat} {s t : State} {bs : List Byte}
    (h : sramLoop l a0 count sb sa s = .done bs t) : Unfailed s t ∧ s.env.txn + bs.length ≤ t.env.txn := by
  induction count generalizing sb sa s bs with
  | zero => cases h; exact ⟨unfailed_refl _, Nat.le_refl _⟩
  | succ n ih =>
    obtain ⟨_, w, hw, h1⟩ := bind_eq_done h
    obtain ⟨_, x, hx, h2⟩ := bind_eq_done h1
    obtain ⟨v, y, hy, h3⟩ := bind_eq_done h2
    obtain ⟨vs, z, hz, h4⟩ := bind_eq_done h3
    cases h4
    have a := (gotoBankStep_unfailed hw).trans (gotoAddressStep_unfailed hx)
    obtain ⟨b, c⟩ := portRead_unfailed hy
    obtain ⟨d, e⟩ := ih hz
    refine ⟨(a.trans b).trans ((unfailed_of_env rfl).trans d), ?_⟩
    have e : y.env.txn + vs.length ≤ t.env.txn := e
    have := a.2.1
    simp only [List.length_cons]
    omega

end Sys2Proof.Machine
end

