-- ==== Sys2Proof/Laws/Failures.lean ====
section
/-! SUPPORT. A sequence of port transactions beside the same sequence in an environment that fails nothing: the two agree up
to the first failure, and there the one stops (60_exceptions.md R236). -/

namespace Sys2Proof.Machine

theorem withoutFailures_eq {s : State} (h : s.env.failing = []) : s.withoutFailures = s := by
  cases s with
  | mk c se ph p e ho => cases e; simp only at h; subst h; rfl

/-- What two runs of one sequence from `s` come to, `r` with the failures of the environment and `r0` without: `r0` is
done; `r` either is done too, in the same state but for the failures, having met none, or stopped at the first
failing transaction, with the events of `r0` before it. -/
structure Parallel {α : Type} (s : State) (r r0 : Txn α) : Prop where
  frame : BusFrame s r.final
  soundFrame : BusFrame s.withoutFailures r0.final
  outcome : ∃ a t0, r0 = .done a t0 ∧
    ((∃ t, r = .done a t ∧ t0 = t.withoutFailures ∧ Unfailed s t) ∨
      ∃ t e es later, r = .failed t ∧ t.env.trace = e :: (es ++ s.env.trace) ∧ e.succeeded = false ∧
        (∀ p w, Event.lines p w ∉ e :: es) ∧ t.env.txn = s.env.txn + es.length + 1 ∧
        t0.env.trace = later ++ (es ++ s.env.trace) ∧ s.firstFailure es.length ∧
        s.env.txn + es.length < t0.env.txn)

/-- Stops only at a failure, and there at once. -/
def Precise {α : Type} (f : State → Txn α) : Prop :=
  ∀ s, Parallel s (f s) (f s.withoutFailures)

/-- An update that no failure touches. -/
theorem precise_update {α : Type} (a : α) {f : State → State} (hf : ∀ s, BusFrame s (f s))
    (he : ∀ s, (f s).env = s.env) (hc : ∀ s, f s.withoutFailures = (f s).withoutFailures) :
    Precise fun s => .done a (f s) := fun s =>
  ⟨hf s, hf _, a, _, rfl, .inl ⟨f s, rfl, hc s, unfailed_of_env (he s)⟩⟩

/-- One transaction after the other. -/
theorem precise_bind {α β : Type} {f : State → Txn α} {k : α → State → Txn β} (hf : Precise f)
    (hk : ∀ a, Precise (k a)) : Precise fun s => (f s).bind k := by
  intro s
  show Parallel s ((f s).bind k) ((f s.withoutFailures).bind k)
  obtain ⟨hfr, hfr0, a, t0, h0, h⟩ := hf s
  rcases h with ⟨t, ht, rfl, hu⟩ | ⟨t, e, es, later, ht, htr, hes, hl, hn, h0tr, hff, hlt⟩
  · obtain ⟨gfr, gfr0, b, u0, g0, g⟩ := hk a t
    rw [ht, final_done] at hfr
    rw [h0, final_done] at hfr0
    refine ⟨by rw [ht]; exact hfr.trans gfr, by rw [h0]; exact hfr0.trans gfr0, b, u0, by rw [h0]; exact g0, ?_⟩
    rcases g with ⟨u, hu', rfl, gu⟩ | ⟨u, e, es, later, hu', gtr, ges, gl, gn, g0tr, gff, glt⟩
    · exact .inl ⟨u, by rw [ht]; exact hu', rfl, hu.trans gu⟩
    · obtain ⟨ds, hd, hdn, hdl⟩ := hfr.trace
      refine .inr ⟨u, e, es ++ ds, later, by rw [ht]; exact hu', by rw [gtr, hd, List.append_assoc], ges, ?_, ?_,
        by rw [g0tr, hd, List.append_assoc], ⟨?_, ?_⟩, ?_⟩
      · intro p w hm
        rcases List.mem_cons.mp hm with hm | hm
        · exact gl p w (hm ▸ List.mem_cons_self)
        · rcases List.mem_append.mp hm with hm | hm
          · exact gl p w (List.mem_cons_of_mem _ hm)
          · exact hdl p w hm
      · rw [gn, hdn, List.length_append]; omega
      · have := gff.1
        rw [hfr.failing, hdn] at this
        rw [List.length_append, Nat.add_comm es.length, ← Nat.add_assoc]
        exact this
      · intro j hj hm
        have h1 := hu.2.2 _ hm
        rw [List.length_append] at hj
        refine gff.2 (s.env.txn + j - t.env.txn) (by omega) ?_
        rw [hfr.failing]
        have : t.env.txn + (s.env.txn + j - t.env.txn) = s.env.txn + j := by omega
        rwa [this]
      · rw [List.length_append]; omega
  · rw [h0, final_done] at hfr0
    have hz : t0.withoutFailures = t0 := withoutFailures_eq hfr0.failing
    obtain ⟨gfr, gfr0, b, u0, g0, _⟩ := hk a t0
    rw [hz] at g0 gfr0
    rw [ht, final_failed] at hfr
    refine ⟨by rw [ht]; exact hfr, by rw [h0]; exact hfr0.trans gfr0, b, u0, by rw [h0]; exact g0, ?_⟩
    rw [g0, final_done] at gfr0
    obtain ⟨ds, hd, _, _⟩ := gfr0.trace
    refine .inr ⟨t, e, es, ds ++ later, by rw [ht]; rfl, htr, hes, hl, hn, by rw [hd, h0tr, List.append_assoc], hff, ?_⟩
    exact Nat.lt_of_lt_of_le hlt gfr0.txn

/-- A transaction that is precise by itself: done exactly when it is not to fail. -/
theorem parallel_one {α : Type} {s t t0 : State} {r r0 : Txn α} {a : α} {e : Event} (h0 : r0 = .done a t0)
    (hfr : BusFrame s r.final) (hfr0 : BusFrame s.withoutFailures t0) (htxn : t0.env.txn = s.env.txn + 1)
    (hdone : nowFails s = false → r = .done a t ∧ t0 = t.withoutFailures ∧ t.env.txn = s.env.txn + 1)
    (hfail : nowFails s = true → ∃ u, r = .failed u ∧ u.env.trace = e :: s.env.trace ∧ u.env.txn = s.env.txn + 1)
    (he : e.succeeded = false) (hel : ∀ p w, e ≠ .lines p w) : Parallel s r r0 := by
  obtain ⟨ds, hd, hdn, _⟩ := hfr0.trace
  refine ⟨hfr, by rw [h0]; exact hfr0, a, t0, h0, ?_⟩
  cases hn : nowFails s with
  | false =>
    obtain ⟨hr, ht, htn⟩ := hdone hn
    rw [hr, final_done] at hfr
    exact .inl ⟨t, hr, ht, unfailed_one hn hfr.failing htn⟩
  | true =>
    obtain ⟨u, hu, hut, hun⟩ := hfail hn
    refine .inr ⟨u, e, [], ds, hu, hut, he, ?_, hun, hd, ⟨nowFails_eq_true.mp hn, by simp⟩, by
      simp only [List.length_nil]; omega⟩
    intro p w hm
    exact hel p w (List.mem_singleton.mp hm).symm

theorem precise_portWrite {p : PortId} (hp : p ≠ .data) (v : Byte) : Precise (portWrite p v) := by
  intro s
  have hfr0 := portWrite_frame hp v s.withoutFailures
  have h0 : nowFails s.withoutFailures = false := rfl
  rw [portWrite_sound p v h0, final_done] at hfr0
  refine parallel_one (a := ()) (e := .write p v false) (portWrite_sound p v h0) (portWrite_frame hp v s) hfr0
    (by simp [State.withoutFailures]) (fun hn => ⟨portWrite_sound p v hn, by cases p <;> rfl, by simp⟩)
    (fun hn => ⟨_, portWrite_fails p v hn, by simp, by simp⟩) rfl (by intros; simp)

theorem precise_portRead : Precise portRead := by
  intro s
  have hfr0 := portRead_frame s.withoutFailures
  have h0 : nowFails s.withoutFailures = false := rfl
  rw [portRead_sound h0, final_done] at hfr0
  exact parallel_one (a := dataByte s) (e := .read s.session.ctrl (busAddress s.ports) none) (portRead_sound h0)
    (portRead_frame s) hfr0 rfl (fun hn => ⟨portRead_sound hn, rfl, rfl⟩)
    (fun hn => ⟨_, portRead_fails hn, rfl, rfl⟩) rfl (by intros; simp)

/-- A debounced write, the cache being a register. -/
theorem precise_debouncedWrite {p : PortId} (hp : p ≠ .data) (c : Session → Option Byte) (v : Byte) :
    Precise fun s => debouncedWrite p (c s.session) v s := by
  intro s
  show Parallel s (debouncedWrite p (c s.session) v s) (debouncedWrite p (c s.session) v s.withoutFailures)
  unfold debouncedWrite
  split
  · exact precise_update () (fun s => BusFrame.refl s) (fun _ => rfl) (fun _ => rfl) s
  · exact precise_portWrite hp v s

theorem precise_gotoBankStep (b : Byte) : Precise (gotoBankStep b) :=
  precise_bind (precise_debouncedWrite (by decide) Session.cachedBank b) fun _ =>
    precise_update () (fun s => by constructor <;> first | exact traffic_of_env rfl | simp) (fun _ => rfl) (fun _ => rfl)

theorem precise_gotoAddressStep (l : Layout) (a : Address) : Precise (gotoAddressStep l a) := by
  refine precise_bind (precise_debouncedWrite (by decide) Session.cachedUpperByte _) fun _ => ?_
  have h1 : Precise fun s : State => Txn.done () (s.setCachedUpper (upperByte l a)) :=
    precise_update () (fun s => by constructor <;> first | exact traffic_of_env rfl | simp) (fun _ => rfl) (fun _ => rfl)
  exact precise_bind (k := fun _ s => (debouncedWrite .aLo s.session.cachedLowerByte (lowerByte a) s).bind
      fun _ s => .done () (s.setAddress (lowerByte a) a)) h1 fun _ =>
    precise_bind (precise_debouncedWrite (by decide) Session.cachedLowerByte _) fun _ =>
      precise_update () (fun s => by constructor <;> first | exact traffic_of_env rfl | simp) (fun _ => rfl)
        (fun _ => rfl)

theorem precise_gotoOffsetStep (l : Layout) (o : Nat) : Precise (gotoOffsetStep l o) :=
  precise_bind (precise_gotoBankStep _) fun _ => precise_bind (precise_gotoAddressStep l _) fun _ =>
    precise_update () (fun s => by constructor <;> first | exact traffic_of_env rfl | simp) (fun _ => rfl) (fun _ => rfl)

theorem precise_readAtOffset (l : Layout) (o : Nat) : Precise (readAtOffset l o) :=
  precise_bind (precise_gotoOffsetStep l o) fun _ => precise_portRead

theorem precise_done {α : Type} (a : α) : Precise fun s => Txn.done a s :=
  precise_update a (fun s => BusFrame.refl s) (fun _ => rfl) (fun _ => rfl)

theorem precise_readAscending (l : Layout) (count offset : Nat) : Precise (readAscending l count offset) := by
  induction count generalizing offset with
  | zero => exact precise_done []
  | succ n ih =>
    exact precise_bind (precise_readAtOffset l offset) fun v => precise_bind (ih _) fun vs => precise_done _

/-- An update of accumulators, then the rest. -/
theorem precise_after {β : Type} {f : State → State} {k : State → Txn β} (hf : ∀ s, SumsOnly s (f s))
    (hc : ∀ s, f s.withoutFailures = (f s).withoutFailures) (hk : Precise k) : Precise fun s => k (f s) :=
  precise_bind (precise_update () (fun s => (hf s).frame) (fun s => (hf s).env) hc) fun _ => hk

theorem precise_pageLoop (l : Layout) (cur turns offset : Nat) : Precise (pageLoop l cur turns offset) := by
  induction turns generalizing offset with
  | zero => exact precise_done _
  | succ n ih =>
    refine precise_bind (precise_readAtOffset l offset) fun v => ?_
    refine precise_after (fun s => addToPage_sumsOnly s v) (fun _ => rfl)
      (k := fun s => if (resolveNat l (offset + 1)).1 ≠ cur then .done ([v], offset + 1) s
        else (pageLoop l cur n (offset + 1) s).bind fun r s => .done (v :: r.1, r.2) s) ?_
    by_cases h : (resolveNat l (offset + 1)).1 ≠ cur
    · simp only [if_pos h]; exact precise_done _
    · simp only [if_neg h]; exact precise_bind (ih _) fun r => precise_done _

theorem precise_passLoop (l : Layout) (pages cur offset : Nat) : Precise (passLoop l pages cur offset) := by
  induction pages generalizing cur offset with
  | zero => exact precise_done _
  | succ n ih =>
    refine precise_bind (precise_pageLoop l cur (pageSize l) offset) fun r => ?_
    refine precise_after
      (f := fun s => if foldCondition s.config.foldBankRef l cur (resolveNat l r.2).1 then s.fold else s)
      (k := fun s => (passLoop l n (resolveNat l r.2).1 r.2 s).bind fun rest s => .done (r.1 ++ rest) s)
      (fun s => ifFold_sumsOnly _ s) (fun s => ?_) (precise_bind (ih _ _) fun bs => precise_done _)
    show (if foldCondition s.config.foldBankRef l cur (resolveNat l r.2).1 then _ else _) = _
    split <;> rfl

theorem precise_runPasses (l : Layout) (ps : List (Nat × Nat)) : Precise (runPasses l ps) := by
  induction ps with
  | nil => exact precise_done _
  | cons p ps ih =>
    exact precise_bind (precise_passLoop l p.2 p.1 _) fun bs => precise_bind ih fun bs' => precise_done _

theorem precise_sramLoop (l : Layout) (a0 count sb sa : Nat) : Precise (sramLoop l a0 count sb sa) := by
  induction count generalizing sb sa with
  | zero => exact precise_done _
  | succ n ih =>
    refine precise_bind (precise_gotoBankStep _) fun _ => precise_bind (precise_gotoAddressStep l _) fun _ =>
      precise_bind precise_portRead fun v => ?_
    exact precise_after (fun s => addToRunning_sumsOnly s v) (fun _ => rfl)
      (k := fun s => (sramLoop l a0 n (sramNext a0 sb sa).1 (sramNext a0 sb sa).2 s).bind
        fun vs s => .done (v :: vs) s) (precise_bind (ih _ _) fun vs => precise_done _)

end Sys2Proof.Machine
end

