-- ==== Sys2Proof/Laws/PerInstr.lean ====
section
/-! SUPPORT. The family `EncodedFields`: for each instruction, its word as a number, field by field. -/

namespace Sys2Proof

theorem layoutBit_lt (l : Layout) : layoutBit l < 2 := by
  cases l <;> decide

/-- A word assembled from fields in range is the number they make up: nothing wraps. -/
theorem assemble_toNat {op l a : Nat} (ho : op < 16) (hl : l < 2) (ha : a < 2 ^ 32) :
    (assemble op l a).toNat = op * 2 ^ 36 + l * 2 ^ 32 + a := by
  simp only [assemble, BitVec.toNat_ofNat]
  omega

/-- The fields of an assembled word. -/
theorem assemble_fields {op l a : Nat} (ho : op < 16) (hl : l < 2) (ha : a < 2 ^ 32) :
    bitSlice (assemble op l a) 39 36 = op ∧ bitSlice (assemble op l a) 35 33 = 0 ∧
    bitSlice (assemble op l a) 32 32 = l ∧ bitSlice (assemble op l a) 31 0 = a := by
  simp only [bitSlice, assemble_toNat ho hl ha]
  omega

/-- The `op` field of each operation (30_encoding.md R71). -/
def Instr.opcode : Instr → Nat
  | .sessionOpen => 0x0
  | .quiesce => 0x1
  | .applyWord _ => 0x2
  | .gotoAddress _ => 0x3
  | .gotoBank _ => 0x4
  | .readData => 0x5
  | .mapOffset _ _ => 0x6
  | .unmapAddress _ _ _ => 0x7
  | .gotoOffset _ => 0x8
  | .validate _ _ => 0x9
  | .parseHeader => 0xA
  | .decodeRomSize _ => 0xB
  | .pageCount _ _ => 0xC
  | .romPages _ => 0xD
  | .dumpRom _ _ => 0xE
  | .dumpSram _ _ => 0xF

/-- The word of a well-formed instruction has the operation's number in `op`, 0 in `z`, one bit of layout and 32 bits
of operands, and is the number these make up (30_encoding.md R70, R71). -/
def Laws.EncodedFields.Statement (i : Instr) : Prop :=
  i.wellFormed = true →
    ∃ l a, l < 2 ∧ a < 2 ^ 32 ∧ (encode i).toNat = i.opcode * 2 ^ 36 + l * 2 ^ 32 + a ∧
      bitSlice (encode i) 39 36 = i.opcode ∧ bitSlice (encode i) 35 33 = 0 ∧
      bitSlice (encode i) 32 32 = l ∧ bitSlice (encode i) 31 0 = a

namespace Laws.EncodedFields

theorem ofAssemble {i : Instr} (l a : Nat) (he : encode i = assemble i.opcode l a) (ho : i.opcode < 16)
    (hl : l < 2) (ha : a < 2 ^ 32) : Statement i :=
  fun _ => ⟨l, a, hl, ha, by rw [he]; exact ⟨assemble_toNat ho hl ha, assemble_fields ho hl ha⟩⟩

theorem sessionOpen : Statement .sessionOpen :=
  ofAssemble 0 0 rfl (by decide) (by decide) (by decide)

theorem quiesce : Statement .quiesce :=
  ofAssemble 0 0 rfl (by decide) (by decide) (by decide)

theorem applyWord (word : Byte) : Statement (.applyWord word) :=
  ofAssemble 0 word.toNat rfl (by simp [Instr.opcode]) (by decide) (by omega)

theorem gotoAddress (addr : BitVec 17) : Statement (.gotoAddress addr) :=
  ofAssemble 0 addr.toNat rfl (by simp [Instr.opcode]) (by decide) (by omega)

theorem gotoBank (bank : Byte) : Statement (.gotoBank bank) :=
  ofAssemble 0 bank.toNat rfl (by simp [Instr.opcode]) (by decide) (by omega)

theorem readData : Statement .readData :=
  ofAssemble 0 0 rfl (by decide) (by decide) (by decide)

theorem mapOffset (offset : Offset) (layout : Layout) : Statement (.mapOffset offset layout) :=
  ofAssemble (layoutBit layout) offset.toNat rfl (by simp [Instr.opcode]) (layoutBit_lt layout) (by omega)

theorem unmapAddress (bank : Byte) (addr : Address) (layout : Layout) :
    Statement (.unmapAddress bank addr layout) :=
  ofAssemble (layoutBit layout) (bank.toNat * 2 ^ 16 + addr.toNat) rfl (by simp [Instr.opcode])
    (layoutBit_lt layout) (by omega)

theorem gotoOffset (offset : Offset) : Statement (.gotoOffset offset) :=
  ofAssemble 0 offset.toNat rfl (by simp [Instr.opcode]) (by decide) (by omega)

theorem validate (checksum inverseChecksum : Checksum) : Statement (.validate checksum inverseChecksum) :=
  ofAssemble 0 (checksum.toNat * 2 ^ 16 + inverseChecksum.toNat) rfl (by simp [Instr.opcode]) (by decide)
    (by omega)

theorem parseHeader : Statement .parseHeader :=
  ofAssemble 0 0 rfl (by decide) (by decide) (by decide)

theorem decodeRomSize (code : Byte) : Statement (.decodeRomSize code) :=
  ofAssemble 0 code.toNat rfl (by simp [Instr.opcode]) (by decide) (by omega)

theorem pageCount (romSize : Nat) (layout : Layout) : Statement (.pageCount romSize layout) := fun h =>
  ofAssemble (i := .pageCount romSize layout) (layoutBit layout) romSize rfl (by simp [Instr.opcode])
    (layoutBit_lt layout) (by simpa [Instr.wellFormed] using h) h

theorem romPages (code : Byte) : Statement (.romPages code) :=
  ofAssemble 0 code.toNat rfl (by simp [Instr.opcode]) (by decide) (by omega)

theorem dumpRom (startBank : Byte) (pages : Nat) : Statement (.dumpRom startBank pages) := fun h =>
  ofAssemble (i := .dumpRom startBank pages) 0 (startBank.toNat * 2 ^ 16 + pages) rfl (by simp [Instr.opcode])
    (by decide) (by have : pages < 2 ^ 16 := by simpa [Instr.wellFormed] using h
                    omega) h

theorem dumpSram (sramSizeCode romSizeCode : Byte) : Statement (.dumpSram sramSizeCode romSizeCode) :=
  ofAssemble 0 (sramSizeCode.toNat * 2 ^ 8 + romSizeCode.toNat) rfl (by simp [Instr.opcode]) (by decide)
    (by omega)

end Laws.EncodedFields

end Sys2Proof
end

