-- ==== Sys2Proof/Machine/Assembler.lean ====
section
/-! DEFINITION. The assembler syntax (spec/30_encoding.md R86): one line of text to one instruction. No rule of the
machine depends on it; a host that writes text turns it into command words with it. -/

namespace Sys2Proof.Machine

/-- An operand as written (30_encoding.md R86): a number, or `LOW` / `HIGH`. -/
inductive AsmOperand where
  | number (n : Nat)
  | layout (l : Layout)
  deriving DecidableEq, Repr

/-- What a line of text is. -/
inductive AsmLine where
  /-- nothing but space and comment -/
  | blank
  /-- one command -/
  | command (i : Instr)
  /-- not in the syntax -/
  | malformed
  deriving DecidableEq, Repr

/-- Without the space at both ends. -/
def trimSpace (cs : List Char) : List Char :=
  ((cs.dropWhile Char.isWhitespace).reverse.dropWhile Char.isWhitespace).reverse

/-- The value of a digit character in a base, if it is one. -/
def digitValue (base : Nat) (c : Char) : Option Nat :=
  let n :=
    if '0' ≤ c ∧ c ≤ '9' then some (c.toNat - '0'.toNat)
    else if 'a' ≤ c ∧ c ≤ 'f' then some (c.toNat - 'a'.toNat + 10)
    else if 'A' ≤ c ∧ c ≤ 'F' then some (c.toNat - 'A'.toNat + 10)
    else none
  n.filter (· < base)

/-- The number a non-empty list of digits stands for, most significant first. -/
def digitsValue (base : Nat) (cs : List Char) : Option Nat :=
  if cs.isEmpty then none
  else cs.foldl (fun acc c => acc.bind fun n => (digitValue base c).map fun d => n * base + d) (some 0)

/-- "Numbers are decimal or `0x` hexadecimal" (30_encoding.md R86). -/
def asmNumber : List Char → Option Nat
  | '0' :: 'x' :: ds => digitsValue 16 ds
  | ds => digitsValue 10 ds

/-- One operand (30_encoding.md R86). -/
def asmOperand (cs : List Char) : Option AsmOperand :=
  let t := trimSpace cs
  if t = "LOW".toList then some (.layout .lowROM)
  else if t = "HIGH".toList then some (.layout .highROM)
  else (asmNumber t).map .number

/-- The pieces between commas. -/
def splitCommas : List Char → List (List Char)
  | [] => [[]]
  | c :: cs =>
    match splitCommas cs with
    | [] => [[c]]
    | p :: ps => if c = ',' then [] :: p :: ps else (c :: p) :: ps

/-- A number as a field of `width` bits, if it fits (30_encoding.md R71: no operand is truncated). -/
def asmField (width n : Nat) : Option (BitVec width) :=
  if n < 2 ^ width then some (.ofNat width n) else none

/-- The instruction of a mnemonic and its operands, in the order of 30_encoding.md R71. -/
def asmInstr (mnemonic : List Char) (operands : List AsmOperand) : Option Instr :=
  let is (m : String) : Bool := mnemonic = m.toList
  match operands with
  | [] =>
    if is "SESSION_OPEN" then some .sessionOpen
    else if is "QUIESCE" then some .quiesce
    else if is "READ_DATA" then some .readData
    else if is "PARSE_HEADER" then some .parseHeader
    else none
  | [.number a] =>
    if is "APPLY" then (asmField 8 a).map .applyWord
    else if is "GOTO_ADDRESS" then (asmField 17 a).map .gotoAddress
    else if is "GOTO_BANK" then (asmField 8 a).map .gotoBank
    else if is "GOTO_OFFSET" then (asmField 32 a).map .gotoOffset
    else if is "DECODE_ROM_SIZE" then (asmField 8 a).map .decodeRomSize
    else if is "ROM_PAGES" then (asmField 8 a).map .romPages
    else none
  | [.number a, .number b] =>
    if is "VALIDATE" then
      (asmField 16 a).bind fun c => (asmField 16 b).map fun i => .validate c i
    else if is "DUMP_ROM" then
      (asmField 8 a).bind fun o => (asmField 16 b).map fun n => .dumpRom o n.toNat
    else if is "DUMP_SRAM" then
      (asmField 8 a).bind fun s => (asmField 8 b).map fun r => .dumpSram s r
    else none
  | [.number a, .layout l] =>
    if is "MAP" then (asmField 32 a).map fun o => .mapOffset o l
    else if is "PAGE_COUNT" then (asmField 32 a).map fun n => .pageCount n.toNat l
    else none
  | [.number a, .number b, .layout l] =>
    if is "UNMAP" then
      (asmField 8 a).bind fun k => (asmField 16 b).map fun x => .unmapAddress k x l
    else none
  | _ => none

/-- One line (30_encoding.md R86): a comment runs from `;` to the end. -/
def asmLine (line : String) : AsmLine :=
  let text := trimSpace (line.toList.takeWhile (· ≠ ';'))
  if text.isEmpty then .blank
  else
    let mnemonic := text.takeWhile fun c => !c.isWhitespace
    let rest := trimSpace (text.dropWhile fun c => !c.isWhitespace)
    let operands := if rest.isEmpty then some [] else (splitCommas rest).mapM asmOperand
    match operands.bind (asmInstr mnemonic) with
    | some i => .command i
    | none => .malformed

/-- The command word of one line, if it is a command. -/
def asmWord (line : String) : Option CommandWord :=
  match asmLine line with
  | .command i => some (encode i)
  | _ => none

end Sys2Proof.Machine
end

