-- ==== Sys2Proof/Tests/Slice0.lean ====
section
/-! SUPPORT. Tests of the model, with expected values from spec/95_test_vectors.md (V numbers, S numbers, programs P) and
from the tables of the rules named; and a witness for the hypotheses of every statement that has some. -/

namespace Sys2Proof.Machine.Tests

open Sys2Proof Sys2Proof.Machine

/-! ### Well-formedness, one ill-formed term for each check -/

theorem test_wellFormed_pageCount_limit :
    (Instr.pageCount (2 ^ 32 - 1) .lowROM).wellFormed = true ∧
    (Instr.pageCount (2 ^ 32) .lowROM).wellFormed = false := by decide

theorem test_wellFormed_dumpRom_limit :
    (Instr.dumpRom 0xFF (2 ^ 16 - 1)).wellFormed = true ∧ (Instr.dumpRom 0xFF (2 ^ 16)).wellFormed = false := by
  decide

/-! ### Decoding: words written out from 30_encoding.md R70, R71 and the vectors -/

theorem test_decode_session :
    decode 0x0000000000#40 = .ok .sessionOpen ∧ decode 0x1000000000#40 = .ok .quiesce := by decide

theorem test_decode_apply : decode 0x20000000F6#40 = .ok (.applyWord 0xF6) := by decide

theorem test_decode_addressBus :
    decode 0x3000001234#40 = .ok (.gotoAddress 0x1234) ∧ decode 0x300001FFFF#40 = .ok (.gotoAddress 0x1FFFF) ∧
    decode 0x4000000070#40 = .ok (.gotoBank 0x70) ∧ decode 0x5000000000#40 = .ok .readData := by decide

theorem test_decode_map :
    decode 0x6000007FC0#40 = .ok (.mapOffset 32704 .lowROM) ∧
    decode 0x61FFFFFFFF#40 = .ok (.mapOffset 0xFFFFFFFF .highROM) ∧
    decode 0x7000018000#40 = .ok (.unmapAddress 1 0x8000 .lowROM) ∧
    decode 0x8000C7FFFF#40 = .ok (.gotoOffset 0xC7FFFF) := by decide

theorem test_decode_header :
    decode 0x90F5330ACC#40 = .ok (.validate 0xF533 0x0ACC) ∧ decode 0xA000000000#40 = .ok .parseHeader := by
  decide

theorem test_decode_sizes :
    decode 0xB00000000A#40 = .ok (.decodeRomSize 10) ∧ decode 0xC000000008#40 = .ok (.pageCount 8 .lowROM) ∧
    decode 0xC1FFFFFFFF#40 = .ok (.pageCount 0xFFFFFFFF .highROM) ∧
    decode 0xD000000009#40 = .ok (.romPages 9) := by decide

theorem test_decode_dumps :
    decode 0xE000120042#40 = .ok (.dumpRom 0x12 66) ∧ decode 0xF000004809#40 = .ok (.dumpSram 0x48 9) := by
  decide

/-- 30_encoding.md R73: `z` not 0, `L = 1` without a layout operand, a must-be-zero bit of `A`. -/
theorem test_decode_reserved :
    decode 0x0200000000#40 = .error .reservedEncoding ∧ decode 0x0100000000#40 = .error .reservedEncoding ∧
    decode 0x2000000100#40 = .error .reservedEncoding ∧ decode 0x3000020000#40 = .error .reservedEncoding ∧
    decode 0x6800000000#40 = .error .reservedEncoding ∧ decode 0x7001000000#40 = .error .reservedEncoding ∧
    decode 0x8100000000#40 = .error .reservedEncoding ∧ decode 0xE001000000#40 = .error .reservedEncoding ∧
    decode 0xF000010000#40 = .error .reservedEncoding := by decide

theorem test_decodeTableWord :
    decodeTableWord 40 0x610000FFC0 = some (.mapOffset 65472 .highROM) ∧
    decodeTableWord 40 0x0000000001 = none := by decide

/-! ### The assembler: the examples of 30_encoding.md R86 -/

theorem test_asm_examples :
    asmWord "SESSION_OPEN" = some 0x0000000000#40 ∧
    asmWord "GOTO_ADDRESS 0x10000 ; sentinel" = some 0x3000010000#40 ∧
    asmWord "MAP 32704, LOW" = some 0x6000007FC0#40 ∧
    asmWord "UNMAP 0xC7, 0xFFFF, HIGH" = some 0x7100C7FFFF#40 ∧
    asmWord "VALIDATE 0x1234, 0xEDCB" = some 0x901234EDCB#40 ∧
    asmWord "DUMP_SRAM 0x48, 9" = some 0xF000004809#40 := by decide

theorem test_asm_rejects :
    asmWord "APPLY 0x100" = none ∧ asmWord "NOP" = none ∧ asmWord "MAP 0, 1" = none := by decide

/-! ### States -/

/-- The test configuration of spec/95_test_vectors.md section 2; direction masks of the test's own. -/
def config : Config where
  hiromOriginA := 0xC0
  hiromOriginB := 0x40
  sramLowBank := 0x70
  sramLowAddr := 0x0000
  sramHighBank := 0x30
  sramHighAddr := 0x6000
  cwSramLow := 0x1E
  cwSramHigh := 0x1C
  cwReadIdle := 0x16
  cwQuiesce := 0x00
  cwPowerup := [0x10, 0x12]
  dataPullupOpen := 0x00
  dirEncoding := { inputMask := 0xFF, outputMask := 0x00 }
  foldBankRef := .entered

def closed : State :=
  { State.reset with config := config }

def openPort : Port :=
  { out := 0, dir := allBits .output, inten := 0 }

/-- A cold session: open, no layout, caches unset. -/
def cold : State :=
  { closed with
    session := { closed.session with status := .opened, ctrl := some 0x16 }
    phase := .readIdle
    ports := { closed.ports with aHi := openPort, aLo := openPort, bank := openPort } }

/-- The header of fixture T1 (spec/95_test_vectors.md section 3). -/
def rawLow : List Byte :=
  [0x54, 0x45, 0x53, 0x54, 0x20, 0x4C, 0x4F, 0x57, 0x20, 0x43, 0x41, 0x52, 0x54, 0x20, 0x20, 0x20, 0x20, 0x20] ++
  [0x20, 0x20, 0x20, 0x20, 0x02, 0x07, 0x08, 0x01, 0x33, 0x00, 0xCC, 0x0A, 0x33, 0xF5, 0x34, 0x12, 0x00, 0x80]

/-- The header of fixture T2. -/
def rawHigh : List Byte :=
  [0x54, 0x45, 0x53, 0x54, 0x20, 0x48, 0x49, 0x47, 0x48, 0x20, 0x43, 0x41, 0x52, 0x54, 0x20, 0x20, 0x20, 0x20] ++
  [0x20, 0x20, 0x20, 0x21, 0x02, 0x09, 0x48, 0x01, 0x33, 0x00, 0x77, 0x09, 0x88, 0xF6, 0x34, 0x12, 0x00, 0x80]

/-- What V40 says the header of T1 is. -/
def headerLow : HeaderInfo where
  title := #v[0x54, 0x45, 0x53, 0x54, 0x20, 0x4C, 0x4F, 0x57, 0x20, 0x43, 0x41, 0x52, 0x54, 0x20, 0x20, 0x20,
    0x20, 0x20, 0x20, 0x20]
  speed := 2
  layoutIndicator := 0
  cartridgeType := 0x02
  romSizeCode := 0x07
  sramSizeCode := 0x08
  country := 0x01
  license := 0x33
  version := 0x00
  inverseChecksum := 0x0ACC
  checksum := 0xF533
  nmiVector := 0x1234
  resetVector := 0x8000

/-- What V41 says the header of T2 is. -/
def headerHigh : HeaderInfo where
  title := #v[0x54, 0x45, 0x53, 0x54, 0x20, 0x48, 0x49, 0x47, 0x48, 0x20, 0x43, 0x41, 0x52, 0x54, 0x20, 0x20,
    0x20, 0x20, 0x20, 0x20]
  speed := 2
  layoutIndicator := 1
  cartridgeType := 0x02
  romSizeCode := 0x09
  sramSizeCode := 0x48
  country := 0x01
  license := 0x33
  version := 0x00
  inverseChecksum := 0x0977
  checksum := 0xF688
  nmiVector := 0x1234
  resetVector := 0x8000

/-- A cold session with a cartridge that lists a header block under the read-idle lines. -/
def withHeader (raw : List Byte) : State :=
  { cold with
    env :=
      { cold.env with
        cart := (List.range 36).map fun k => (0x16 * 2 ^ 24 + 0xFFC0 + k, raw.getD k 0) } }

/-- A session locked on a layout, caches unset. -/
def locked (l : Layout) (h : HeaderInfo) : State :=
  { cold with session := { cold.session with layout := some l, layoutLocked := true, header := some h } }

def low : State := locked .lowROM headerLow
def high : State := locked .highROM headerHigh

/-- The state after an instruction. -/
def after (i : Instr) (s : State) : State :=
  match exec i s with
  | .next t => t
  | .fault _ => s
  | .refused _ => s

/-- Every instruction answers a next state, so `after` is it. -/
theorem exec_after (i : Instr) (s : State) : exec i s = .next (after i s) := by
  cases i <;> rfl

/-! ### One step each -/

/-- P1: the trace of a session's creation, from power-on. -/
theorem test_sessionOpen :
    (after .sessionOpen closed).session.status = .opened ∧
    (after .sessionOpen closed).session.ctrl = some 0x16 ∧
    (after .sessionOpen closed).env.trace.map
        (fun e => match e with | .lines p w => some (p, w) | _ => none) =
      [some (.readIdle, 0x16), some (.poweringUp, 0x12), some (.poweringUp, 0x10), none, none, none, none, none] := by
  decide

/-- V81: the trace of the quiesce sequence is 13 events; the lines come first. -/
theorem test_quiesce :
    (after .quiesce low).session.status = .closed ∧ (after .quiesce low).session.ctrl = some 0x00 ∧
    (after .quiesce low).env.trace.length = 13 ∧
    (after .quiesce low).env.trace.getLast? = some (.lines .off 0x00) ∧
    (after .quiesce low).ports.bank.dir = allBits .input := by
  decide

/-- V11: bits 7:5 are ignored. -/
theorem test_apply :
    (after (.applyWord 0xF6) cold).session.ctrl = some 0b10110#5 ∧
    (after (.applyWord 0xF6) cold).env.txn = cold.env.txn := by
  decide

/-- The example of R110: LowROM, `GOTO_ADDRESS 0x1234`, caches unset. -/
theorem test_gotoAddress :
    (after (.gotoAddress 0x1234) low).env.trace = [.write .aLo 0x34 true, .write .aHi 0x92 true] ∧
    (after (.gotoAddress 0x1234) low).session.address = 0x1234 := by
  decide

/-- R110: LowROM, `0x1334` then `0x9334`: no write, the address follows. -/
theorem test_gotoAddress_forced_bit :
    (after (.gotoAddress 0x9334) (after (.gotoAddress 0x1334) low)).env.txn = 2 ∧
    (after (.gotoAddress 0x9334) (after (.gotoAddress 0x1334) low)).session.address = 0x9334 := by
  decide

/-- V20, V21: the first write of a session is made, zero included; the second is not. -/
theorem test_gotoBank :
    (after (.gotoBank 0) cold).env.trace = [.write .bank 0x00 true] ∧
    (after (.gotoBank 0) (after (.gotoBank 0) cold)).env.txn = 1 := by
  decide

/-- R117: the byte of bus address 00:FFC0 of T1 is 'T', V27. -/
theorem test_readData :
    (after .readData { withHeader rawLow with
      ports := { cold.ports with aHi := { openPort with out := 0xFF }, aLo := { openPort with out := 0xC0 } } }
      ).host.response = some { status := .ok, result := some (.value 0x54) } := by
  decide

/-- R130: `MAP 100000, LOW`; V36. -/
theorem test_map :
    (after (.mapOffset 100000 .lowROM) closed).host.response =
      some { status := .ok, result := some (.bankAddress 3 1696) } ∧
    (after (.mapOffset 0x800000 .lowROM) closed).host.response =
      some { status := .refused .argumentOutOfRange, result := none } := by
  decide

/-- R134: `UNMAP 0xC7, 0xFFFF, HIGH`; V38. -/
theorem test_unmap :
    (after (.unmapAddress 0xC7 0xFFFF .highROM) cold).host.response =
      some { status := .ok, result := some (.offset 0xC7FFFF) } ∧
    (after (.unmapAddress 1 0x8000 .lowROM) cold).host.response =
      some { status := .refused .argumentOutOfRange, result := none } := by
  decide

/-- The example of R137: LowROM, cold cache, `GOTO_OFFSET 32704`. -/
theorem test_gotoOffset :
    (after (.gotoOffset 32704) low).env.trace =
      [.write .aLo 0xC0 true, .write .aHi 0xFF true, .write .bank 0x00 true] ∧
    (after (.gotoOffset 32704) low).session.address = 0x7FC0 ∧
    (after (.gotoOffset 32704) low).session.currentOffset = 32704 := by
  decide

/-- S3. -/
theorem test_validate :
    (after (.validate 0x1234 0xEDCB) closed).host.response = some { status := .ok, result := some (.valid true) } ∧
    (after (.validate 0x1234 0xEDCA) closed).host.response = some { status := .ok, result := some (.valid false) } := by
  decide

/-- S4, V54. -/
theorem test_decodeRomSize :
    (after (.decodeRomSize 10) closed).host.response = some { status := .ok, result := some (.romSize true (some 8)) } ∧
    (after (.decodeRomSize 6) closed).host.response = some { status := .ok, result := some (.romSize false none) } := by
  decide

/-- S5. -/
theorem test_pageCount :
    (after (.pageCount 8 .highROM) closed).host.response = some { status := .ok, result := some (.pageCount 16) } ∧
    (after (.pageCount 8 .lowROM) closed).host.response = some { status := .ok, result := some (.pageCount 32) } := by
  decide

/-- V5A, V5B. -/
theorem test_romPages :
    (after (.romPages 9) high).host.response = some { status := .ok, result := some (.pageCount 8) } ∧
    (after (.romPages 6) low).host.response = some { status := .fatal .invalidRomSizeCode, result := none } ∧
    (after (.romPages 6) low).session.lastError = 0x03 := by
  decide

/-- V40: the header of T1 on a cold session, 74 events. -/
theorem test_parseHeader_low :
    (after .parseHeader (withHeader rawLow)).session.header = some headerLow ∧
    (after .parseHeader (withHeader rawLow)).session.currentOffset = 32739 ∧
    (after .parseHeader (withHeader rawLow)).env.txn = 74 := by
  decide

/-- V41: the header of T2, 146 events. -/
theorem test_parseHeader_high :
    (after .parseHeader (withHeader rawHigh)).session.header = some headerHigh ∧
    (after .parseHeader (withHeader rawHigh)).session.layout = some .highROM ∧
    (after .parseHeader (withHeader rawHigh)).env.txn = 146 := by
  decide +kernel

/-- V84: the first write of `A_LO` fails. -/
theorem test_parseHeader_failure :
    let t := after .parseHeader { withHeader rawLow with env := { (withHeader rawLow).env with failing := [2] } }
    t.host.response = some { status := .fatal .portTransactionFailure, result := none } ∧
    t.session.status = .closed ∧ t.session.layout = none ∧ t.session.lastError = 0x04 ∧
    t.env.trace.drop 13 = [.write .aLo 0xC0 false, .write .aHi 0xFF true, .write .bank 0x00 true] ∧
    t.env.trace.length = 16 := by
  decide

/-- R192: `DUMP_ROM 0xFE, 3` is refused; V67 makes no event. -/
theorem test_dumpRom :
    (after (.dumpRom 0xFE 3) low).host.response =
      some { status := .refused .argumentOutOfRange, result := none } ∧
    (after (.dumpRom 0 0) low).env.trace = [] := by
  decide

/-- Codes 0 to 7 are 0 bytes (R180): the lines go to the SRAM word and back, nothing else (R210, R214). -/
theorem test_dumpSram :
    (after (.dumpSram 7 0) low).env.trace = [.lines .readIdle 0x16, .lines .sramEnabled 0x1E] ∧
    (after (.dumpSram 7 0) high).env.trace = [.lines .readIdle 0x16, .lines .sramEnabled 0x1C] := by
  decide

/-! ### Witnesses: for each statement with hypotheses, a state and operands that meet them all -/

/-- The environment makes one transaction fail. -/
def failingAt (n : Nat) (s : State) : State :=
  { s with env := { s.env with failing := [n] } }

/-- The host has one command to issue. -/
def issuing (w : CommandWord) (s : State) : State :=
  { s with host := { s.host with commands := [w] } }

theorem cold_inv : SessionInv cold := by
  constructor <;> simp [cold, closed, State.reset, openPort, config, Port.powerOn, lineLevels, Memory.wf]
  decide

theorem locked_inv {l : Layout} {h : HeaderInfo} (hv : h.checksum ^^^ h.inverseChecksum = 0xFFFF)
    (hl : l = .lowROM → h.layoutIndicator = 0) : SessionInv (locked l h) := by
  have c := cold_inv
  refine ⟨?_, rfl, rfl, ?_, ?_, c.coherentUpper, c.coherentLower, c.coherentBank, ?_, c.splitLower, c.bankRegister,
    c.openPorts, c.openLines, c.errorCode, c.cartCanonical, c.answersCanonical⟩
  · intro hc; cases hc
  · intro g hg; cases hg; exact hv
  · intro g hg hlow; cases hg; exact hl (Option.some.inj hlow)
  · intro v hv; cases hv

/-- The invariant asks of what the cartridge lists only that it is canonical. -/
theorem inv_cart {s : State} (c : SessionInv s) {m : Memory} (hm : Memory.wf m = true) :
    SessionInv { s with env := { s.env with cart := m } } :=
  ⟨c.closedIdle, c.lockedLayout, c.lockedHeader, c.headerValid, c.headerLow, c.coherentUpper, c.coherentLower,
    c.coherentBank, c.splitUpper, c.splitLower, c.bankRegister, c.openPorts, c.openLines, c.errorCode, hm,
    c.answersCanonical⟩

theorem low_inv : SessionInv low :=
  locked_inv (by decide) fun _ => rfl

theorem high_inv : SessionInv high :=
  locked_inv (by decide) fun h => by cases h

theorem witness_DecodeOfEncodeIsTheInstruction :
    (Instr.pageCount (2 ^ 32 - 1) .highROM).wellFormed = true ∧ (Instr.dumpRom 0xFF (2 ^ 16 - 1)).wellFormed = true := by
  decide

theorem witness_EncodeOfDecodedWordIsTheWord : decode 0xE0FFFFFFFF#40 = .error .reservedEncoding ∧
    decode 0xE000FFFFFF#40 = .ok (.dumpRom 0xFF 0xFFFF) := by decide

theorem witness_StepRunsTheDecodedCommand :
    (issuing 0x2000000016#40 cold).host.commands = [0x2000000016#40] ∧
    decode 0x2000000016#40 = .ok (.applyWord 0x16) := by decide

theorem witness_ReservedWordIsRefusedAndChangesNothing :
    (issuing 0x0000000001#40 cold).host.commands = [0x0000000001#40] ∧
    ∀ r ∈ opcodeTable, 0x0000000001#40 &&& r.mask ≠ r.pattern := by decide

theorem witness_StepWithoutCommandChangesNothing : cold.host.commands = [] := rfl

theorem witness_StepKeepsSessionInv :
    SessionInv cold ∧ SessionInv low ∧ step cold = .next cold ∧
    ∃ t, step (issuing 0x8000007FC0#40 low) = .next t :=
  ⟨cold_inv, low_inv, rfl, _, rfl⟩

theorem witness_RefusedCommandChangesOnlyTheAnswer :
    (after .readData closed).host.response = some { status := .refused .sessionClosed, result := none } := by decide

theorem witness_FatalErrorQuiescesAndCloses :
    (after (.romPages 6) low).host.response = some { status := .fatal .invalidRomSizeCode, result := none } := by
  decide

/-- A header block with another layout byte, or with a wrong pair. -/
def rawNibble2 : List Byte := rawLow.set 21 0x22
def rawMismatch : List Byte := rawLow.set 28 0xCD

/-- V42, V43 and a failed read: one witness for each kind. -/
theorem witness_FatalKindsComeFromTheirOperations :
    (after .parseHeader (withHeader rawMismatch)).host.response =
      some { status := .fatal .headerChecksumMismatch, result := none } ∧
    (after .parseHeader (withHeader rawNibble2)).host.response =
      some { status := .fatal .unknownLayoutField, result := none } ∧
    (after (.romPages 0) high).host.response = some { status := .fatal .invalidRomSizeCode, result := none } ∧
    (after .readData (failingAt 0 cold)).host.response =
      some { status := .fatal .portTransactionFailure, result := none } := by
  decide +kernel

theorem witness_OpenIsLeftOnlyByQuiesceOrFatalError :
    low.isOpen ∧ ¬ (after .quiesce low).isOpen ∧ ¬ (after (.romPages 6) low).isOpen := by decide

theorem witness_LockedLayoutAndHeaderStayWhileOpen :
    low.isOpen ∧ low.session.layoutLocked = true ∧ (after (.gotoOffset 0) low).isOpen := by decide

theorem witness_ControlLinesMoveOnlyWithTheirOperations :
    (after (.applyWord 0x1F) cold).session.ctrl ≠ cold.session.ctrl ∧
    (after (.applyWord 0x16) cold).phase ≠ cold.phase := by decide

theorem witness_PortConfigurationMovesOnlyWithSessions :
    (after .quiesce low).ports.aHi.dir ≠ low.ports.aHi.dir := by decide

/-- A session in the middle of its work: accumulators and offset not zero. -/
def worked : State :=
  { low with session := { low.session with currentOffset := 7, runningChecksum := 5, pageSum := 3, lastError := 2 } }

theorem witness_OffsetAndAccumulatorsHaveTheirWriters :
    (after (.gotoOffset 1) worked).session.currentOffset ≠ worked.session.currentOffset ∧
    (after (.dumpRom 0 0) worked).session.pageSum ≠ worked.session.pageSum ∧
    (after (.dumpSram 0 0) worked).session.runningChecksum ≠ worked.session.runningChecksum := by decide

theorem witness_LastErrorKeptUntilFatalErrorOrSessionOpen :
    (after .sessionOpen (after (.romPages 6) low)).session.lastError ≠ (after (.romPages 6) low).session.lastError ∧
    (after (.romPages 6) low).session.lastError ≠ low.session.lastError := by decide

theorem witness_MapAndUnmapAreInverse :
    (0x7FFFFF : Offset).toNat < 256 * 32768 ∧ (0xFFFFFF : Offset).toNat < 256 * 65536 ∧
    (0x7FFF : Address).toNat < 32768 ∧ (0xFFFF : Address).toNat < 65536 := by decide

theorem witness_ClosedSessionAdmission : closed.session.status = .closed := rfl

/-- The clauses: open; open and locked; open with no layout, the largest ordinary address. -/
theorem witness_OpenSessionAdmission :
    cold.isOpen ∧ low.isOpen ∧ low.session.layoutLocked = true ∧ cold.session.layout = none ∧
    (0xFFFF : BitVec 17).toNat ≤ 0xFFFF := by decide

theorem witness_SessionOpenStartsAColdSession : closed.session.status = .closed ∧ closed.soundFor 5 := by decide

/-- The first and the last of the five transactions. -/
theorem witness_SessionOpenPortFailureIsFatal :
    closed.session.status = .closed ∧
    (∀ k < 0, closed.env.txn + k ∉ (failingAt 0 closed).env.failing) ∧
    closed.env.txn + 0 ∈ (failingAt 0 closed).env.failing ∧
    (∀ k < 4, closed.env.txn + k ∉ (failingAt 4 closed).env.failing) ∧
    closed.env.txn + 4 ∈ (failingAt 4 closed).env.failing := by decide

/-- A failure that lies behind does not count. -/
theorem witness_QuiesceReturnsEverythingToIdle :
    low.soundFor 12 ∧ (failingAt 12 low).soundFor 12 := by decide

theorem witness_QuiesceAttemptsEveryStepDespiteFailures :
    (∃ k ∈ (failingAt 11 low).env.failing, low.env.txn ≤ k ∧ k < low.env.txn + 12) ∧
    low.env.txn ∉ (failingAt 11 low).env.failing ∧ low.env.txn + 1 ∉ (failingAt 11 low).env.failing ∧
    low.env.txn + 2 ∉ (failingAt 11 low).env.failing ∧ low.env.txn + 3 ∉ (failingAt 11 low).env.failing ∧
    low.env.txn + 11 ∉ (failingAt 0 low).env.failing := by decide

theorem witness_ApplyDrivesTheFiveLines : cold.isOpen := rfl
theorem witness_ApplyIgnoresReservedBits : cold.isOpen := rfl

theorem witness_GotoAddressFromTheSentinelOn :
    cold.isOpen ∧ 0x10000 ≤ (0x10000 : BitVec 17).toNat ∧ 0x10000 ≤ (0x10001 : BitVec 17).toNat ∧
    0x10000 ≤ (0x1FFFF : BitVec 17).toNat := by decide

theorem witness_GotoAddressWritesTheHalvesThatDiffer :
    low.isOpen ∧ low.session.layout = some .lowROM ∧ (0xFFFF : BitVec 17).toNat ≤ 0xFFFF ∧ low.soundFor 2 := by
  decide

/-- A failure at the upper half with nothing cached; at the lower half with the upper cached; at the lower half after
the upper was written. -/
theorem witness_GotoAddressStopsAtAFailedWrite :
    low.isOpen ∧ low.session.layout = some .lowROM ∧ (0xFFFF : BitVec 17).toNat ≤ 0xFFFF ∧
    low.session.cachedUpperByte ≠ some 0xFF ∧ low.session.cachedLowerByte ≠ some 0xFF ∧
    low.env.txn ∈ (failingAt 0 low).env.failing ∧
    (low.setCachedUpper 0xFF).session.cachedUpperByte = some 0xFF ∧
    low.env.txn ∉ (failingAt 1 low).env.failing ∧ low.env.txn + 1 ∈ (failingAt 1 low).env.failing := by decide

theorem witness_GotoBankWritesTheBankThatDiffers : cold.isOpen ∧ cold.soundFor 1 := by decide

/-- Both ways the environment's byte is settled: scheduled, and listed. -/
theorem witness_ReadDataReturnsWhatTheEnvironmentGives :
    cold.isOpen ∧ cold.soundFor 1 ∧
    Memory.readByte { cold.env with answers := [(0, 0x5A)] }.answers cold.env.txn = some 0x5A ∧
    Memory.readByte (withHeader rawLow).env.answers 0 = none ∧
    (withHeader rawLow).cartAt (some 0x16) 0x00FFC0 = some 0x54 := by decide

theorem witness_FailedWriteOrReadIsFatal_bank_read :
    (failingAt 0 low).isOpen ∧ low.env.txn ∈ (failingAt 0 low).env.failing ∧ low.session.cachedBank ≠ some 0xFF := by
  decide

/-- The last offset of the map: the first failure at the bank, at the upper half, at the lower half. -/
theorem witness_FailedWriteOrReadIsFatal_gotoOffset :
    ∀ n < 3,
      (failingAt n low).isOpen ∧ (failingAt n low).session.layout = some .lowROM ∧
      (0x7FFFFF : Offset).toNat < 256 * 32768 ∧ (failingAt n low).firstFailure n ∧
      (failingAt n low).session.cachedBank ≠ some 0xFF ∧ (failingAt n low).session.cachedUpperByte ≠ some 0xFF ∧
      (failingAt n low).session.cachedLowerByte ≠ some 0xFF := by decide

/-- The lower half alone is written, and fails: bank and upper half are cached. -/
theorem witness_FailedWriteOrReadIsFatal_cached :
    let s := failingAt 0 { low with
      session := { low.session with cachedBank := some 0xFF, cachedUpperByte := some 0xFF } }
    s.isOpen ∧ s.session.layout = some .lowROM ∧ s.firstFailure 0 ∧ s.session.cachedBank = some 0xFF ∧
    s.session.cachedUpperByte = some 0xFF ∧ s.session.cachedLowerByte ≠ some 0xFF := by decide

theorem witness_SuppressionNeverChangesTheBus :
    SessionInv low ∧ low.isOpen ∧ low.session.layout = some .lowROM ∧ low.soundPorts :=
  ⟨low_inv, rfl, rfl, by decide⟩

theorem witness_GotoOffsetPositionsBankThenAddress :
    low.isOpen ∧ low.session.layout = some .lowROM ∧ low.soundFor 3 ∧
    (0x7FFFFF : Offset).toNat < 256 * 32768 ∧ high.session.layout = some .highROM ∧
    (0xFFFFFF : Offset).toNat < 256 * 65536 := by decide

theorem witness_GotoOffsetOutsideTheMapIsRefused :
    low.isOpen ∧ low.session.layout = some .lowROM ∧ 256 * 32768 ≤ (0x800000 : Offset).toNat ∧
    high.session.layout = some .highROM ∧ 256 * 65536 ≤ (0x1000000 : Offset).toNat := by decide

theorem headerLow_of : HeaderOf rawLow headerLow := by
  constructor <;> decide

theorem headerHigh_of : HeaderOf rawHigh headerHigh := by
  constructor <;> decide

theorem withHeader_cart (raw : List Byte) (h : raw = rawLow ∨ raw = rawHigh ∨ raw = rawNibble2 ∨ raw = rawMismatch) :
    ∀ k < 36, (withHeader raw).cartAt (withHeader raw).session.ctrl (.ofNat 24 (0xFFC0 + k)) = raw[k]? := by
  rcases h with h | h | h | h <;> subst h <;> decide +kernel

theorem withHeader_inv (raw : List Byte) : SessionInv (withHeader raw) := by
  refine inv_cart cold_inv ((memory_wf_iff _).mpr ?_)
  rw [List.map_map]
  have : (Prod.fst ∘ fun k => ((0x16 * 2 ^ 24 + 0xFFC0 + k, raw.getD k 0) : Host.Cell)) =
      fun k => 0x16 * 2 ^ 24 + 0xFFC0 + k := rfl
  rw [this]
  decide

/-- A session in which the host has already moved the bus to a bank (R235 allows `GOTO_BANK` before the header). -/
def atBank (b : Byte) (s : State) : State :=
  { s with
    session := { s.session with bank := b, cachedBank := some b }
    ports := { s.ports with bank := { s.ports.bank with out := b } } }

/-- On a cold session, and with the bank where the host's `GOTO_BANK 0x70` leaves it. -/
theorem witness_ParseHeaderAcceptsALowRomHeader :
    ∀ s ∈ [withHeader rawLow, atBank 0x70 (withHeader rawLow)],
      SessionInv s ∧ s.isOpen ∧ s.session.layoutLocked = false ∧ s.soundPorts ∧ s.steadyCart ∧ rawLow.length = 36 ∧
      HeaderOf rawLow headerLow ∧
      (∀ k < 36, s.cartAt s.session.ctrl (.ofNat 24 (0xFFC0 + k)) = rawLow[k]?) ∧
      headerLow.layoutIndicator = 0 ∧ headerLow.checksum ^^^ headerLow.inverseChecksum = 0xFFFF := by
  intro s h
  simp only [List.mem_cons, List.not_mem_nil, or_false] at h
  rcases h with h | h <;> subst h
  · exact ⟨withHeader_inv _, rfl, rfl, by decide, by decide, rfl, headerLow_of, withHeader_cart _ (by simp), rfl,
      by decide⟩
  · have c := withHeader_inv rawLow
    refine ⟨⟨nofun, c.lockedLayout, c.lockedHeader, c.headerValid, c.headerLow, c.coherentUpper, c.coherentLower,
      ?_, c.splitUpper, c.splitLower, ?_, c.openPorts, c.openLines, c.errorCode, c.cartCanonical,
      c.answersCanonical⟩, rfl, rfl, by decide, by decide, rfl, headerLow_of, withHeader_cart _ (by simp), rfl,
      by decide⟩ <;>
      exact fun _ h => Option.some.inj h

theorem witness_ParseHeaderAcceptsAHighRomHeader :
    SessionInv (withHeader rawHigh) ∧ (withHeader rawHigh).isOpen ∧
    (withHeader rawHigh).session.layoutLocked = false ∧ (withHeader rawHigh).soundPorts ∧
    (withHeader rawHigh).steadyCart ∧ rawHigh.length = 36 ∧ HeaderOf rawHigh headerHigh ∧
    (∀ k < 36,
      (withHeader rawHigh).cartAt (withHeader rawHigh).session.ctrl (.ofNat 24 (0xFFC0 + k)) = rawHigh[k]?) ∧
    headerHigh.layoutIndicator = 1 ∧ headerHigh.checksum ^^^ headerHigh.inverseChecksum = 0xFFFF :=
  ⟨withHeader_inv _, rfl, rfl, by decide, by decide, rfl, headerHigh_of, withHeader_cart _ (by simp), rfl, by decide⟩

/-- V42 and V43: one witness for each clause. -/
theorem witness_ParseHeaderRejectsBadHeaders :
    ∀ raw ∈ [rawNibble2, rawMismatch],
      SessionInv (withHeader raw) ∧ (withHeader raw).isOpen ∧ (withHeader raw).session.layoutLocked = false ∧
      (withHeader raw).soundPorts ∧ (withHeader raw).steadyCart ∧ raw.length = 36 ∧
      HeaderOf raw (extractHeader raw) ∧
      (∀ k < 36, (withHeader raw).cartAt (withHeader raw).session.ctrl (.ofNat 24 (0xFFC0 + k)) = raw[k]?) ∧
      (2 ≤ (extractHeader raw).layoutIndicator.toNat ∨
        (extractHeader raw).layoutIndicator.toNat < 2 ∧
          (extractHeader raw).checksum ^^^ (extractHeader raw).inverseChecksum ≠ 0xFFFF) := by
  intro raw h
  simp only [List.mem_cons, List.not_mem_nil, or_false] at h
  rcases h with h | h <;> subst h <;>
    exact ⟨withHeader_inv _, rfl, rfl, by decide, by decide, rfl, by constructor <;> decide,
      withHeader_cart _ (by simp), by decide⟩

/-- A cartridge that answers the first block with an invalid pair under layout nibble 1, the second with the header of
T2 (V46). -/
def changing : State :=
  { cold with
    env :=
      { cold.env with
        answers :=
          ((List.range 36).map fun k => (3 + 2 * k, (rawHigh.set 28 0x76).getD k 0)) ++
            (List.range 36).map fun k => (75 + 2 * k, rawHigh.getD k 0) } }

theorem witness_ParseHeaderTrustsOnlyTheFinalBlock :
    changing.isOpen ∧ changing.session.layoutLocked = false ∧ changing.session.cachedUpperByte = none ∧
    changing.session.cachedLowerByte = none ∧ changing.session.cachedBank = none ∧ changing.soundPorts ∧
    (rawHigh.set 28 0x76).length = 36 ∧ rawHigh.length = 36 ∧
    (∀ k < 36, Memory.readByte changing.env.answers (changing.env.txn + 3 + 2 * k) = (rawHigh.set 28 0x76)[k]?) ∧
    (∀ k < 36, Memory.readByte changing.env.answers (changing.env.txn + 75 + 2 * k) = rawHigh[k]?) ∧
    ((rawHigh.set 28 0x76).getD 21 0).toNat % 16 = 1 ∧ HeaderOf rawHigh headerHigh ∧
    headerHigh.checksum ^^^ headerHigh.inverseChecksum = 0xFFFF :=
  ⟨rfl, rfl, rfl, rfl, rfl, by decide, rfl, rfl, by decide +kernel, by decide +kernel, rfl, headerHigh_of, by decide⟩

/-- V84: the third transaction fails, the first write of `A_LO`. The last transaction of a LowROM header; one of the second
block of a HighROM header. -/
theorem witness_ParseHeaderPortFailureIsFatal :
    (∀ n ∈ [2, 73],
      (failingAt n (withHeader rawLow)).isOpen ∧ (failingAt n (withHeader rawLow)).session.layoutLocked = false ∧
      (failingAt n (withHeader rawLow)).firstFailure n ∧ (after .parseHeader (withHeader rawLow)).isOpen ∧
      (withHeader rawLow).env.txn + n < (after .parseHeader (withHeader rawLow)).env.txn) ∧
    (failingAt 100 (withHeader rawHigh)).isOpen ∧ (failingAt 100 (withHeader rawHigh)).firstFailure 100 ∧
    (after .parseHeader (withHeader rawHigh)).isOpen ∧
    (withHeader rawHigh).env.txn + 100 < (after .parseHeader (withHeader rawHigh)).env.txn := by
  decide +kernel

theorem witness_RomPagesCountsOrRaises :
    low.isOpen ∧ low.session.layoutLocked = true ∧ low.session.layout = some .lowROM ∧
    7 ≤ (7 : Byte).toNat ∧ (6 : Byte).toNat < 7 := by decide

/-- The smallest bound on the turns, and one above it. -/
theorem witness_InnerLoopReadsExactlyOnePage :
    low.soundPorts ∧ pageSize .lowROM ≤ 32768 ∧ pageSize .lowROM ≤ 32769 ∧ pageSize .highROM ≤ 65536 := by decide

/-! A cartridge that lists `n` consecutive bytes, in closed form: no witness below evaluates it. -/

def run (base n : Nat) : Memory :=
  (List.range' base n).map fun a => (a, .ofNat 8 (a - base))

theorem run_read (base n j : Nat) (h : j < n) : Memory.readByte (run base n) (base + j) = some (.ofNat 8 j) := by
  suffices ∀ m b, b ≤ base + j → base + j < b + m →
      Memory.readByte ((List.range' b m).map fun a => (a, BitVec.ofNat 8 (a - base))) (base + j) =
        some (.ofNat 8 j) from this n base (by omega) (by omega)
  intro m
  induction m with
  | zero => intro b h1 h2; omega
  | succ m ih =>
    intro b h1 h2
    simp only [List.range'_succ, List.map_cons, Memory.readByte]
    split
    · rename_i hb
      rw [hb, Nat.add_sub_cancel_left]
    · exact ih (b + 1) (by omega) (by omega)

theorem run_wf (base n : Nat) : Memory.wf (run base n) = true := by
  rw [memory_wf_iff, run, List.map_map]
  have : (Prod.fst ∘ fun a => ((a, BitVec.ofNat 8 (a - base)) : Host.Cell)) = id := rfl
  rw [this, List.map_id]
  exact List.pairwise_lt_range'

def image (n : Nat) : List Byte :=
  (List.range n).map (.ofNat 8)

theorem image_get (n j : Nat) (h : j < n) : (image n)[j]? = some (.ofNat 8 j) := by
  simp [image, h]

/-- A locked session with a cartridge that lists `n` bytes from a bus address on, under the read-idle lines. -/
def listing (l : Layout) (h : HeaderInfo) (base n : Nat) : State :=
  { locked l h with env := { (locked l h).env with cart := run (0x16 * 2 ^ 24 + base) n } }

theorem listing_inv {l : Layout} {h : HeaderInfo} (hv : h.checksum ^^^ h.inverseChecksum = 0xFFFF)
    (hl : l = .lowROM → h.layoutIndicator = 0) (base n : Nat) : SessionInv (listing l h base n) :=
  inv_cart (locked_inv hv hl) (run_wf _ n)

theorem listing_cart (l : Layout) (h : HeaderInfo) (base n j : Nat) (hj : j < n) (hb : base + n ≤ 2 ^ 24) :
    (listing l h base n).cartAt (listing l h base n).session.ctrl (.ofNat 24 (base + j)) = (image n)[j]? := by
  rw [image_get n j hj]
  have : cartKey (some 0x16) (.ofNat 24 (base + j)) = 0x16 * 2 ^ 24 + base + j := by
    have h22 : (0x16 : Levels).toNat = 22 := rfl
    simp only [cartKey, BitVec.toNat_ofNat, h22]
    omega
  show Memory.readByte (run _ n) (cartKey (some 0x16) _) = _
  rw [this]
  exact run_read _ n j hj

/-- One LowROM page, the last of the map. -/
theorem witness_DumpRomReturnsTheCartridgeImage_low :
    let s := listing .lowROM headerLow 0xFF8000 32768
    SessionInv s ∧ s.isOpen ∧ s.session.layoutLocked = true ∧ s.session.layout = some .lowROM ∧ s.soundPorts ∧
    s.steadyCart ∧ 0 < 1 ∧ (255 : Byte).toNat + 1 ≤ 256 ∧ ¬ (Layout.lowROM = .highROM ∧ 64 < 1) ∧
    (image 32768).length = 1 * 32768 ∧
    ∀ j < 1 * 32768,
      s.cartAt s.session.ctrl (busOfOffset .lowROM ((255 : Byte).toNat * 32768 + j)) = (image 32768)[j]? := by
  intro s
  refine ⟨listing_inv (by decide) (fun _ => rfl) _ _, rfl, rfl, rfl, by decide, by decide, by decide, by decide,
    by decide, by simp [image], ?_⟩
  intro j hj
  have : busOfOffset .lowROM ((255 : Byte).toNat * 32768 + j) = .ofNat 24 (0xFF8000 + j) := by
    have h255 : (255 : Byte).toNat = 255 := rfl
    simp only [busOfOffset, h255]
    congr 1
    omega
  rw [this]
  exact listing_cart _ _ _ _ j (by omega) (by decide)

/-- The largest unsplit HighROM dump, the last 64 banks of the map. -/
theorem witness_DumpRomReturnsTheCartridgeImage_high :
    let s := listing .highROM headerHigh (192 * 65536) (64 * 65536)
    SessionInv s ∧ s.isOpen ∧ s.session.layoutLocked = true ∧ s.session.layout = some .highROM ∧ s.soundPorts ∧
    s.steadyCart ∧ 0 < 64 ∧ (192 : Byte).toNat + 64 ≤ 256 ∧ ¬ (Layout.highROM = .highROM ∧ 64 < 64) ∧
    (image (64 * 65536)).length = 64 * 65536 ∧
    ∀ j < 64 * 65536,
      s.cartAt s.session.ctrl (busOfOffset .highROM ((192 : Byte).toNat * 65536 + j)) = (image (64 * 65536))[j]? := by
  intro s
  refine ⟨listing_inv (by decide) (fun h => by cases h) _ _, rfl, rfl, rfl, by decide, by decide, by decide, by decide,
    by decide, by simp [image], ?_⟩
  intro j hj
  exact listing_cart _ _ _ _ j hj (by decide)

/-- A split dump whose two origins make its banks consecutive: banks 0 to 63, then 64. -/
theorem witness_DumpRomSplitUsesTheConfiguredOrigins :
    let s := { listing .highROM headerHigh 0 (65 * 65536) with
      config := { config with hiromOriginA := 0, hiromOriginB := 64, cwReadIdle := 0x16 } }
    SessionInv s ∧ s.isOpen ∧ s.session.layoutLocked = true ∧ s.session.layout = some .highROM ∧
    s.session.header = some headerHigh ∧ s.soundPorts ∧ s.steadyCart ∧ 64 < 65 ∧
    s.config.hiromOriginB.toNat + (65 - 64) ≤ 256 ∧ (image (65 * 65536)).length = 65 * 65536 ∧
    ∀ j < 65 * 65536,
      s.cartAt s.session.ctrl
          (busOfOffset .highROM
            (if j < 64 * 65536 then s.config.hiromOriginA.val * 65536 + j
            else s.config.hiromOriginB.toNat * 65536 + (j - 64 * 65536))) =
        (image (65 * 65536))[j]? := by
  intro s
  have c : SessionInv (listing .highROM headerHigh 0 (65 * 65536)) :=
    listing_inv (by decide) (fun h => by cases h) _ _
  refine ⟨⟨c.closedIdle, c.lockedLayout, c.lockedHeader, c.headerValid, c.headerLow, c.coherentUpper,
    c.coherentLower, c.coherentBank, c.splitUpper, c.splitLower, c.bankRegister, c.openPorts, c.openLines,
    c.errorCode, c.cartCanonical, c.answersCanonical⟩, rfl, rfl, rfl, rfl, by decide, by decide, by decide,
    by decide, by simp [image], ?_⟩
  intro j hj
  have e : (if j < 64 * 65536 then s.config.hiromOriginA.val * 65536 + j
      else s.config.hiromOriginB.toNat * 65536 + (j - 64 * 65536)) = 0 + j := by
    have h1 : s.config.hiromOriginA.val = 0 := rfl
    have h2 : s.config.hiromOriginB.toNat = 64 := rfl
    rw [h1, h2]
    split <;> omega
  rw [e]
  exact listing_cart .highROM headerHigh 0 (65 * 65536) j hj (by decide)

/-- Even and odd `startBank + pageCount`, under both readings of R197. -/
theorem witness_DumpRomChecksumCoversWholeLogicalPages :
    low.config.foldBankRef = .entered ∧ { low.config with foldBankRef := .completed }.foldBankRef ≠ .entered ∧
    ∀ s ∈ [low, { low with config := { low.config with foldBankRef := .completed } }],
      s.isOpen ∧ s.session.layoutLocked = true ∧ s.session.layout = some .lowROM ∧
      s.session.header = some headerLow ∧ s.soundPorts ∧
      (255 : Byte).toNat + 1 ≤ 256 ∧ (254 : Byte).toNat + 1 ≤ 256 ∧ ¬ (Layout.lowROM = .highROM ∧ 64 < 1) := by
  decide

/-- The clauses: unsplit ROM, split ROM, SRAM. -/
theorem witness_DumpPastTheLastBankIsRefused :
    low.isOpen ∧ low.session.layoutLocked = true ∧ low.session.layout = some .lowROM ∧
    256 < (255 : Byte).toNat + 2 ∧
    high.isOpen ∧ high.session.layoutLocked = true ∧ high.session.layout = some .highROM ∧
    256 < high.config.hiromOriginB.toNat + (257 - 64) ∧
    256 < { low.config with sramLowBank := 0xFF, sramLowAddr := 0x7FFF }.sramLowBank.toNat +
      ((8 : Byte).toNat / 8 * 1024 +
        (0x8000 - { low.config with sramLowBank := 0xFF, sramLowAddr := 0x7FFF }.sramLowAddr.toNat) - 1) /
        (0x8000 - { low.config with sramLowBank := 0xFF, sramLowAddr := 0x7FFF }.sramLowAddr.toNat) := by decide

theorem witness_DumpRomOfNoPagesIsEmpty :
    low.isOpen ∧ low.session.layoutLocked = true ∧ low.session.layout = some .lowROM ∧
    low.session.header = some headerLow := by decide

/-- An unsplit dump of the last bank and a split dump, failing at the last of the transactions that the statement counts
by the bytes; the dumps make more. -/
theorem witness_DumpRomPortFailureDiscardsTheDump :
    (failingAt 32767 low).isOpen ∧ (failingAt 32767 low).session.layoutLocked = true ∧
    (failingAt 32767 low).session.layout = some .lowROM ∧ (255 : Byte).toNat + 1 ≤ 256 ∧
    ¬ (Layout.lowROM = .highROM ∧ 64 < 1) ∧ low.env.txn + 32767 < low.env.txn + 1 * 32768 ∧
    (failingAt 4259839 high).isOpen ∧ (failingAt 4259839 high).session.layoutLocked = true ∧
    (failingAt 4259839 high).session.layout = some .highROM ∧
    (failingAt 4259839 high).config.hiromOriginB.toNat + (65 - 64) ≤ 256 ∧
    high.env.txn + 4259839 < high.env.txn + 65 * 65536 := by
  decide

/-- A single failing transaction is the first failure. -/
theorem failingAt_first (s : State) (n : Nat) : (failingAt (s.env.txn + n) s).firstFailure n :=
  ⟨List.mem_singleton.mpr rfl, fun k h hk => by
    have := List.mem_singleton.mp hk
    have : s.env.txn + k = s.env.txn + n := this
    omega⟩

/-- A locked LowROM session with a cartridge that lists 1024 bytes of SRAM under the SRAM word. -/
def sramListing : State :=
  { low with env := { low.env with cart := run (0x1E * 2 ^ 24 + 0x708000) 1024 } }

theorem witness_DumpSramReturnsTheWindow :
    SessionInv sramListing ∧ sramListing.isOpen ∧ sramListing.session.layoutLocked = true ∧
    sramListing.session.layout = some .lowROM ∧ sramListing.soundPorts ∧ sramListing.steadyCart ∧
    sramListing.config.sramLowBank.toNat +
      ((8 : Byte).toNat / 8 * 1024 + (0x8000 - sramListing.config.sramLowAddr.toNat) - 1) /
        (0x8000 - sramListing.config.sramLowAddr.toNat) ≤ 256 ∧
    (image 1024).length = (8 : Byte).toNat / 8 * 1024 ∧
    ∀ j < (8 : Byte).toNat / 8 * 1024,
      sramListing.cartAt (some (sramListing.config.cwSramLow.extractLsb' 0 5))
          (busOfBankAddress .lowROM
            (sramListing.config.sramLowBank.toNat + j / (0x8000 - sramListing.config.sramLowAddr.toNat))
            (sramListing.config.sramLowAddr.toNat + j % (0x8000 - sramListing.config.sramLowAddr.toNat))) =
        (image 1024)[j]? := by
  refine ⟨inv_cart low_inv (run_wf _ _), rfl, rfl, rfl, by decide, by decide, by decide,
    by simp [image], ?_⟩
  intro j hj
  have hj : j < 1024 := hj
  have h1 : sramListing.config.sramLowBank.toNat = 0x70 := rfl
  have h2 : sramListing.config.sramLowAddr.toNat = 0 := rfl
  have h3 : sramListing.config.cwSramLow.extractLsb' 0 5 = 0x1E := rfl
  rw [h1, h2, h3, image_get 1024 j hj]
  have : cartKey (some 0x1E) (busOfBankAddress .lowROM (0x70 + j / (0x8000 - 0)) (0 + j % (0x8000 - 0))) =
      0x1E * 2 ^ 24 + 0x708000 + j := by
    have h30 : (0x1E : Levels).toNat = 30 := rfl
    simp only [cartKey, busOfBankAddress, BitVec.toNat_ofNat, h30]
    omega
  show Memory.readByte (run _ _) (cartKey _ _) = _
  rw [this]
  exact run_read _ 1024 j hj

/-- A window of no bytes: code 7, no byte listed. -/
theorem witness_DumpSramReturnsTheWindow_empty :
    SessionInv low ∧ low.isOpen ∧ low.session.layoutLocked = true ∧ low.session.layout = some .lowROM ∧
    low.soundPorts ∧ low.steadyCart ∧
    low.config.sramLowBank.toNat +
      ((7 : Byte).toNat / 8 * 1024 + (0x8000 - low.config.sramLowAddr.toNat) - 1) /
        (0x8000 - low.config.sramLowAddr.toNat) ≤ 256 ∧
    ([] : List Byte).length = (7 : Byte).toNat / 8 * 1024 :=
  ⟨low_inv, rfl, rfl, rfl, by decide, by decide, by decide, by decide⟩

/-- A locked HighROM session whose cartridge lists the banks from 30:6000 on under the SRAM word. -/
def sramWrapping : State :=
  { high with env := { high.env with cart := run (0x1C * 2 ^ 24 + 0x306000) 0x12000 } }

/-- A window of 9216 bytes from 30:6000: the first 8192 up to 30:7FFF, the others from 31:6000 on. -/
theorem witness_DumpSramReturnsTheWindow_wrap :
    let image : List Byte := (List.range 9216).map fun j => .ofNat 8 (j / 8192 * 65536 + j % 8192)
    SessionInv sramWrapping ∧ sramWrapping.isOpen ∧ sramWrapping.session.layoutLocked = true ∧
    sramWrapping.session.layout = some .highROM ∧ sramWrapping.soundPorts ∧ sramWrapping.steadyCart ∧
    sramWrapping.config.sramHighBank.toNat +
      ((72 : Byte).toNat / 8 * 1024 + (0x8000 - sramWrapping.config.sramHighAddr.toNat) - 1) /
        (0x8000 - sramWrapping.config.sramHighAddr.toNat) ≤ 256 ∧
    image.length = (72 : Byte).toNat / 8 * 1024 ∧
    ∀ j < (72 : Byte).toNat / 8 * 1024,
      sramWrapping.cartAt (some (sramWrapping.config.cwSramHigh.extractLsb' 0 5))
          (busOfBankAddress .highROM
            (sramWrapping.config.sramHighBank.toNat + j / (0x8000 - sramWrapping.config.sramHighAddr.toNat))
            (sramWrapping.config.sramHighAddr.toNat + j % (0x8000 - sramWrapping.config.sramHighAddr.toNat))) =
        image[j]? := by
  intro image
  refine ⟨inv_cart high_inv (run_wf _ _), rfl, rfl, rfl, by decide, by decide, by decide, by simp [image], ?_⟩
  intro j hj
  have hj : j < 9216 := hj
  have h1 : sramWrapping.config.sramHighBank.toNat = 0x30 := rfl
  have h2 : sramWrapping.config.sramHighAddr.toNat = 0x6000 := rfl
  have h3 : sramWrapping.config.cwSramHigh.extractLsb' 0 5 = 0x1C := rfl
  have hi : image[j]? = some (.ofNat 8 (j / 8192 * 65536 + j % 8192)) := by simp [image, hj]
  rw [h1, h2, h3, hi]
  have : cartKey (some 0x1C) (busOfBankAddress .highROM (0x30 + j / (0x8000 - 0x6000)) (0x6000 + j % (0x8000 - 0x6000))) =
      0x1C * 2 ^ 24 + 0x306000 + (j / 8192 * 65536 + j % 8192) := by
    have h28 : (0x1C : Levels).toNat = 28 := rfl
    simp only [cartKey, busOfBankAddress, BitVec.toNat_ofNat, h28]
    omega
  show Memory.readByte (run _ _) (cartKey _ _) = _
  rw [this]
  exact run_read _ 0x12000 _ (by omega)

/-- The last of the 2053 transactions of a dump of 1024 bytes. -/
theorem witness_DumpSramFailureRestoresReadIdleFirst :
    (failingAt 2052 low).isOpen ∧ (failingAt 2052 low).session.layoutLocked = true ∧
    (failingAt 2052 low).session.layout = some .lowROM ∧
    (failingAt 2052 low).config.sramLowBank.toNat +
      ((8 : Byte).toNat / 8 * 1024 + (0x8000 - (failingAt 2052 low).config.sramLowAddr.toNat) - 1) /
        (0x8000 - (failingAt 2052 low).config.sramLowAddr.toNat) ≤ 256 ∧
    (failingAt 2052 low).firstFailure 2052 ∧
    (failingAt 2052 low).env.txn + 2052 < (after (.dumpSram 8 0) (failingAt 2052 low).withoutFailures).env.txn :=
  ⟨rfl, rfl, rfl, by decide, failingAt_first low 2052, by decide +kernel⟩

end Sys2Proof.Machine.Tests
end

section
/-! The family `00_scope.md`: how a step takes the host's next command (R4) and runs what it decodes to (R70). -/

namespace Sys2Proof.Machine

/-- Taking a command removes it from the head of the host's list and touches nothing else (00_scope.md R4). -/
theorem nextCommand_of_commands_cons {s : State} {w : CommandWord} {ws : List CommandWord}
    (hcmd : s.host.commands = w :: ws) :
    nextCommand s = some (w, { s with host := { s.host with commands := ws } }) := by
  simp only [nextCommand, hcmd]

/-- With a command taken whose word decodes, the step is that instruction at the state without the command. -/
theorem step_of_decode_ok {s s' : State} {w : CommandWord} {i : Instr}
    (hnext : nextCommand s = some (w, s')) (hdec : decode w = .ok i) : step s = exec i s' := by
  simp only [step, hnext, hdec]

/-- Settles O5: the command at the head of the list is the one taken, and it decodes to the instruction run. -/
theorem stepRunsTheDecodedCommand : Obligations.StepRunsTheDecodedCommand := by
  intro s w ws i hcmd hdec
  exact step_of_decode_ok (nextCommand_of_commands_cons hcmd) hdec

end Sys2Proof.Machine
end

section
/-! The family `10_state.md`, how a command ends: refused, completed from a state its work led to, or with a fatal error
taken where its work stopped (30_encoding.md R84, 60_exceptions.md R235, R236). Every claim below about what an
instruction can do goes through `exec_ends` and `execQuiesce_ends`. -/

namespace Sys2Proof.Machine

/-- The three ends of a command that begins at `s`. -/
inductive Ends (s : State) (Done Stopped : State → Prop) : State → Prop
  | refused (reason : RefuseReason) : Ends s Done Stopped (refuse reason s)
  | completed {u : State} (result : Option Result) (h : Done u) : Ends s Done Stopped (complete result u)
  | raised {u : State} (kind : FatalKind) (h : Stopped u) : Ends s Done Stopped (raise kind u)

theorem Ends.imp {s t : State} {D D' F F' : State → Prop} (h : Ends s D F t) (hd : ∀ u, D u → D' u)
    (hf : ∀ u, F u → F' u) : Ends s D' F' t := by
  cases h with
  | refused reason => exact .refused reason
  | completed result h => exact .completed result (hd _ h)
  | raised kind h => exact .raised kind (hf _ h)

section Rules

variable {s k : State} {D F : State → Prop}

theorem ends_whenOpen (h : s.isOpen → Ends s D F k) : Ends s D F (whenOpen s k) := by
  unfold whenOpen
  split
  · exact h ‹_›
  · exact .refused _

theorem ends_withLayout {k : Layout → State} (h : ∀ l, s.session.layout = some l → Ends s D F (k l)) :
    Ends s D F (withLayout s k) := by
  unfold withLayout
  split
  · exact h _ ‹_›
  · exact .refused _

theorem ends_withLockedLayout {k : Layout → State} (h : ∀ l, s.session.layout = some l → Ends s D F (k l)) :
    Ends s D F (withLockedLayout s k) := by
  unfold withLockedLayout
  split
  · exact ends_withLayout h
  · exact .refused _

theorem ends_orRaise {α : Type} {r : Txn α} {k : α → State → State}
    (hd : ∀ a u, r = .done a u → Ends s D F (k a u)) (hf : F r.final) : Ends s D F (orRaise r k) := by
  cases r with
  | done a u => exact hd a u rfl
  | failed u => exact .raised _ hf

end Rules

/-- The instructions whose answer is a value computed from their operands and the registers: a completed one leaves the
machine as it was. -/
def computes : Instr → Bool
  | .mapOffset _ _ | .unmapAddress _ _ _ | .validate _ _ | .decodeRomSize _ | .pageCount _ _ | .romPages _ => true
  | _ => false

/-- Where the work of an instruction leads, when it completes. -/
inductive WorkDone (s : State) : Instr → State → Prop
  | computed {i : Instr} (hi : computes i = true) : WorkDone s i s
  | opened {v : State} (hc : s.session.status ≠ .opened)
      (h : configurePorts (s.setLastError 0x00) = .done () v) : WorkDone s .sessionOpen (openSession (powerUp v))
  | applied (w : Byte) (ho : s.isOpen) : WorkDone s (.applyWord w) (lines .raw w s)
  | recovered (a : BitVec 17) (ho : s.isOpen) : WorkDone s (.gotoAddress a) (recoverAddress s)
  | addressed {a : BitVec 17} {l : Layout} {u : State} (ho : s.isOpen) (hl : s.session.layout = some l)
      (h : gotoAddressStep l (a.setWidth 16) s = .done () u) : WorkDone s (.gotoAddress a) u
  | banked {b : Byte} {u : State} (ho : s.isOpen) (h : gotoBankStep b s = .done () u) : WorkDone s (.gotoBank b) u
  | read {v : Byte} {u : State} (ho : s.isOpen) (h : portRead s = .done v u) : WorkDone s .readData u
  | positioned {o : Offset} {l : Layout} {u : State} (ho : s.isOpen) (hl : s.session.layout = some l)
      (h : gotoOffsetStep l o.toNat s = .done () u) : WorkDone s (.gotoOffset o) u
  | parsedLow {raw : List Byte} {u : State} (ho : s.isOpen) (hu : s.session.layoutLocked = false)
      (h : readBlock .lowROM (s.setLayout .lowROM) = .done raw u) (hn : layoutNibble raw = 0)
      (hv : checksumPairValid (extractHeader raw).checksum (extractHeader raw).inverseChecksum = true) :
      WorkDone s .parseHeader (u.lockHeader (extractHeader raw))
  | parsedHigh {first raw : List Byte} {v u : State} (ho : s.isOpen) (hu : s.session.layoutLocked = false)
      (h : readBlock .lowROM (s.setLayout .lowROM) = .done first v)
      (h' : readBlock .highROM (v.setLayout .highROM) = .done raw u)
      (hv : checksumPairValid (extractHeader raw).checksum (extractHeader raw).inverseChecksum = true) :
      WorkDone s .parseHeader (u.lockHeader (extractHeader raw))
  | romDumped {b : Byte} {n : Nat} {l : Layout} {bs : List Byte} {u : State} (ho : s.isOpen)
      (hl : s.session.layout = some l)
      (h : runPasses l (passList s.config b n l) s.clearSums = .done bs u) : WorkDone s (.dumpRom b n) u.countDump
  | sramDumped {c d : Byte} {l : Layout} {n b a : Nat} {bs : List Byte} {u : State} (ho : s.isOpen)
      (hl : s.session.layout = some l)
      (h : sramLoop l a n b a (lines .sramEnabled (sramControlWord s.config l) s.clearSums) = .done bs u) :
      WorkDone s (.dumpSram c d) (restoreReadIdle u).countDump

/-- Where the work of an instruction has come to, when it takes a fatal error. -/
inductive WorkStopped (s : State) : Instr → State → Prop
  | opening : WorkStopped s .sessionOpen (configurePorts (s.setLastError 0x00)).final
  | addressing (a : BitVec 17) (l : Layout) :
      WorkStopped s (.gotoAddress a) (gotoAddressStep l (a.setWidth 16) s).final
  | banking (b : Byte) : WorkStopped s (.gotoBank b) (gotoBankStep b s).final
  | reading : WorkStopped s .readData (portRead s).final
  | positioning (o : Offset) (l : Layout) : WorkStopped s (.gotoOffset o) (gotoOffsetStep l o.toNat s).final
  | parsingFirst (hu : s.session.layoutLocked = false) :
      WorkStopped s .parseHeader (readBlock .lowROM (s.setLayout .lowROM)).final
  | parsingSecond {first : List Byte} {v : State} (hu : s.session.layoutLocked = false)
      (h : readBlock .lowROM (s.setLayout .lowROM) = .done first v) :
      WorkStopped s .parseHeader (readBlock .highROM (v.setLayout .highROM)).final
  | counting (c : Byte) : WorkStopped s (.romPages c) s
  | dumpingRom (b : Byte) (n : Nat) (l : Layout) :
      WorkStopped s (.dumpRom b n) (runPasses l (passList s.config b n l) s.clearSums).final
  | dumpingSram (c d : Byte) (l : Layout) (n b a : Nat) :
      WorkStopped s (.dumpSram c d)
        (restoreReadIdle
          (sramLoop l a n b a (lines .sramEnabled (sramControlWord s.config l) s.clearSums)).final)

/-- The acceptance gate on the final block: the header of a valid pair, or a fatal error (43_header_parser.md R151). -/
theorem ends_acceptHeader {s u : State} {raw : List Byte} {D F : State → Prop}
    (hd : checksumPairValid (extractHeader raw).checksum (extractHeader raw).inverseChecksum = true →
      D (u.lockHeader (extractHeader raw))) (hf : F u) : Ends s D F (acceptHeader raw u) := by
  simp only [acceptHeader]
  split
  · exact .completed _ (hd ‹_›)
  · exact .raised _ hf

theorem execSessionOpen_ends {s t : State} (h : execSessionOpen s = .next t) :
    Ends s (WorkDone s .sessionOpen) (WorkStopped s .sessionOpen) t := by
  cases h
  split
  · exact .refused _
  · exact ends_orRaise (fun _ _ hr => .completed _ (.opened ‹_› hr)) .opening

theorem execGotoAddress_ends {a : BitVec 17} {s t : State} (h : execGotoAddress a s = .next t) :
    Ends s (WorkDone s (.gotoAddress a)) (WorkStopped s (.gotoAddress a)) t := by
  cases h
  refine ends_whenOpen fun ho => ?_
  split
  · exact .completed _ (.recovered a ho)
  · split
    · exact .refused _
    · exact ends_withLayout fun l hl =>
        ends_orRaise (fun _ _ hr => .completed _ (.addressed ho hl hr)) (.addressing a l)

theorem execGotoOffset_ends {o : Offset} {s t : State} (h : execGotoOffset o s = .next t) :
    Ends s (WorkDone s (.gotoOffset o)) (WorkStopped s (.gotoOffset o)) t := by
  cases h
  refine ends_whenOpen fun ho => ends_withLayout fun l hl => ?_
  split
  · exact ends_orRaise (fun _ _ hr => .completed _ (.positioned ho hl hr)) (.positioning o l)
  · exact .refused _

/-- The three ways of 43_header_parser.md R149: the first block is the final one, a second block is, or neither. -/
theorem execParseHeader_ends {s t : State} (h : execParseHeader s = .next t) :
    Ends s (WorkDone s .parseHeader) (WorkStopped s .parseHeader) t := by
  cases h
  refine ends_whenOpen fun ho => ?_
  split
  · exact .refused _
  · have hu : s.session.layoutLocked = false := Bool.eq_false_iff.mpr ‹_›
    refine ends_orRaise (fun first v hv => ?_) (.parsingFirst hu)
    have hfirst : WorkStopped s .parseHeader v := by simpa only [hv, final_done] using WorkStopped.parsingFirst hu
    unfold decideLayout
    split
    · exact ends_acceptHeader (.parsedLow ho hu hv ‹_›) hfirst
    · split
      · refine ends_orRaise (fun raw u hu' => ends_acceptHeader (.parsedHigh ho hu hv hu') ?_) (.parsingSecond hu hv)
        simpa only [hu', final_done] using WorkStopped.parsingSecond hu hv
      · exact .raised _ hfirst

theorem execRomPages_ends {c : Byte} {s t : State} (h : execRomPages c s = .next t) :
    Ends s (WorkDone s (.romPages c)) (WorkStopped s (.romPages c)) t := by
  cases h
  refine ends_whenOpen fun _ => ends_withLockedLayout fun l _ => ?_
  split
  · exact .completed _ (.computed rfl)
  · exact .raised _ (.counting c)

theorem execDumpRom_ends {b : Byte} {n : Nat} {s t : State} (h : execDumpRom b n s = .next t) :
    Ends s (WorkDone s (.dumpRom b n)) (WorkStopped s (.dumpRom b n)) t := by
  cases h
  refine ends_whenOpen fun ho => ends_withLockedLayout fun l hl => ?_
  simp only
  split
  · exact ends_orRaise (fun _ _ hr => .completed _ (.romDumped ho hl hr)) (.dumpingRom b n l)
  · exact .refused _

theorem execDumpSram_ends {c d : Byte} {s t : State} (h : execDumpSram c d s = .next t) :
    Ends s (WorkDone s (.dumpSram c d)) (WorkStopped s (.dumpSram c d)) t := by
  cases h
  refine ends_whenOpen fun ho => ends_withLockedLayout fun l hl => ?_
  simp only
  split
  · have hstop : WorkStopped s (.dumpSram c d) _ :=
      .dumpingSram c d l (sramBytes c) (sramOriginBank s.config l) (sramOriginAddr s.config l)
    cases hr : sramLoop l (sramOriginAddr s.config l) (sramBytes c) (sramOriginBank s.config l)
        (sramOriginAddr s.config l) (lines .sramEnabled (sramControlWord s.config l) s.clearSums) with
    | done bs u => exact .completed _ (.sramDumped ho hl hr)
    | failed u => rw [hr] at hstop; exact .raised _ hstop
  · exact .refused _

/-- Every instruction but `QUIESCE` is refused, completes from a `WorkDone` state or takes a fatal error in a
`WorkStopped` one. -/
theorem exec_ends {i : Instr} {s t : State} (hi : i ≠ .quiesce) (h : exec i s = .next t) :
    Ends s (WorkDone s i) (WorkStopped s i) t := by
  cases i with
  | sessionOpen => exact execSessionOpen_ends h
  | quiesce => exact absurd rfl hi
  | applyWord w => cases h; exact ends_whenOpen fun ho => .completed _ (.applied w ho)
  | gotoAddress a => exact execGotoAddress_ends h
  | gotoBank b =>
    cases h
    exact ends_whenOpen fun ho => ends_orRaise (fun _ _ hr => .completed _ (.banked ho hr)) (.banking b)
  | readData =>
    cases h
    exact ends_whenOpen fun ho => ends_orRaise (fun _ _ hr => .completed _ (.read ho hr)) .reading
  | mapOffset o l =>
    cases h
    split
    · exact .completed _ (.computed rfl)
    · exact .refused _
  | unmapAddress b a l =>
    cases h
    split
    · exact .completed _ (.computed rfl)
    · exact .refused _
  | gotoOffset o => exact execGotoOffset_ends h
  | validate c d => cases h; exact .completed _ (.computed rfl)
  | parseHeader => exact execParseHeader_ends h
  | decodeRomSize c => cases h; exact .completed _ (.computed rfl)
  | pageCount n l => cases h; exact .completed _ (.computed rfl)
  | romPages c => exact execRomPages_ends h
  | dumpRom b n => exact execDumpRom_ends h
  | dumpSram c d => exact execDumpSram_ends h

/-- `QUIESCE` ends in the quiesce sequence, and in a fatal error recorded after it if one of its transactions failed
(70_reset_and_hazards.md R265, 60_exceptions.md R239). -/
theorem execQuiesce_ends {s t : State} (h : execQuiesce s = .next t) :
    t = complete none (quiesceSequence s).1 ∨
    t = ((quiesceSequence s).1.setLastError FatalKind.portTransactionFailure.code).respond
      (.fatal .portTransactionFailure) none := by
  cases h
  split
  · exact .inl rfl
  · exact .inr rfl

end Sys2Proof.Machine
end

section
/-! The family `10_state.md`, what instructions leave alone: what none of them writes (`WorldKept`), and what the work
of one that neither opens nor closes a session keeps (`OpFrame`). -/

namespace Sys2Proof.Machine

/-! ### What nothing writes (00_scope.md section 5, 10_state.md R33, R36) -/

/-- The parameters, the commands to come and what the environment holds are as before; transactions are counted up and
the record grows. -/
structure WorldKept (s t : State) : Prop where
  config : t.config = s.config
  commands : t.host.commands = s.host.commands
  cart : t.env.cart = s.env.cart
  answers : t.env.answers = s.env.answers
  failing : t.env.failing = s.env.failing
  txn : s.env.txn ≤ t.env.txn
  trace : ∃ es, t.env.trace = es ++ s.env.trace

theorem worldKept_of_eq {s t : State} (hc : t.config = s.config) (hh : t.host.commands = s.host.commands)
    (he : t.env = s.env) : WorldKept s t :=
  ⟨hc, hh, by rw [he], by rw [he], by rw [he], by rw [he], [], by rw [he]; rfl⟩

theorem WorldKept.refl (s : State) : WorldKept s s :=
  worldKept_of_eq rfl rfl rfl

theorem WorldKept.trans {s t u : State} (h : WorldKept s t) (k : WorldKept t u) : WorldKept s u where
  config := k.config.trans h.config
  commands := k.commands.trans h.commands
  cart := k.cart.trans h.cart
  answers := k.answers.trans h.answers
  failing := k.failing.trans h.failing
  txn := Nat.le_trans h.txn k.txn
  trace := by
    obtain ⟨es, he⟩ := h.trace
    obtain ⟨ds, hd⟩ := k.trace
    exact ⟨ds ++ es, by rw [hd, he, List.append_assoc]⟩

theorem OneTransaction.worldKept {s t : State} (h : OneTransaction s t) : WorldKept s t where
  config := h.config
  commands := by rw [h.host]
  cart := h.cart
  answers := h.answers
  failing := h.failing
  txn := by rw [h.txn]; exact Nat.le_succ _
  trace := by
    obtain ⟨e, he⟩ := h.trace
    exact ⟨[e], he⟩

theorem BusFrame.worldKept {s t : State} (h : BusFrame s t) : WorldKept s t where
  config := h.config
  commands := by rw [h.host]
  cart := h.cart
  answers := h.answers
  failing := h.failing
  txn := h.txn
  trace := by
    obtain ⟨es, he, _⟩ := h.trace
    exact ⟨es, he⟩

theorem respond_worldKept (s : State) (c : Status) (r : Option Result) : WorldKept s (s.respond c r) :=
  worldKept_of_eq rfl rfl rfl

theorem lines_worldKept (p : LinePhase) (w : Byte) (s : State) : WorldKept s (lines p w s) :=
  ⟨rfl, rfl, rfl, rfl, rfl, Nat.le_refl _, [_], rfl⟩

theorem powerUp_worldKept (s : State) : WorldKept s (powerUp s) := by
  rw [powerUp_eq]
  exact ⟨rfl, rfl, rfl, rfl, rfl, Nat.le_refl _, _ :: _, rfl⟩

theorem quiesceSequence_worldKept (s : State) : WorldKept s (quiesceSequence s).1 := by
  obtain ⟨hc, _, _, hh, hcart, ha, hf, hn, ht, _⟩ := quiesceSequence_frame s
  exact ⟨hc, by rw [hh], hcart, ha, hf, by omega, _ ++ [_], by rw [ht, List.append_assoc]; rfl⟩

theorem raise_worldKept (k : FatalKind) (s : State) : WorldKept s (raise k s) :=
  ((worldKept_of_eq (s := s) (t := s.setLastError k.code) rfl rfl rfl).trans (quiesceSequence_worldKept _)).trans
    (respond_worldKept _ (.fatal k) none)

/-- A relation between the first and the last state of a sequence, built over its first part and the rest. -/
theorem bind_final {α β : Type} {R : State → State → Prop} (htrans : ∀ {s t u}, R s t → R t u → R s u) {s : State}
    {r : Txn α} {k : α → State → Txn β} (h : R s r.final) (hk : ∀ a t, R t (k a t).final) :
    R s (r.bind k).final := by
  cases r with
  | done a t => exact htrans h (hk a t)
  | failed t => exact h

/-- What each transaction of session creation keeps, they all keep (70_reset_and_hazards.md R262). -/
theorem configurePorts_final {R : State → State → Prop} (htrans : ∀ {s t u}, R s t → R t u → R s u)
    (hdir : ∀ p d s, R s (portDir p d s).final) (hpull : ∀ m s, R s (portPull m s).final) (s : State) :
    R s (configurePorts s).final :=
  bind_final (R := R) htrans (hdir _ _ _) fun _ _ => bind_final (R := R) htrans (hdir _ _ _) fun _ _ =>
    bind_final (R := R) htrans (hdir _ _ _) fun _ _ => bind_final (R := R) htrans (hdir _ _ _) fun _ _ => hpull _ _

theorem configurePorts_worldKept (s : State) : WorldKept s (configurePorts s).final :=
  configurePorts_final (R := WorldKept) WorldKept.trans (fun p d s => (portDir_once p d s).worldKept)
    (fun m s => (portPull_once m s).worldKept) s

/-! ### The latch of `DATA`, which no operation drives (10_state.md R32) -/

/-- The output latch of `DATA` is as before. -/
def DataLatchKept (s t : State) : Prop :=
  t.ports.data.out = s.ports.data.out

theorem DataLatchKept.trans {s t u : State} (h : DataLatchKept s t) (k : DataLatchKept t u) : DataLatchKept s u :=
  Eq.trans k h

theorem portDir_dataLatchKept (p : PortId) (d : Direction) (s : State) : DataLatchKept s (portDir p d s).final := by
  rw [DataLatchKept, (portDir_final p d s).2]
  cases p <;> rfl

theorem portPull_dataLatchKept (m : Byte) (s : State) : DataLatchKept s (portPull m s).final := by
  rw [DataLatchKept, (portPull_final m s).2]

theorem portIntClear_dataLatchKept (p : PortId) (s : State) : DataLatchKept s (portIntClear p s).final := by
  rw [DataLatchKept, (portIntClear_final p s).2]
  cases p <;> rfl

theorem configurePorts_dataLatchKept (s : State) : DataLatchKept s (configurePorts s).final :=
  configurePorts_final (R := DataLatchKept) DataLatchKept.trans portDir_dataLatchKept portPull_dataLatchKept s

theorem quiesceTransactions_dataLatchKept : ∀ t ∈ quiesceTransactions, ∀ s, DataLatchKept s (t s).final := by
  simp only [quiesceTransactions, List.forall_mem_cons, portPull_dataLatchKept, portIntClear_dataLatchKept,
    portDir_dataLatchKept, implies_true, List.not_mem_nil, false_implies, and_true]
  refine ⟨fun s => ?_, fun s => ?_, fun s => ?_⟩ <;> exact congrArg Port.out (portWrite_frame (by decide) 0 s).data

theorem attemptAll_dataLatchKept {ts : List (State → Txn Unit)} (hts : ∀ t ∈ ts, ∀ s, DataLatchKept s (t s).final)
    (s : State) : DataLatchKept s (attemptAll ts s).1 := by
  induction ts generalizing s with
  | nil => rfl
  | cons t ts ih =>
    rw [attemptAll_cons]
    exact (hts t List.mem_cons_self s).trans (ih (fun u hu => hts u (List.mem_cons_of_mem _ hu)) _)

theorem quiesceSequence_dataLatchKept (s : State) : DataLatchKept s (quiesceSequence s).1 :=
  attemptAll_dataLatchKept quiesceTransactions_dataLatchKept (lines .off s.config.cwQuiesce s)

theorem raise_dataLatchKept (k : FatalKind) (s : State) : DataLatchKept s (raise k s) :=
  quiesceSequence_dataLatchKept (s.setLastError k.code)

/-! ### `currentOffset` and the accumulators (10_state.md R15, R16, R17) -/

/-- The accumulators. -/
def Session.sums (r : Session) : Sum × Sum :=
  (r.runningChecksum, r.pageSum)

/-- `currentOffset` and the accumulators. -/
def Session.counters (r : Session) : Offset × Sum × Sum :=
  (r.currentOffset, r.sums)

/-- A part of the state that both parts of a sequence keep. -/
theorem bind_keeps {α β γ : Type} (f : State → γ) {s : State} {r : Txn α} {k : α → State → Txn β}
    (h : f r.final = f s) (hk : ∀ a t, f (k a t).final = f t) : f (r.bind k).final = f s :=
  bind_final (R := fun s t => f t = f s) (fun h k => k.trans h) h hk

theorem debouncedWrite_session (p : PortId) (c : Option Byte) (v : Byte) (s : State) :
    (debouncedWrite p c v s).final.session = s.session := by
  unfold debouncedWrite
  split
  · rfl
  · exact (portWrite_once p v s).session

theorem gotoBankStep_counters (b : Byte) (s : State) :
    (gotoBankStep b s).final.session.counters = s.session.counters :=
  bind_keeps (fun s => s.session.counters) (congrArg _ (debouncedWrite_session _ _ _ s)) fun _ _ => rfl

theorem gotoAddressStep_counters (l : Layout) (a : Address) (s : State) :
    (gotoAddressStep l a s).final.session.counters = s.session.counters :=
  bind_keeps (fun s => s.session.counters) (congrArg _ (debouncedWrite_session _ _ _ s)) fun _ t =>
    bind_keeps (s := t.setCachedUpper (upperByte l a)) (fun s => s.session.counters)
      (congrArg _ (debouncedWrite_session _ _ _ _)) fun _ _ => rfl

theorem portRead_counters (s : State) : (portRead s).final.session.counters = s.session.counters :=
  congrArg _ (portRead_once s).session

theorem gotoOffsetStep_sums (l : Layout) (o : Nat) (s : State) :
    (gotoOffsetStep l o s).final.session.sums = s.session.sums :=
  bind_keeps (fun s => s.session.sums) (congrArg Prod.snd (gotoBankStep_counters _ s)) fun _ t =>
    bind_keeps (fun s => s.session.sums) (congrArg Prod.snd (gotoAddressStep_counters l _ t)) fun _ _ => rfl

theorem readAscending_sums (l : Layout) (count offset : Nat) (s : State) :
    (readAscending l count offset s).final.session.sums = s.session.sums := by
  induction count generalizing offset s with
  | zero => rfl
  | succ n ih =>
    obtain ⟨hr, hp⟩ := readAtOffset_sums l offset s
    exact bind_keeps (fun s => s.session.sums) (Prod.ext hr hp) fun _ t =>
      bind_keeps (fun s => s.session.sums) (ih (offset + 1) t) fun _ _ => rfl

theorem sramLoop_currentOffset (l : Layout) (a0 count sb sa : Nat) (s : State) :
    (sramLoop l a0 count sb sa s).final.session.currentOffset = s.session.currentOffset := by
  induction count generalizing sb sa s with
  | zero => rfl
  | succ n ih =>
    exact bind_keeps (fun s => s.session.currentOffset) (congrArg Prod.fst (gotoBankStep_counters _ s)) fun _ t =>
      bind_keeps (fun s => s.session.currentOffset) (congrArg Prod.fst (gotoAddressStep_counters l _ t)) fun _ u =>
        bind_keeps (fun s => s.session.currentOffset) (congrArg Prod.fst (portRead_counters u)) fun v w =>
          bind_keeps (s := w.addToRunning v) (fun s => s.session.currentOffset) (ih _ _ _) fun _ _ => rfl

/-- The instructions that may write `currentOffset` (10_state.md R17). -/
def writesOffset : Instr → Bool
  | .gotoOffset _ | .parseHeader | .dumpRom _ _ | .sessionOpen => true
  | _ => false

/-- The instructions that may write the accumulators (10_state.md R15, R16). -/
def writesSums : Instr → Bool
  | .dumpRom _ _ | .dumpSram _ _ | .sessionOpen => true
  | _ => false

theorem writesOffset_cases {i : Instr} (h : writesOffset i = true) :
    (∃ o, i = .gotoOffset o) ∨ i = .parseHeader ∨ (∃ b n, i = .dumpRom b n) ∨ i = .sessionOpen := by
  cases i with
  | gotoOffset o => exact .inl ⟨o, rfl⟩
  | parseHeader => exact .inr (.inl rfl)
  | dumpRom b n => exact .inr (.inr (.inl ⟨b, n, rfl⟩))
  | sessionOpen => exact .inr (.inr (.inr rfl))
  | _ => exact absurd h Bool.false_ne_true

theorem writesSums_cases {i : Instr} (h : writesSums i = true) :
    (∃ b n, i = .dumpRom b n) ∨ (∃ c d, i = .dumpSram c d) ∨ i = .sessionOpen := by
  cases i with
  | dumpRom b n => exact .inl ⟨b, n, rfl⟩
  | dumpSram c d => exact .inr (.inl ⟨c, d, rfl⟩)
  | sessionOpen => exact .inr (.inr rfl)
  | _ => exact absurd h Bool.false_ne_true

/-! ### What the work of an instruction keeps, while a session is neither opened nor closed -/

/-- What instruction `i` keeps from the state `s` it begins at to a state `t` its work leads to. -/
structure OpFrame (i : Instr) (s t : State) : Prop extends WorldKept s t where
  status : t.session.status = s.session.status
  lastError : t.session.lastError = s.session.lastError
  locked : s.session.layoutLocked = true →
    t.session.layout = s.session.layout ∧ t.session.layoutLocked = true ∧ t.session.header = s.session.header
  currentOffset : writesOffset i = true ∨ t.session.currentOffset = s.session.currentOffset
  sums : writesSums i = true ∨ t.session.sums = s.session.sums
  dirs : (t.ports.aHi.dir, t.ports.aLo.dir, t.ports.bank.dir, t.ports.data.dir) =
    (s.ports.aHi.dir, s.ports.aLo.dir, s.ports.bank.dir, s.ports.data.dir)
  intens : (t.ports.aHi.inten, t.ports.aLo.inten, t.ports.bank.inten, t.ports.data.inten) =
    (s.ports.aHi.inten, s.ports.aLo.inten, s.ports.bank.inten, s.ports.data.inten)
  pull : t.ports.pull = s.ports.pull
  dataLatch : DataLatchKept s t

theorem OpFrame.trans {i : Instr} {s t u : State} (h : OpFrame i s t) (k : OpFrame i t u) : OpFrame i s u where
  toWorldKept := h.toWorldKept.trans k.toWorldKept
  status := k.status.trans h.status
  lastError := k.lastError.trans h.lastError
  locked hs := by
    obtain ⟨hl, hlk, hh⟩ := h.locked hs
    obtain ⟨kl, klk, kh⟩ := k.locked hlk
    exact ⟨kl.trans hl, klk, kh.trans hh⟩
  currentOffset := k.currentOffset.elim .inl fun hk => h.currentOffset.imp id hk.trans
  sums := k.sums.elim .inl fun hk => h.sums.imp id hk.trans
  dirs := k.dirs.trans h.dirs
  intens := k.intens.trans h.intens
  pull := k.pull.trans h.pull
  dataLatch := h.dataLatch.trans k.dataLatch

theorem BusFrame.opFrame {i : Instr} {s t : State} (h : BusFrame s t)
    (ho : writesOffset i = true ∨ t.session.currentOffset = s.session.currentOffset)
    (hs : writesSums i = true ∨ t.session.sums = s.session.sums) : OpFrame i s t := by
  obtain ⟨hd, hd', hd''⟩ := h.dirs
  obtain ⟨hi, hi', hi''⟩ := h.intens
  exact
    { toWorldKept := h.worldKept, status := h.status, lastError := h.lastError
      locked := fun hl => ⟨h.layout, h.layoutLocked.trans hl, h.header⟩
      currentOffset := ho, sums := hs, dirs := by rw [hd, hd', hd'', h.data]
      intens := by rw [hi, hi', hi'', h.data], pull := h.pull, dataLatch := congrArg Port.out h.data }

theorem BusFrame.opFrame_of_counters {i : Instr} {s t : State} (h : BusFrame s t)
    (hc : t.session.counters = s.session.counters) : OpFrame i s t :=
  h.opFrame (.inr (congrArg Prod.fst hc)) (.inr (congrArg Prod.snd hc))

theorem OpFrame.refl (i : Instr) (s : State) : OpFrame i s s :=
  (BusFrame.refl s).opFrame_of_counters rfl

/-- An update of the registers that `OpFrame` does not speak of, beside whatever the environment records. -/
theorem WorldKept.opFrame {i : Instr} {s t : State} (h : WorldKept s t) (hp : t.ports = s.ports)
    (hs : t.session =
      { s.session with
        address := t.session.address, bank := t.session.bank, cachedUpperByte := t.session.cachedUpperByte
        cachedLowerByte := t.session.cachedLowerByte, cachedBank := t.session.cachedBank
        ctrl := t.session.ctrl }) : OpFrame i s t where
  toWorldKept := h
  status := by rw [hs]
  lastError := by rw [hs]
  locked := fun hl => by rw [hs]; exact ⟨rfl, hl, rfl⟩
  currentOffset := .inr (by rw [hs])
  sums := .inr (by rw [hs]; rfl)
  dirs := by rw [hp]
  intens := by rw [hp]
  pull := by rw [hp]
  dataLatch := by rw [DataLatchKept, hp]

theorem lines_opFrame (i : Instr) (p : LinePhase) (w : Byte) (s : State) : OpFrame i s (lines p w s) :=
  (lines_worldKept p w s).opFrame rfl rfl

theorem recoverAddress_opFrame (i : Instr) (s : State) : OpFrame i s (recoverAddress s) :=
  (worldKept_of_eq (s := s) (t := recoverAddress s) rfl rfl rfl).opFrame rfl rfl

theorem countDump_opFrame (i : Instr) (s : State) : OpFrame i s s.countDump :=
  (worldKept_of_eq (s := s) (t := s.countDump) rfl rfl rfl).opFrame rfl rfl

theorem clearSums_opFrame {i : Instr} (s : State) (hi : writesSums i = true) : OpFrame i s s.clearSums :=
  (clearSums_sumsOnly s).frame.opFrame (.inr rfl) (.inl hi)

/-- An unlocked layout may be set, and with it the header. -/
theorem opFrame_of_unlocked (i : Instr) {s t : State} (hu : s.session.layoutLocked = false)
    (ht : t = { s with session := { s.session with
      layout := t.session.layout, layoutLocked := t.session.layoutLocked, header := t.session.header } }) :
    OpFrame i s t := by
  rw [ht]
  exact { toWorldKept := worldKept_of_eq rfl rfl rfl, status := rfl, lastError := rfl
          locked := fun hl => absurd (hu.symm.trans hl) Bool.false_ne_true
          currentOffset := .inr rfl, sums := .inr rfl, dirs := rfl, intens := rfl, pull := rfl, dataLatch := rfl }

theorem gotoBankStep_opFrame (i : Instr) (b : Byte) (s : State) : OpFrame i s (gotoBankStep b s).final :=
  (gotoBankStep_frame b s).opFrame_of_counters (gotoBankStep_counters b s)

theorem gotoAddressStep_opFrame (i : Instr) (l : Layout) (a : Address) (s : State) :
    OpFrame i s (gotoAddressStep l a s).final :=
  (gotoAddressStep_frame l a s).opFrame_of_counters (gotoAddressStep_counters l a s)

theorem portRead_opFrame (i : Instr) (s : State) : OpFrame i s (portRead s).final :=
  (portRead_frame s).opFrame_of_counters (portRead_counters s)

theorem gotoOffsetStep_opFrame {i : Instr} (l : Layout) (o : Nat) (s : State) (hi : writesOffset i = true) :
    OpFrame i s (gotoOffsetStep l o s).final :=
  (gotoOffsetStep_frame l o s).opFrame (.inl hi) (.inr (gotoOffsetStep_sums l o s))

/-- One block read of an unlocked session, the layout set first (43_header_parser.md R149). -/
theorem readBlock_opFrame (l : Layout) {s : State} (hu : s.session.layoutLocked = false) :
    OpFrame .parseHeader s (readBlock l (s.setLayout l)).final ∧
    (readBlock l (s.setLayout l)).final.session.layoutLocked = false := by
  have hf := readAscending_frame l headerLength (headerBase l) (s.setLayout l)
  refine ⟨(opFrame_of_unlocked _ hu rfl).trans (hf.opFrame (.inl rfl) (.inr ?_)), hf.layoutLocked.trans hu⟩
  exact readAscending_sums l headerLength (headerBase l) (s.setLayout l)

theorem runPasses_opFrame (b : Byte) (n : Nat) (l : Layout) (ps : List (Nat × Nat)) (s : State) :
    OpFrame (.dumpRom b n) s (runPasses l ps s.clearSums).final :=
  (clearSums_opFrame s rfl).trans ((runPasses_frame l ps s.clearSums).opFrame (.inl rfl) (.inl rfl))

theorem sramLoop_opFrame (c d : Byte) (l : Layout) (a0 n sb sa : Nat) (w : Byte) (s : State) :
    OpFrame (.dumpSram c d) s (restoreReadIdle (sramLoop l a0 n sb sa (lines .sramEnabled w s.clearSums)).final) :=
  (((clearSums_opFrame s rfl).trans (lines_opFrame _ _ w _)).trans
    ((sramLoop_frame l a0 n sb sa _).opFrame (.inr (sramLoop_currentOffset l a0 n sb sa _)) (.inl rfl))).trans
    (lines_opFrame _ _ _ _)

theorem WorkDone.opFrame {i : Instr} {s u : State} (hi : i ≠ .sessionOpen) (h : WorkDone s i u) : OpFrame i s u := by
  cases h with
  | computed => exact OpFrame.refl i s
  | opened => exact absurd rfl hi
  | applied w => exact lines_opFrame _ _ w s
  | recovered a => exact recoverAddress_opFrame _ s
  | @addressed a l _ _ _ hr =>
    simpa only [hr, final_done] using gotoAddressStep_opFrame (.gotoAddress a) l (a.setWidth 16) s
  | @banked b _ _ hr => simpa only [hr, final_done] using gotoBankStep_opFrame (.gotoBank b) b s
  | read _ hr => simpa only [hr, final_done] using portRead_opFrame .readData s
  | @positioned o l _ _ _ hr =>
    simpa only [hr, final_done] using gotoOffsetStep_opFrame (i := .gotoOffset o) l o.toNat s rfl
  | parsedLow _ hu hr =>
    obtain ⟨hf, hu'⟩ := readBlock_opFrame .lowROM hu
    rw [hr, final_done] at hf hu'
    exact hf.trans (opFrame_of_unlocked _ hu' rfl)
  | parsedHigh _ hu hr hr' =>
    obtain ⟨hf, hu'⟩ := readBlock_opFrame .lowROM hu
    rw [hr, final_done] at hf hu'
    obtain ⟨hf', hu''⟩ := readBlock_opFrame .highROM hu'
    rw [hr', final_done] at hf' hu''
    exact (hf.trans hf').trans (opFrame_of_unlocked _ hu'' rfl)
  | @romDumped b n l _ _ _ _ hr =>
    have hf := runPasses_opFrame b n l (passList s.config b n l) s
    rw [hr, final_done] at hf
    exact hf.trans (countDump_opFrame _ _)
  | @sramDumped c d l n b a _ _ _ _ hr =>
    have hf := sramLoop_opFrame c d l a n b a (sramControlWord s.config l) s
    rw [hr, final_done] at hf
    exact hf.trans (countDump_opFrame _ _)

theorem WorkStopped.opFrame {i : Instr} {s u : State} (hi : i ≠ .sessionOpen) (h : WorkStopped s i u) :
    OpFrame i s u := by
  cases h with
  | opening => exact absurd rfl hi
  | addressing a l => exact gotoAddressStep_opFrame _ l _ s
  | banking b => exact gotoBankStep_opFrame _ b s
  | reading => exact portRead_opFrame _ s
  | positioning o l => exact gotoOffsetStep_opFrame l o.toNat s rfl
  | parsingFirst hu => exact (readBlock_opFrame .lowROM hu).1
  | parsingSecond hu hr =>
    obtain ⟨hf, hu'⟩ := readBlock_opFrame .lowROM hu
    rw [hr, final_done] at hf hu'
    exact hf.trans (readBlock_opFrame .highROM hu').1
  | counting c => exact OpFrame.refl _ s
  | dumpingRom b n l => exact runPasses_opFrame b n l _ s
  | dumpingSram c d l n b a => exact sramLoop_opFrame c d l a n b a _ s

/-- What can become of everything `OpFrame` speaks of: an instruction other than `SESSION_OPEN` and `QUIESCE` answers
from a state in which it is kept, or takes a fatal error there. -/
theorem exec_opFrame {i : Instr} {s t : State} (ho : i ≠ .sessionOpen) (hq : i ≠ .quiesce) (h : exec i s = .next t) :
    Ends s (OpFrame i s) (OpFrame i s) t :=
  (exec_ends hq h).imp (fun _ => WorkDone.opFrame ho) (fun _ => WorkStopped.opFrame ho)

end Sys2Proof.Machine
end

section
/-! The family `10_state.md`, its statements about what may move: power-on, memory and parameters, a locked layout, the
port configuration, the counters and `lastError`. -/

namespace Sys2Proof.Machine

/-- Settles O8: the reset values. -/
theorem powerOnIsClosedWithNoErrorAndNoHeader : Obligations.PowerOnIsClosedWithNoErrorAndNoHeader :=
  ⟨rfl, rfl, rfl⟩

/-- The work of `SESSION_OPEN`: the ports configured from a closed session, the lines raised, the registers cold
(70_reset_and_hazards.md R262). -/
theorem WorkDone.sessionOpen {s u : State} (h : WorkDone s .sessionOpen u) :
    s.session.status ≠ .opened ∧
    ∃ v, configurePorts (s.setLastError 0x00) = .done () v ∧ u = openSession (powerUp v) := by
  cases h with
  | computed hc => exact absurd hc Bool.false_ne_true
  | opened hc hv => exact ⟨hc, _, hv, rfl⟩

/-! ### What no instruction writes -/

theorem setLastError_worldKept (s : State) (c : Byte) : WorldKept s (s.setLastError c) :=
  worldKept_of_eq rfl rfl rfl

theorem WorkDone.worldKept {i : Instr} {s u : State} (h : WorkDone s i u) : WorldKept s u := by
  by_cases hi : i = .sessionOpen
  · subst hi
    obtain ⟨_, v, hv, rfl⟩ := h.sessionOpen
    have hw := configurePorts_worldKept (s.setLastError 0x00)
    rw [hv, final_done] at hw
    exact (((setLastError_worldKept s 0x00).trans hw).trans (powerUp_worldKept v)).trans
      (worldKept_of_eq rfl rfl rfl)
  · exact (h.opFrame hi).toWorldKept

theorem WorkStopped.worldKept {i : Instr} {s u : State} (h : WorkStopped s i u) : WorldKept s u := by
  by_cases hi : i = .sessionOpen
  · subst hi
    cases h
    exact (setLastError_worldKept s 0x00).trans (configurePorts_worldKept _)
  · exact (h.opFrame hi).toWorldKept

theorem exec_worldKept {i : Instr} {s t : State} (h : exec i s = .next t) : WorldKept s t := by
  by_cases hi : i = .quiesce
  · subst hi
    have hq := quiesceSequence_worldKept s
    rcases execQuiesce_ends h with rfl | rfl
    · exact hq.trans (respond_worldKept _ .ok none)
    · exact hq.trans (worldKept_of_eq rfl rfl rfl)
  · cases exec_ends hi h with
    | refused reason => exact respond_worldKept s (.refused reason) none
    | completed result hd => exact hd.worldKept.trans (respond_worldKept _ .ok result)
    | raised kind hf => exact hf.worldKept.trans (raise_worldKept kind _)

/-- Settles O21: every instruction keeps the world, and equal memories read alike. -/
theorem memoryAndParametersNeverWritten : Obligations.MemoryAndParametersNeverWritten := by
  intro i s t h
  have hw := exec_worldKept h
  exact ⟨fun _ => by rw [hw.cart], fun _ => by rw [hw.answers], hw.failing, hw.config, hw.commands, hw.txn, hw.trace⟩

/-! ### A locked layout and the header (10_state.md R14, R22) -/

theorem raise_status (k : FatalKind) (s : State) : (raise k s).session.status = .closed := by
  obtain ⟨_, hsession, _⟩ := raise_frame k s
  rw [hsession]

theorem quiesce_closes {s t : State} (h : execQuiesce s = .next t) : t.session.status = .closed := by
  rcases execQuiesce_ends h with rfl | rfl <;> rfl

/-- Settles O16: a fatal error and `QUIESCE` close the session, `SESSION_OPEN` is refused on an open one, and the work
of the other instructions keeps a locked layout. -/
theorem lockedLayoutAndHeaderStayWhileOpen : Obligations.LockedLayoutAndHeaderStayWhileOpen := by
  intro i s t hopen hlocked h ht
  by_cases hq : i = .quiesce
  · subst hq
    exact absurd (ht.symm.trans (quiesce_closes h)) (by decide)
  · cases exec_ends hq h with
    | refused reason => exact ⟨rfl, hlocked, rfl⟩
    | raised kind hf => exact absurd (ht.symm.trans (raise_status kind _)) (by decide)
    | completed result hd =>
      by_cases ho : i = .sessionOpen
      · subst ho
        exact absurd hopen hd.sessionOpen.1
      · exact (hd.opFrame ho).locked hlocked

/-! ### The port configuration (10_state.md R30, R32, R34, R35) -/

theorem WorkDone.dataLatchKept {i : Instr} {s u : State} (h : WorkDone s i u) : DataLatchKept s u := by
  by_cases hi : i = .sessionOpen
  · subst hi
    obtain ⟨_, v, hv, rfl⟩ := h.sessionOpen
    have hk := configurePorts_dataLatchKept (s.setLastError 0x00)
    rw [hv, final_done] at hk
    rw [DataLatchKept, openSession_ports, powerUp_eq]
    exact hk
  · exact (h.opFrame hi).dataLatch

theorem WorkStopped.dataLatchKept {i : Instr} {s u : State} (h : WorkStopped s i u) : DataLatchKept s u := by
  by_cases hi : i = .sessionOpen
  · subst hi
    cases h
    exact configurePorts_dataLatchKept (s.setLastError 0x00)
  · exact (h.opFrame hi).dataLatch

theorem exec_dataLatchKept {i : Instr} {s t : State} (h : exec i s = .next t) : DataLatchKept s t := by
  by_cases hi : i = .quiesce
  · subst hi
    rcases execQuiesce_ends h with rfl | rfl <;> exact quiesceSequence_dataLatchKept s
  · cases exec_ends hi h with
    | refused reason => rfl
    | completed result hd => exact hd.dataLatchKept
    | raised kind hf => exact hf.dataLatchKept.trans (raise_dataLatchKept kind _)

theorem raise_response (k : FatalKind) (s : State) :
    (raise k s).host.response = some { status := .fatal k, result := none } := by
  obtain ⟨_, _, _, hhost, _⟩ := raise_frame k s
  rw [hhost]

/-- Settles O18: apart from session creation and teardown, directions, interrupt enables and pull-ups are part of what
the work of every instruction keeps; no transaction of any drives the `DATA` latch. -/
theorem portConfigurationMovesOnlyWithSessions : Obligations.PortConfigurationMovesOnlyWithSessions := by
  intro i s t h
  refine ⟨exec_dataLatchKept h, fun hmoved => ?_⟩
  by_cases ho : i = .sessionOpen
  · exact .inl ho
  by_cases hq : i = .quiesce
  · exact .inr (.inl hq)
  cases exec_opFrame ho hq h with
  | refused reason => rcases hmoved with hd | hi | hp <;> contradiction
  | completed result hf =>
    rcases hmoved with hd | hi | hp
    · exact absurd hf.dirs hd
    · exact absurd hf.intens hi
    · exact absurd hf.pull hp
  | raised kind hf => exact .inr (.inr ⟨kind, raise_response kind _⟩)

/-! ### `currentOffset` and the accumulators (10_state.md R15, R16, R17) -/

theorem raise_counters (k : FatalKind) (s : State) : (raise k s).session.counters = s.session.counters := by
  obtain ⟨_, hsession, _⟩ := raise_frame k s
  rw [hsession]
  rfl

theorem quiesce_counters {s t : State} (h : execQuiesce s = .next t) : t.session.counters = s.session.counters := by
  obtain ⟨_, hsession, _⟩ := quiesceSequence_frame s
  have hq : (quiesceSequence s).1.session.counters = s.session.counters := by
    rw [hsession]
    rfl
  rcases execQuiesce_ends h with rfl | rfl <;> exact hq

/-- An instruction keeps the registers it is no writer of. -/
theorem exec_counters {i : Instr} {s t : State} (h : exec i s = .next t) :
    (writesOffset i = true ∨ t.session.currentOffset = s.session.currentOffset) ∧
    (writesSums i = true ∨ t.session.sums = s.session.sums) := by
  by_cases ho : i = .sessionOpen
  · subst ho
    exact ⟨.inl rfl, .inl rfl⟩
  by_cases hq : i = .quiesce
  · subst hq
    have hk := quiesce_counters h
    exact ⟨.inr (congrArg Prod.fst hk), .inr (congrArg Prod.snd hk)⟩
  cases exec_opFrame ho hq h with
  | refused reason => exact ⟨.inr rfl, .inr rfl⟩
  | completed result hf => exact ⟨hf.currentOffset, hf.sums⟩
  | @raised u kind hf =>
    have hk := raise_counters kind u
    exact ⟨hf.currentOffset.imp id (congrArg Prod.fst hk).trans, hf.sums.imp id (congrArg Prod.snd hk).trans⟩

/-- Settles O19: a register that changed has its writer. -/
theorem offsetAndAccumulatorsHaveTheirWriters : Obligations.OffsetAndAccumulatorsHaveTheirWriters := by
  intro i s t h
  obtain ⟨ho, hs⟩ := exec_counters h
  refine ⟨fun hne => writesOffset_cases (ho.resolve_right hne), fun hne => writesSums_cases (hs.resolve_right ?_)⟩
  intro hk
  rcases hne with hr | hp
  · exact hr (congrArg Prod.fst hk)
  · exact hp (congrArg Prod.snd hk)

/-! ### `lastError` (10_state.md R20) -/

theorem raise_lastError (k : FatalKind) (s : State) : (raise k s).session.lastError = k.code := by
  obtain ⟨_, hsession, _⟩ := raise_frame k s
  rw [hsession]

theorem configurePorts_lastError (s : State) : (configurePorts s).final.session.lastError = s.session.lastError :=
  configurePorts_final (R := fun s t => t.session.lastError = s.session.lastError) (fun h k => k.trans h)
    (fun p d s => by rw [(portDir_once p d s).session]) (fun m s => by rw [(portPull_once m s).session]) s

/-- A completed `SESSION_OPEN` has cleared `lastError`; no other work writes it. -/
theorem WorkDone.lastError {i : Instr} {s u : State} (h : WorkDone s i u) :
    i = .sessionOpen ∧ u.session.lastError = 0x00 ∨ u.session.lastError = s.session.lastError := by
  by_cases hi : i = .sessionOpen
  · subst hi
    obtain ⟨_, v, hv, rfl⟩ := h.sessionOpen
    have he := configurePorts_lastError (s.setLastError 0x00)
    rw [hv, final_done] at he
    refine .inl ⟨rfl, ?_⟩
    rw [openSession_session, powerUp_eq]
    exact he
  · exact .inr (h.opFrame hi).lastError

theorem quiesceSequence_lastError (s : State) :
    (quiesceSequence s).1.session.lastError = s.session.lastError := by
  obtain ⟨_, hsession, _⟩ := quiesceSequence_frame s
  rw [hsession]

/-- `QUIESCE` keeps `lastError` unless a transaction of it failed. -/
theorem quiesce_lastError {s t : State} (h : execQuiesce s = .next t) :
    t.session.lastError = s.session.lastError ∨
    t.host.response = some { status := .fatal .portTransactionFailure, result := none } ∧
      t.session.lastError = FatalKind.portTransactionFailure.code := by
  rcases execQuiesce_ends h with rfl | rfl
  · exact .inl (quiesceSequence_lastError s)
  · exact .inr ⟨rfl, rfl⟩

/-- Settles O20: only `raise`, a failed `QUIESCE` and `SESSION_OPEN` write `lastError`. -/
theorem lastErrorKeptUntilFatalErrorOrSessionOpen : Obligations.LastErrorKeptUntilFatalErrorOrSessionOpen := by
  intro i s t h hne
  by_cases hq : i = .quiesce
  · subst hq
    exact .inr ⟨.portTransactionFailure, (quiesce_lastError h).resolve_left hne⟩
  · cases exec_ends hq h with
    | refused reason => exact absurd rfl hne
    | completed result hd => exact .inl (hd.lastError.resolve_right hne)
    | raised kind hf => exact .inr ⟨kind, raise_response kind _, raise_lastError kind _⟩

end Sys2Proof.Machine
end

section
/-! The family `10_state.md`, session creation: the state `SESSION_OPEN` leads to (70_reset_and_hazards.md R262,
R263). -/

namespace Sys2Proof.Machine

/-- The machine after the five transactions of session creation, all done (70_reset_and_hazards.md R262). -/
def configured (s : State) : State :=
  { s with
    ports :=
      { aHi := { s.ports.aHi with dir := allBits .output }
        aLo := { s.ports.aLo with dir := allBits .output }
        bank := { s.ports.bank with dir := allBits .output }
        data := { s.ports.data with dir := allBits .input }
        pull := s.config.dataPullupOpen }
    env :=
      { s.env with
        txn := s.env.txn + 5
        trace :=
          [ .pullups s.config.dataPullupOpen true,
            .direction .data .input s.config.dirEncoding.inputMask true,
            .direction .bank .output s.config.dirEncoding.outputMask true,
            .direction .aLo .output s.config.dirEncoding.outputMask true,
            .direction .aHi .output s.config.dirEncoding.outputMask true ] ++ s.env.trace } }

theorem portDir_done {p : PortId} {d : Direction} {s t : State} {u : Unit} (h : portDir p d s = .done u t) :
    t = (s.setPort p fun q => { q with dir := allBits d }).record
      (.direction p d (directionMask s.config.dirEncoding d) true) := by
  cases hn : nowFails s with
  | true => rw [portDir_fails p d hn] at h; cases h
  | false => rw [portDir_sound p d hn] at h; cases h; rfl

theorem portPull_done {m : Byte} {s t : State} {u : Unit} (h : portPull m s = .done u t) :
    t = State.record { s with ports := { s.ports with pull := m } } (.pullups m true) := by
  cases hn : nowFails s with
  | true => rw [portPull_fails m hn] at h; cases h
  | false => rw [portPull_sound m hn] at h; cases h; rfl

theorem configurePorts_done {s v : State} {u : Unit} (h : configurePorts s = .done u v) : v = configured s := by
  obtain ⟨_, _, h1, h⟩ := bind_eq_done h
  obtain ⟨_, _, h2, h⟩ := bind_eq_done h
  obtain ⟨_, _, h3, h⟩ := bind_eq_done h
  obtain ⟨_, _, h4, h⟩ := bind_eq_done h
  rw [portPull_done h, portDir_done h4, portDir_done h3, portDir_done h2, portDir_done h1]
  simp [configured, State.setPort, State.record, directionMask]

theorem portDir_of_soundFor {s : State} {n : Nat} (p : PortId) (d : Direction) (h : s.soundFor (n + 1)) :
    ∃ t, portDir p d s = .done () t ∧ t.soundFor n := by
  have hs := portDir_sound p d (nowFails_of_soundFor h)
  have ho := portDir_once p d s
  rw [hs, final_done] at ho
  exact ⟨_, hs, soundFor_step h ho.failing ho.txn⟩

theorem configurePorts_sound {s : State} (h : s.soundFor 5) : configurePorts s = .done () (configured s) := by
  obtain ⟨v, hv⟩ : ∃ v, configurePorts s = .done () v := by
    obtain ⟨t, ht, h⟩ := portDir_of_soundFor .aHi .output h
    obtain ⟨u, hu, h⟩ := portDir_of_soundFor .aLo .output h
    obtain ⟨v, hv, h⟩ := portDir_of_soundFor .bank .output h
    obtain ⟨w, hw, h⟩ := portDir_of_soundFor .data .input h
    simp only [configurePorts, ht, hu, hv, hw, txn_bind_done, portPull_sound _ (nowFails_of_soundFor h)]
    exact ⟨_, rfl⟩
  rw [hv, configurePorts_done hv]

/-- Settles O24: the five transactions are done, then the lines are raised and the registers made cold. -/
theorem sessionOpenStartsAColdSession : Obligations.SessionOpenStartsAColdSession := by
  intro s hclosed hsound
  have hports : configurePorts (s.setLastError 0x00) = .done () (configured (s.setLastError 0x00)) :=
    configurePorts_sound hsound
  have hne : ¬s.session.status = .opened := by simp [hclosed]
  simp only [exec, execSessionOpen, if_neg hne, hports, orRaise_done, powerUp_eq, List.reverse_append,
    List.append_assoc]
  rfl

end Sys2Proof.Machine
end

section
/-! The family `10_state.md`, the invariant between commands: what each way a command ends does to `SessionInv`. -/

namespace Sys2Proof.Machine

/-! ### The parts of the invariant that the work of an instruction may move -/

/-- What the invariant says of the layout and the header (43_header_parser.md R149, R150, 70_reset_and_hazards.md
R273). -/
structure HeaderInv (r : Session) : Prop where
  lockedLayout : r.layoutLocked = r.layout.isSome
  lockedHeader : r.layoutLocked = r.header.isSome
  headerValid : ∀ h, r.header = some h → h.checksum ^^^ h.inverseChecksum = 0xFFFF
  headerLow : ∀ h, r.header = some h → r.layout = some .lowROM → h.layoutIndicator = 0

/-- What the invariant says of the caches and the bus registers (10_state.md R12, R24, 41_address_bus.md R116). -/
structure BusInv (s : State) : Prop extends Coherent s where
  splitUpper : ∀ v, s.session.cachedUpperByte = some v →
    ∃ l, s.session.layout = some l ∧ v = upperByte l s.session.address
  splitLower : ∀ v, s.session.cachedLowerByte = some v → v = lowerByte s.session.address
  bankRegister : ∀ v, s.session.cachedBank = some v → s.session.bank = v

/-- What the invariant says of the lines of an open session (40_control_lines.md R103). -/
def LinesInv (s : State) : Prop :=
  s.phase = .readIdle ∧ s.session.ctrl = some (lineLevels s.config.cwReadIdle) ∨
  s.phase = .raw ∧ s.session.ctrl.isSome

theorem SessionInv.headerInv {s : State} (h : SessionInv s) : HeaderInv s.session :=
  ⟨h.lockedLayout, h.lockedHeader, h.headerValid, h.headerLow⟩

theorem SessionInv.busInv {s : State} (h : SessionInv s) : BusInv s :=
  ⟨⟨h.coherentUpper, h.coherentLower, h.coherentBank⟩, h.splitUpper, h.splitLower, h.bankRegister⟩

theorem HeaderInv.congr {r r' : Session} (h : HeaderInv r) (hl : r'.layout = r.layout)
    (hlk : r'.layoutLocked = r.layoutLocked) (hh : r'.header = r.header) : HeaderInv r' where
  lockedLayout := by rw [hlk, hl]; exact h.lockedLayout
  lockedHeader := by rw [hlk, hh]; exact h.lockedHeader
  headerValid := by rw [hh]; exact h.headerValid
  headerLow := by rw [hh, hl]; exact h.headerLow

theorem BusInv.congr {s t : State} (h : BusInv s) (hp : t.ports = s.ports)
    (hu : t.session.cachedUpperByte = s.session.cachedUpperByte)
    (hlo : t.session.cachedLowerByte = s.session.cachedLowerByte)
    (hb : t.session.cachedBank = s.session.cachedBank) (ha : t.session.address = s.session.address)
    (hbank : t.session.bank = s.session.bank) (hl : t.session.layout = s.session.layout) : BusInv t where
  upper := by rw [hu, hp]; exact h.upper
  lower := by rw [hlo, hp]; exact h.lower
  bank := by rw [hb, hp]; exact h.bank
  splitUpper := by rw [hu, hl, ha]; exact h.splitUpper
  splitLower := by rw [hlo, ha]; exact h.splitLower
  bankRegister := by rw [hb, hbank]; exact h.bankRegister

theorem BusFrame.headerInv {s t : State} (hf : BusFrame s t) (h : HeaderInv s.session) : HeaderInv t.session :=
  h.congr hf.layout hf.layoutLocked hf.header

theorem BusFrame.linesInv {s t : State} (hf : BusFrame s t) (h : LinesInv s) : LinesInv t := by
  rw [LinesInv, hf.phase, hf.ctrl, hf.config]
  exact h

theorem BusAt.busInv {l : Layout} {s : State} (h : BusAt l s) (hl : s.session.layout = some l) : BusInv s :=
  ⟨h.toCoherent, fun v hv => ⟨l, hl, h.splitUpper v hv⟩, h.splitLower, h.bankRegister⟩

theorem BusInv.busAt {l : Layout} {s : State} (h : BusInv s) (hl : s.session.layout = some l) : BusAt l s := by
  refine ⟨h.toCoherent, fun v hv => ?_, h.splitLower, h.bankRegister⟩
  obtain ⟨l', hl', hv'⟩ := h.splitUpper v hv
  cases hl.symm.trans hl'
  exact hv'

/-- An accepted header locks the layout it was read in (43_header_parser.md R150, R151). -/
theorem lockHeader_headerInv {s : State} {h : HeaderInfo} {l : Layout} (hl : s.session.layout = some l)
    (hv : checksumPairValid h.checksum h.inverseChecksum = true) (hlow : l = .lowROM → h.layoutIndicator = 0) :
    HeaderInv (s.lockHeader h).session where
  lockedLayout := by simp [hl]
  lockedHeader := rfl
  headerValid := by
    rintro _ ⟨⟩
    simpa [checksumPairValid] using hv
  headerLow := by
    rintro _ ⟨⟩ hk
    exact hlow (Option.some.inj (hl.symm.trans hk))

/-! ### The invariant after each end of a command -/

/-- The invariant does not speak of the host. -/
theorem SessionInv.withHost {s : State} (h : SessionInv s) (host : HostSide) : SessionInv { s with host := host } :=
  ⟨h.closedIdle, h.lockedLayout, h.lockedHeader, h.headerValid, h.headerLow, h.coherentUpper, h.coherentLower,
    h.coherentBank, h.splitUpper, h.splitLower, h.bankRegister, h.openPorts, h.openLines, h.errorCode, h.cartCanonical,
    h.answersCanonical⟩

/-- Work that keeps an open session keeps the invariant with the parts it may move. -/
theorem sessionInv_of_opFrame {i : Instr} {s u : State} (hs : SessionInv s) (ho : s.isOpen) (hf : OpFrame i s u)
    (hh : HeaderInv u.session) (hb : BusInv u) (hl : LinesInv u) : SessionInv u where
  closedIdle hc := absurd ((hf.status.trans ho).symm.trans hc) (by decide)
  lockedLayout := hh.lockedLayout
  lockedHeader := hh.lockedHeader
  headerValid := hh.headerValid
  headerLow := hh.headerLow
  coherentUpper := hb.upper
  coherentLower := hb.lower
  coherentBank := hb.bank
  splitUpper := hb.splitUpper
  splitLower := hb.splitLower
  bankRegister := hb.bankRegister
  openPorts _ := by
    have hd := hf.dirs
    simp only [Prod.mk.injEq] at hd
    obtain ⟨haHi, haLo, hbank, hdata⟩ := hd
    rw [haHi, haLo, hbank, hdata, hf.pull, hf.config]
    exact hs.openPorts ho
  openLines _ := hl
  errorCode := by rw [hf.lastError]; exact hs.errorCode
  cartCanonical := by rw [hf.cart]; exact hs.cartCanonical
  answersCanonical := by rw [hf.answers]; exact hs.answersCanonical

/-- A quiesced machine meets the invariant, whatever its ports hold. -/
theorem sessionInv_of_quiesced {s t : State} (hs : SessionInv s) (hw : WorldKept s t) (hq : Quiesced t)
    (he : t.session.lastError.toNat ≤ 4) : SessionInv t where
  closedIdle _ :=
    ⟨hq.address, hq.bank, hq.cachedUpperByte, hq.cachedLowerByte, hq.cachedBank, hq.layout, hq.phase⟩
  lockedLayout := by rw [hq.layoutLocked, hq.layout]; rfl
  lockedHeader := by rw [hq.layoutLocked, hq.header]; rfl
  headerValid := by simp [hq.header]
  headerLow := by simp [hq.header]
  coherentUpper := by simp [hq.cachedUpperByte]
  coherentLower := by simp [hq.cachedLowerByte]
  coherentBank := by simp [hq.cachedBank]
  splitUpper := by simp [hq.cachedUpperByte]
  splitLower := by simp [hq.cachedLowerByte]
  bankRegister := by simp [hq.cachedBank]
  openPorts ho := absurd (ho.symm.trans hq.status) (by decide)
  openLines ho := absurd (ho.symm.trans hq.status) (by decide)
  errorCode := he
  cartCanonical := by rw [hw.cart]; exact hs.cartCanonical
  answersCanonical := by rw [hw.answers]; exact hs.answersCanonical

theorem fatalCode_le (k : FatalKind) : k.code.toNat ≤ 4 := by
  cases k <;> decide

theorem raise_sessionInv {s u : State} (hs : SessionInv s) (hw : WorldKept s u) (k : FatalKind) :
    SessionInv (raise k u) := by
  have hq : Quiesced (raise k u) :=
    (raise_fatalEnd (s := u) (made := []) rfl rfl rfl rfl rfl rfl rfl).quiesced
  exact sessionInv_of_quiesced hs (hw.trans (raise_worldKept k u)) hq (raise_lastError k u ▸ fatalCode_le k)

theorem quiesceSequence_quiesced (s : State) : Quiesced (quiesceSequence s).1 := by
  obtain ⟨hconfig, hsession, hphase, _⟩ := quiesceSequence_frame s
  exact
    { status := rfl, address := rfl, bank := rfl, cachedUpperByte := rfl, cachedLowerByte := rfl, cachedBank := rfl
      layout := rfl, layoutLocked := rfl, header := rfl, ctrl := by rw [hsession, hconfig]; rfl, phase := hphase }

theorem Quiesced.setLastError {s : State} (h : Quiesced s) (c : Byte) : Quiesced (s.setLastError c) :=
  ⟨h.status, h.address, h.bank, h.cachedUpperByte, h.cachedLowerByte, h.cachedBank, h.layout, h.layoutLocked, h.header,
    h.ctrl, h.phase⟩

theorem execQuiesce_sessionInv {s t : State} (hs : SessionInv s) (h : execQuiesce s = .next t) : SessionInv t := by
  have hq := quiesceSequence_quiesced s
  have hw := quiesceSequence_worldKept s
  rcases execQuiesce_ends h with rfl | rfl
  · refine (sessionInv_of_quiesced hs hw hq ?_).withHost _
    rw [quiesceSequence_lastError]
    exact hs.errorCode
  · exact (sessionInv_of_quiesced hs (hw.trans (setLastError_worldKept _ _)) (hq.setLastError _)
      (fatalCode_le .portTransactionFailure)).withHost _

/-- A cold session meets the invariant (70_reset_and_hazards.md R262, R263). -/
theorem openSession_sessionInv {s : State} (hs : SessionInv s) :
    SessionInv (openSession (powerUp (configured (s.setLastError 0x00)))) := by
  rw [powerUp_eq]
  exact
    { closedIdle := nofun, lockedLayout := rfl, lockedHeader := rfl, headerValid := nofun, headerLow := nofun
      coherentUpper := nofun, coherentLower := nofun, coherentBank := nofun, splitUpper := nofun, splitLower := nofun
      bankRegister := nofun, openPorts := fun _ => ⟨rfl, rfl, rfl, rfl, rfl⟩, openLines := fun _ => .inl ⟨rfl, rfl⟩
      errorCode := Nat.zero_le 4, cartCanonical := hs.cartCanonical, answersCanonical := hs.answersCanonical }

/-! ### The bus after the work of an instruction -/

theorem recoverAddress_busInv {s : State} (h : BusInv s) : BusInv (recoverAddress s) :=
  ⟨⟨nofun, nofun, h.bank⟩, nofun, nofun, h.bankRegister⟩

theorem gotoBankStep_busInv {b : Byte} {s u : State} (h : BusInv s) (hr : gotoBankStep b s = .done () u) :
    BusInv u := by
  have hsession := (gotoBankStep_done hr).1
  refine ⟨gotoBankStep_coherent hr h.toCoherent, ?_, ?_, ?_⟩ <;> rw [hsession]
  · exact h.splitUpper
  · exact h.splitLower
  · rintro _ ⟨⟩; rfl

theorem portRead_busInv {v : Byte} {s u : State} (h : BusInv s) (hr : portRead s = .done v u) : BusInv u := by
  have hsession := (portRead_once s).session
  have hports := portRead_ports s
  rw [hr, final_done] at hsession hports
  exact h.congr hports (by rw [hsession]) (by rw [hsession]) (by rw [hsession]) (by rw [hsession]) (by rw [hsession])
    (by rw [hsession])

/-- A block read with the layout set leaves the bus at that layout (43_header_parser.md R146, R149). -/
theorem readBlock_done {l : Layout} {s u : State} {raw : List Byte} (hc : Coherent s)
    (h : readBlock l (s.setLayout l) = .done raw u) :
    BusFrame (s.setLayout l) u ∧ BusAt l u ∧ u.session.layout = some l := by
  have hf : BusFrame (s.setLayout l) u := by
    have hf := readAscending_frame l headerLength (headerBase l) (s.setLayout l)
    rwa [← readBlock, h, final_done] at hf
  exact ⟨hf, readAscending_busAt h ⟨hc.upper, hc.lower, hc.bank⟩ (by decide), hf.layout⟩

theorem runPasses_busInv {l : Layout} {ps : List (Nat × Nat)} {bs : List Byte} {s u : State} (h : BusInv s)
    (hl : s.session.layout = some l) (hr : runPasses l ps s.clearSums = .done bs u) :
    BusFrame s u ∧ BusInv u := by
  have hf := (clearSums_sumsOnly s).frame.trans (runPasses_frame l ps s.clearSums)
  rw [hr, final_done] at hf
  exact ⟨hf, (runPasses_busAt hr ((clearSums_sumsOnly s).busAt (h.busAt hl))).busInv (hf.layout.trans hl)⟩

/-- The dump's own line change is outside `BusFrame`: the frame is from the lines on. -/
theorem sramLoop_busInv {l : Layout} {a0 n sb sa : Nat} {w : Byte} {bs : List Byte} {s u : State} (h : BusInv s)
    (hl : s.session.layout = some l)
    (hr : sramLoop l a0 n sb sa (lines .sramEnabled w s.clearSums) = .done bs u) :
    BusFrame (lines .sramEnabled w s.clearSums) u ∧ BusInv u := by
  have hf := sramLoop_frame l a0 n sb sa (lines .sramEnabled w s.clearSums)
  rw [hr, final_done] at hf
  obtain ⟨⟨hu, hlo, hb⟩, hsu, hsl, hbr⟩ := (clearSums_sumsOnly s).busAt (h.busAt hl)
  exact ⟨hf, (sramLoop_busAt hr ⟨⟨hu, hlo, hb⟩, hsu, hsl, hbr⟩).busInv (hf.layout.trans hl)⟩

/-! ### Every step keeps the invariant -/

theorem WorkDone.sessionInv {i : Instr} {s u : State} (hs : SessionInv s) (h : WorkDone s i u) : SessionInv u := by
  by_cases hi : i = .sessionOpen
  · subst hi
    obtain ⟨_, v, hv, rfl⟩ := h.sessionOpen
    rw [configurePorts_done hv]
    exact openSession_sessionInv hs
  have hf := h.opFrame hi
  have hmoved (ho : s.isOpen) (hbf : BusFrame s u) (hb : BusInv u) : SessionInv u :=
    sessionInv_of_opFrame hs ho hf (hbf.headerInv hs.headerInv) hb (hbf.linesInv (hs.openLines ho))
  have hbus := hs.busInv
  cases h with
  | computed => exact hs
  | opened => exact absurd rfl hi
  | applied w ho =>
    exact sessionInv_of_opFrame hs ho hf (hs.headerInv.congr rfl rfl rfl)
      (hbus.congr rfl rfl rfl rfl rfl rfl rfl) (.inr ⟨rfl, rfl⟩)
  | recovered a ho =>
    exact sessionInv_of_opFrame hs ho hf (hs.headerInv.congr rfl rfl rfl) (recoverAddress_busInv hbus)
      (hs.openLines ho)
  | @addressed a l _ ho hl hr =>
    have hbf := gotoAddressStep_frame l (a.setWidth 16) s
    rw [hr, final_done] at hbf
    exact hmoved ho hbf
      ((gotoAddressStep_busAt hr hbus.toCoherent hbus.bankRegister).busInv (hbf.layout.trans hl))
  | @banked b _ ho hr =>
    have hbf := gotoBankStep_frame b s
    rw [hr, final_done] at hbf
    exact hmoved ho hbf (gotoBankStep_busInv hbus hr)
  | read ho hr =>
    have hbf := portRead_frame s
    rw [hr, final_done] at hbf
    exact hmoved ho hbf (portRead_busInv hbus hr)
  | @positioned o l _ ho hl hr =>
    have hbf := gotoOffsetStep_frame l o.toNat s
    rw [hr, final_done] at hbf
    exact hmoved ho hbf ((gotoOffsetStep_busAt hr hbus.toCoherent).busInv (hbf.layout.trans hl))
  | parsedLow ho _ hr hn hv =>
    obtain ⟨hbf, hat, hl⟩ := readBlock_done hbus.toCoherent hr
    have hbu := hat.busInv hl
    exact sessionInv_of_opFrame hs ho hf (lockHeader_headerInv hl hv fun _ => hn)
      (hbu.congr rfl rfl rfl rfl rfl rfl rfl) (hbf.linesInv (hs.openLines ho))
  | parsedHigh ho _ hr hr' hv =>
    obtain ⟨hbf, hat, _⟩ := readBlock_done hbus.toCoherent hr
    obtain ⟨hbf', hat', hl⟩ := readBlock_done hat.toCoherent hr'
    have hbu := hat'.busInv hl
    exact sessionInv_of_opFrame hs ho hf (lockHeader_headerInv hl hv nofun)
      (hbu.congr rfl rfl rfl rfl rfl rfl rfl)
      (hbf'.linesInv (hbf.linesInv (hs.openLines ho)))
  | romDumped ho hl hr =>
    obtain ⟨hbf, hbu⟩ := runPasses_busInv hbus hl hr
    exact sessionInv_of_opFrame hs ho hf (hbf.headerInv hs.headerInv)
      (hbu.congr rfl rfl rfl rfl rfl rfl rfl) (hbf.linesInv (hs.openLines ho))
  | sramDumped ho hl hr =>
    obtain ⟨hbf, hbu⟩ := sramLoop_busInv hbus hl hr
    exact sessionInv_of_opFrame hs ho hf ((hbf.headerInv (hs.headerInv.congr rfl rfl rfl)).congr rfl rfl rfl)
      (hbu.congr rfl rfl rfl rfl rfl rfl rfl) (.inl ⟨rfl, rfl⟩)

theorem exec_sessionInv {i : Instr} {s t : State} (hs : SessionInv s) (h : exec i s = .next t) : SessionInv t := by
  by_cases hq : i = .quiesce
  · subst hq
    exact execQuiesce_sessionInv hs h
  · cases exec_ends hq h with
    | refused reason => exact hs.withHost _
    | completed result hd => exact (hd.sessionInv hs).withHost _
    | raised kind hf => exact raise_sessionInv hs hf.worldKept kind

/-- What a step can do: nothing, refuse a word that is no command, or run an instruction; the host's list apart, from
the state as it is (00_scope.md R4, 30_encoding.md R73). -/
theorem step_cases {s t : State} (h : step s = .next t) :
    t = s ∨ ∃ host : HostSide, (∃ reason, t = refuse reason { s with host := host }) ∨
      ∃ i, exec i { s with host := host } = .next t := by
  cases hc : s.host.commands with
  | nil =>
    simp only [step, nextCommand, hc] at h
    cases h
    exact .inl rfl
  | cons w ws =>
    simp only [step, nextCommand_of_commands_cons hc] at h
    refine .inr ⟨{ s.host with commands := ws }, ?_⟩
    cases hd : decode w with
    | ok i => rw [hd] at h; exact .inr ⟨i, h⟩
    | error e => rw [hd] at h; cases h; cases e; exact .inl ⟨_, rfl⟩

/-- Settles O10: every end of a command keeps the invariant, and the host's list is no part of it. -/
theorem stepKeepsSessionInv : Obligations.StepKeepsSessionInv := by
  intro s t hs h
  rcases step_cases h with rfl | ⟨host, ⟨reason, rfl⟩ | ⟨i, hi⟩⟩
  · exact hs
  · exact hs.withHost _
  · exact exec_sessionInv (hs.withHost host) hi

end Sys2Proof.Machine
end

section
/-! The family `10_state.md`, a cartridge that answers differently the second time (R33): at which transactions the
bytes of a header block are read (43_header_parser.md R154), and which header is accepted (R149, R151). -/

namespace Sys2Proof.Machine

/-! ### How many port writes a positioning makes (10_state.md R24, 41_address_bus.md R115) -/

/-- The port writes a debounced write of `v` makes where the cache is `c`. -/
def missCount (c : Option Byte) (v : Byte) : Nat :=
  if c = some v then 0 else 1

/-- The port writes `GOTO_OFFSET` makes. -/
def positionWrites (l : Layout) (o : Nat) (r : Session) : Nat :=
  missCount r.cachedBank (mapBankAddress l o).1 +
    (missCount r.cachedUpperByte (upperByte l (mapBankAddress l o).2) +
      missCount r.cachedLowerByte (lowerByte (mapBankAddress l o).2))

theorem debouncedWrite_txn {p : PortId} {c : Option Byte} {v : Byte} {s t : State} {u : Unit}
    (h : debouncedWrite p c v s = .done u t) : t.env.txn = s.env.txn + missCount c v := by
  rcases (debouncedWrite_done h).2 with ⟨hc, rfl⟩ | ⟨hc, rfl⟩
  · simp [missCount, hc]
  · simp [missCount, hc]

theorem gotoBankStep_txn {b : Byte} {s t : State} {u : Unit} (h : gotoBankStep b s = .done u t) :
    t.env.txn = s.env.txn + missCount s.session.cachedBank b := by
  obtain ⟨_, w, hw, ht⟩ := bind_eq_done h
  cases ht
  rw [setBank_env, debouncedWrite_txn hw]

theorem gotoAddressStep_txn {l : Layout} {a : Address} {s t : State} {u : Unit}
    (h : gotoAddressStep l a s = .done u t) :
    t.env.txn = s.env.txn +
      (missCount s.session.cachedUpperByte (upperByte l a) + missCount s.session.cachedLowerByte (lowerByte a)) := by
  obtain ⟨_, w, hw, ht⟩ := bind_eq_done h
  obtain ⟨_, x, hx, hy⟩ := bind_eq_done ht
  cases hy
  have hlower := debouncedWrite_txn hx
  rw [setCachedUpper_session, setCachedUpper_env, (debouncedWrite_done hw).1, debouncedWrite_txn hw] at hlower
  rw [setAddress_env, hlower, Nat.add_assoc]

theorem gotoOffsetStep_txn {l : Layout} {o : Nat} {s t : State} {u : Unit} (h : gotoOffsetStep l o s = .done u t) :
    t.env.txn = s.env.txn + positionWrites l o s.session := by
  obtain ⟨_, w, hw, ht⟩ := bind_eq_done h
  obtain ⟨_, x, hx, hy⟩ := bind_eq_done ht
  cases hy
  rw [setOffset_env, gotoAddressStep_txn hx, gotoBankStep_txn hw, (gotoBankStep_done hw).1, Nat.add_assoc]
  rfl

/-- A positioned read is the transaction after its writes, and returns what is scheduled for that transaction
(10_state.md R33). -/
theorem readAtOffset_answer {l : Layout} {o : Nat} {s t : State} {v : Byte} (h : readAtOffset l o s = .done v t) :
    t.env.txn = s.env.txn + positionWrites l o s.session + 1 ∧
    ∀ b, Memory.readByte s.env.answers (s.env.txn + positionWrites l o s.session) = some b → v = b := by
  obtain ⟨_, w, hw, hr⟩ := bind_eq_done h
  have hf := gotoOffsetStep_frame l o s
  rw [hw, final_done] at hf
  have hn := gotoOffsetStep_txn hw
  cases hfail : nowFails w with
  | true => rw [portRead_fails hfail] at hr; cases hr
  | false =>
    rw [portRead_sound hfail] at hr
    cases hr
    refine ⟨by rw [record_env, hn], fun b hb => dataByte_of_answer ?_⟩
    rw [hf.answers, hn]
    exact hb

/-! ### Bytes of one row: only `A_LO` is written between them -/

/-- The port values an offset shares with its neighbours: `BANK` and `A_HI`. -/
def busRow (l : Layout) (o : Nat) : Byte × Byte :=
  ((mapBankAddress l o).1, upperByte l (mapBankAddress l o).2)

/-- The caches stand at an offset. -/
structure CachesAt (l : Layout) (o : Nat) (r : Session) : Prop where
  bank : r.cachedBank = some (busRow l o).1
  upper : r.cachedUpperByte = some (busRow l o).2
  lower : r.cachedLowerByte = some (lowerByte (mapBankAddress l o).2)

theorem readAtOffset_cachesAt {l : Layout} {o : Nat} {s t : State} {v : Byte} (h : readAtOffset l o s = .done v t) :
    CachesAt l o t.session := by
  rw [(readAtOffset_done h).1]
  exact ⟨rfl, rfl, rfl⟩

theorem lowerByte_offset_succ_ne (l : Layout) (o : Nat) :
    lowerByte (mapBankAddress l o).2 ≠ lowerByte (mapBankAddress l (o + 1)).2 := by
  intro h
  have hn := congrArg BitVec.toNat h
  simp only [lowerByte_toNat, mapBankAddress, resolveNat, BitVec.toNat_ofNat] at hn
  cases l <;> simp only [pageSize] at hn <;> omega

/-- One write brings the bus to the next offset of a row. -/
theorem positionWrites_succ {l : Layout} {o : Nat} {r : Session} (h : CachesAt l o r)
    (hrow : busRow l (o + 1) = busRow l o) : positionWrites l (o + 1) r = 1 := by
  have hb : (mapBankAddress l (o + 1)).1 = (busRow l o).1 := (Prod.ext_iff.mp hrow).1
  have hu : upperByte l (mapBankAddress l (o + 1)).2 = (busRow l o).2 := (Prod.ext_iff.mp hrow).2
  simp [positionWrites, missCount, hb, hu, h.bank, h.upper, h.lower, lowerByte_offset_succ_ne l o]

theorem readAscending_cachesAt {l : Layout} {count offset : Nat} {s t : State} {bs : List Byte}
    (h : readAscending l (count + 1) offset s = .done bs t) : CachesAt l (offset + count) t.session := by
  induction count generalizing offset s bs with
  | zero =>
    obtain ⟨v, w, hw, ht⟩ := bind_eq_done h
    cases ht
    exact readAtOffset_cachesAt hw
  | succ n ih =>
    obtain ⟨v, w, hw, ht⟩ := bind_eq_done h
    obtain ⟨vs, x, hx, hy⟩ := bind_eq_done ht
    cases hy
    simpa only [Nat.add_assoc, Nat.add_comm 1] using ih hx

/-- The bytes of one row are read at every other transaction, the first after its own writes, and are what is scheduled
there (43_header_parser.md R154). -/
theorem readAscending_answers {l : Layout} {count offset : Nat} {s t : State} {bs bytes : List Byte}
    (h : readAscending l count offset s = .done bs t) (hlen : bytes.length = count)
    (hrow : ∀ k < count, busRow l (offset + k) = busRow l offset)
    (hans : ∀ k < count,
      Memory.readByte s.env.answers (s.env.txn + positionWrites l offset s.session + 2 * k) = bytes[k]?) :
    bs = bytes ∧ (0 < count → t.env.txn + 1 = s.env.txn + positionWrites l offset s.session + 2 * count) := by
  induction count generalizing offset s bs bytes with
  | zero =>
    cases h
    exact ⟨(List.length_eq_zero_iff.mp hlen).symm, nofun⟩
  | succ n ih =>
    obtain ⟨b, bytes, rfl⟩ := List.exists_cons_of_length_eq_add_one hlen
    obtain ⟨v, w, hw, ht⟩ := bind_eq_done h
    obtain ⟨vs, x, hx, hy⟩ := bind_eq_done ht
    cases hy
    obtain ⟨htxn, hval⟩ := readAtOffset_answer hw
    have hv : v = b := hval b (hans 0 n.succ_pos)
    have hf := readAtOffset_frame l offset s
    rw [hw, final_done] at hf
    cases n with
    | zero =>
      cases hx
      exact ⟨by rw [hv, List.length_eq_zero_iff.mp (Nat.succ.inj hlen)], fun _ => by omega⟩
    | succ m =>
      have hnext := hrow 1 (by omega)
      have hone := positionWrites_succ (readAtOffset_cachesAt hw) hnext
      obtain ⟨hvs, hxn⟩ := ih hx (Nat.succ.inj hlen)
        (fun k hk => by rw [Nat.add_assoc, Nat.add_comm 1 k, hrow (k + 1) (by omega), hnext])
        (fun k hk => by
          have hk := hans (k + 1) (by omega)
          rw [List.getElem?_cons_succ] at hk
          rw [← hk, hf.answers, hone, htxn]
          congr 1
          omega)
      refine ⟨by rw [hv, hvs], fun _ => ?_⟩
      have := hxn m.succ_pos
      omega

/-- A header block lies in one row (43_header_parser.md R145). -/
theorem busRow_header (l : Layout) : ∀ k < headerLength, busRow l (headerBase l + k) = busRow l (headerBase l) := by
  cases l <;> decide

/-- With no failure ahead, a block is what the environment has scheduled for its reads. -/
theorem readBlock_answers {l : Layout} {s : State} {bytes : List Byte} (hs : s.soundPorts) (hlen : bytes.length = 36)
    (hans : ∀ k < 36, Memory.readByte s.env.answers
      (s.env.txn + positionWrites l (headerBase l) s.session + 2 * k) = bytes[k]?) :
    ∃ t, readBlock l s = .done bytes t ∧ BusFrame s t ∧ CachesAt l (headerBase l + 35) t.session ∧
      t.env.txn + 1 = s.env.txn + positionWrites l (headerBase l) s.session + 72 := by
  obtain ⟨bs, t, ht, _⟩ := readAscending_sound l headerLength (headerBase l) hs
  have hf := readAscending_frame l headerLength (headerBase l) s
  rw [ht, final_done] at hf
  obtain ⟨rfl, hn⟩ := readAscending_answers ht hlen (busRow_header l) hans
  exact ⟨t, ht, hf, readAscending_cachesAt ht, hn (by decide)⟩

/-! ### The fields of a header (43_header_parser.md R148) -/

theorem rawByte_eq {raw : List Byte} {k : Nat} {v : Byte} (h : raw[k]? = some v) : rawByte raw k = v := by
  simp [rawByte, List.getD_eq_getElem?_getD, h]

theorem littleEndian_toNat (raw : List Byte) (k : Nat) :
    (littleEndian raw k).toNat = (raw.getD k 0).toNat + 256 * (raw.getD (k + 1) 0).toNat := by
  have hlow : (rawByte raw k).toNat < 2 ^ 8 := (rawByte raw k).isLt
  rw [littleEndian, BitVec.toNat_append, ← Nat.shiftLeft_add_eq_or_of_lt hlow, Nat.shiftLeft_eq]
  simp only [rawByte]
  omega

theorem layoutNibble_toNat (raw : List Byte) : (layoutNibble raw).toNat = (raw.getD 21 0).toNat % 16 := by
  simp [layoutNibble, rawByte]

/-- A header with the fields of a block is the one the parser extracts. -/
theorem extractHeader_eq {raw : List Byte} {h : HeaderInfo} (hlen : raw.length = 36) (hh : HeaderOf raw h) :
    extractHeader raw = h := by
  have htitle : (Vector.ofFn fun k : Fin 20 => rawByte raw k.val) = h.title := by
    apply Vector.toList_inj.mp
    rw [hh.title]
    apply List.ext_getElem (by simp [hlen])
    intro k hk hk'
    simp [rawByte, List.getD_eq_getElem?_getD, List.getElem?_eq_getElem (show k < raw.length by simp at hk; omega)]
  have hspeed : (rawByte raw 21).extractLsb' 4 4 = h.speed := by
    apply BitVec.eq_of_toNat_eq
    rw [hh.speed, BitVec.extractLsb'_toNat, Nat.shiftRight_eq_div_pow]
    exact Nat.mod_eq_of_lt (by have := (rawByte raw 21).isLt; omega)
  have hword (k : Nat) (v : BitVec 16)
      (hv : v.toNat = (raw.getD k 0).toNat + 256 * (raw.getD (k + 1) 0).toNat) : littleEndian raw k = v :=
    BitVec.eq_of_toNat_eq ((littleEndian_toNat raw k).trans hv.symm)
  have hnibble : layoutNibble raw = h.layoutIndicator :=
    BitVec.eq_of_toNat_eq ((layoutNibble_toNat raw).trans hh.layoutIndicator.symm)
  rw [extractHeader, htitle, hspeed, hnibble, rawByte_eq hh.cartridgeType, rawByte_eq hh.romSizeCode,
    rawByte_eq hh.sramSizeCode, rawByte_eq hh.country, rawByte_eq hh.license, rawByte_eq hh.version,
    hword 28 _ hh.inverseChecksum, hword 30 _ hh.checksum, hword 32 _ hh.nmiVector, hword 34 _ hh.resetVector]

/-! ### The two blocks -/

theorem positionWrites_cold {l : Layout} {o : Nat} {r : Session} (hu : r.cachedUpperByte = none)
    (hl : r.cachedLowerByte = none) (hb : r.cachedBank = none) : positionWrites l o r = 3 := by
  simp [positionWrites, missCount, hu, hl, hb]

/-- From the end of the LowROM block to the start of the HighROM block only `A_LO` moves (43_header_parser.md R154). -/
theorem positionWrites_secondBlock {r : Session} (h : CachesAt .lowROM (headerBase .lowROM + 35) r) :
    positionWrites .highROM (headerBase .highROM) r = 1 := by
  rw [positionWrites, h.bank, h.upper, h.lower]
  decide

theorem exec_parseHeader_of_blocks {s v u : State} {first raw : List Byte} (ho : s.isOpen)
    (hu : s.session.layoutLocked = false) (h : readBlock .lowROM (s.setLayout .lowROM) = .done first v)
    (hn : layoutNibble first = 1) (h' : readBlock .highROM (v.setLayout .highROM) = .done raw u)
    (hv : checksumPairValid (extractHeader raw).checksum (extractHeader raw).inverseChecksum = true) :
    exec .parseHeader s =
      .next (complete (some (.header (extractHeader raw))) (u.lockHeader (extractHeader raw))) := by
  have hacc : acceptHeader raw u = _ := if_pos hv
  have hdec : decideLayout first v = acceptHeader raw u := by
    simp [decideLayout, hn, h']
  simp only [exec, execParseHeader, whenOpen, if_pos ho, hu, h, orRaise_done, hdec, hacc, Bool.false_eq_true, if_false]

/-- Settles O45: the first block, read cold after three writes, decides the layout; the second, read from where the
first left the bus, is the header. -/
theorem parseHeaderTrustsOnlyTheFinalBlock : Obligations.ParseHeaderTrustsOnlyTheFinalBlock := by
  intro s first second h ho hunlocked hupper hlower hbank hsound hlen1 hlen2 hans1 hans2 hnibble hheader hpair
  have hcold : positionWrites .lowROM (headerBase .lowROM) (s.setLayout .lowROM).session = 3 :=
    positionWrites_cold hupper hlower hbank
  obtain ⟨v, hv, hfv, hcv, hnv⟩ := readBlock_answers (l := .lowROM) (s := s.setLayout .lowROM) hsound hlen1
    (by rw [hcold]; exact hans1)
  have hsecond : positionWrites .highROM (headerBase .highROM) (v.setLayout .highROM).session = 1 :=
    positionWrites_secondBlock ⟨hcv.bank, hcv.upper, hcv.lower⟩
  have hstart : v.env.txn + 1 = s.env.txn + 75 := by
    rw [hnv, hcold, setLayout_env]
  obtain ⟨u, hu, hfu, _⟩ := readBlock_answers (l := .highROM) (s := v.setLayout .highROM)
    (hfv.soundPorts hsound) hlen2
    (by rw [hsecond, setLayout_env, hstart, hfv.answers]; exact hans2)
  have hn : layoutNibble first = 1 := BitVec.eq_of_toNat_eq ((layoutNibble_toNat first).trans hnibble)
  have hx : extractHeader second = h := extractHeader_eq hlen2 hheader
  have hvalid : checksumPairValid h.checksum h.inverseChecksum = true := by
    simpa [checksumPairValid] using hpair
  refine ⟨_, exec_parseHeader_of_blocks ho hunlocked hv hn hu (hx.symm ▸ hvalid), hfu.layout, rfl, ?_, ?_⟩
  · rw [hx]; rfl
  · rw [hx, complete_host, lockHeader_host, hfu.host, setLayout_host, hfv.host, setLayout_host]

end Sys2Proof.Machine
end

section
/-! The family `20_memory.md`, the bus as memory: the address a read is made at (R41), and the outputs after any
sequence of positioning calls (R58, 41_address_bus.md R115). -/

namespace Sys2Proof.Machine

/-! ### One data read (20_memory.md R41, 41_address_bus.md R117) -/

/-- The bus address as the number the three latches form (20_memory.md R41). -/
theorem busAddress_eq_ofNat (p : Ports) :
    busAddress p = .ofNat 24 (p.bank.out.toNat * 65536 + p.aHi.out.toNat * 256 + p.aLo.out.toNat) := by
  rw [← busAddress_toNat, BitVec.ofNat_toNat, BitVec.setWidth_eq]

theorem exec_readData_sound {s : State} (ho : s.isOpen) (h : nowFails s = false) :
    exec .readData s =
      .next (complete (some (.value (dataByte s)))
        (s.record (.read s.session.ctrl (busAddress s.ports) (some (dataByte s))))) := by
  simp only [exec, execReadData, whenOpen, if_pos ho, portRead_sound h, orRaise_done]

/-- Settles O34: a read that does not fail is `dataByte`, the scheduled byte before the listed one. -/
theorem readDataReturnsWhatTheEnvironmentGives : Obligations.ReadDataReturnsWhatTheEnvironmentGives := by
  intro s ho hsound bus
  have hbus : busAddress s.ports = bus := busAddress_eq_ofNat s.ports
  refine ⟨dataByte s, fun b => dataByte_of_answer, fun hnone b hb => ?_, ?_⟩
  · rw [← hbus] at hb
    exact dataByte_of_cart hnone hb
  · rw [exec_readData_sound ho (nowFails_of_soundFor hsound), hbus]
    rfl

/-! ### Write suppression (20_memory.md R58, 41_address_bus.md R115) -/

/-- The outputs that form the bus address, as `plainCall` lists them. -/
def busOutputs (p : Ports) : Byte × Byte × Byte :=
  (p.bank.out, p.aHi.out, p.aLo.out)

theorem exec_gotoBank_done {b : Byte} {s t : State} (ho : s.isOpen) (h : gotoBankStep b s = .done () t) :
    exec (.gotoBank b) s = .next (complete none t) := by
  simp only [exec, execGotoBank, whenOpen, if_pos ho, h, orRaise_done]

/-- A 16-bit address is an ordinary one: below the sentinel (41_address_bus.md R110, 30_encoding.md R77). -/
theorem exec_gotoAddress_done {l : Layout} {a : Address} {s t : State} (ho : s.isOpen)
    (hl : s.session.layout = some l) (h : gotoAddressStep l a s = .done () t) :
    exec (.gotoAddress (a.setWidth 17)) s = .next (complete none t) := by
  have hnat : (a.setWidth 17).toNat = a.toNat := BitVec.toNat_setWidth_of_le (by decide)
  have hlt : a.toNat < overflowSentinel := a.isLt
  have haddr : (a.setWidth 17).setWidth 16 = a := by
    rw [BitVec.setWidth_setWidth_of_le _ (by decide), BitVec.setWidth_eq]
  simp only [exec, execGotoAddress, whenOpen, if_pos ho, hnat, if_neg hlt.ne, if_neg hlt.not_gt, withLayout, hl, haddr,
    h, orRaise_done]

/-- One call with suppression leaves the outputs of the call without it: a write is left out only where the cache, and
so the port, already holds the byte (10_state.md R24). -/
theorem exec_busInstr_outputs {s : State} {l : Layout} (call : BusCall) (hc : Coherent s) (ho : s.isOpen)
    (hl : s.session.layout = some l) (hs : s.soundPorts) :
    ∃ u, exec (busInstr call) s = .next (complete none u) ∧ BusFrame s u ∧
      busOutputs u.ports = plainCall l (busOutputs s.ports) call := by
  cases call with
  | inl b =>
    obtain ⟨u, hu⟩ := gotoBankStep_sound b hs
    have hf := gotoBankStep_frame b s
    rw [hu, final_done] at hf
    obtain ⟨_, hupper, hlower, hbank⟩ := gotoBankStep_done hu
    refine ⟨u, exec_gotoBank_done ho hu, hf, ?_⟩
    simp only [busOutputs, plainCall, hbank hc.bank, hupper, hlower]
  | inr a =>
    obtain ⟨u, hu⟩ := gotoAddressStep_sound l a hs
    have hf := gotoAddressStep_frame l a s
    rw [hu, final_done] at hf
    obtain ⟨_, hbank, hupper, hlower⟩ := gotoAddressStep_done hu
    refine ⟨u, exec_gotoAddress_done ho hl hu, hf, ?_⟩
    simp only [busOutputs, plainCall, hupper hc.upper, hlower hc.lower, hbank]

theorem runInstrs_cons_next {i : Instr} {is : List Instr} {s t : State} (h : exec i s = .next t) :
    runInstrs (i :: is) s = runInstrs is t := by
  simp only [runInstrs, h]

/-- Settles O36, by induction on the calls: each keeps the invariant, and with it the caches right for the next. -/
theorem suppressionNeverChangesTheBus : Obligations.SuppressionNeverChangesTheBus := by
  intro calls
  induction calls with
  | nil => exact fun s l _ _ _ _ => ⟨s, rfl, rfl⟩
  | cons call calls ih =>
    intro s l hinv ho hl hs
    obtain ⟨u, hu, hf, hout⟩ := exec_busInstr_outputs call hinv.busInv.toCoherent ho hl hs
    obtain ⟨t, ht, houts⟩ :=
      ih (complete none u) l (exec_sessionInv hinv hu) (hf.status.trans ho) (hf.layout.trans hl) (hf.soundPorts hs)
    refine ⟨t, by rw [List.map_cons, runInstrs_cons_next hu, ht], ?_⟩
    rw [houts]
    exact congrArg (calls.foldl (plainCall l)) hout

end Sys2Proof.Machine
end

section
/-! The family `20_memory.md`, consecutive bytes: a run of positioned reads of consecutive offsets, which is what the
loops of a ROM dump come to (R47, 45_dump_engine.md R190, R194, R195). -/

namespace Sys2Proof.Machine

/-! ### How many data reads are recorded (41_address_bus.md R117) -/

/-- From `s` to `t` the record grew by events of which `n` are data reads. -/
def ReadsMade (n : Nat) (s t : State) : Prop :=
  ∃ es, t.env.trace = es ++ s.env.trace ∧ readCount es = n

theorem readsMade_of_env {s t : State} (h : t.env = s.env) : ReadsMade 0 s t :=
  ⟨[], by rw [h]; rfl, rfl⟩

theorem ReadsMade.trans {n m : Nat} {s t u : State} (h : ReadsMade n s t) (k : ReadsMade m t u) :
    ReadsMade (n + m) s u := by
  obtain ⟨es, he, rfl⟩ := h
  obtain ⟨ds, hd, rfl⟩ := k
  refine ⟨ds ++ es, by rw [hd, he, List.append_assoc], ?_⟩
  rw [readCount, List.countP_append, Nat.add_comm]
  rfl

theorem debouncedWrite_readsMade {p : PortId} {c : Option Byte} {v : Byte} {s t : State} {u : Unit}
    (h : debouncedWrite p c v s = .done u t) : ReadsMade 0 s t := by
  rcases (debouncedWrite_done h).2 with ⟨_, rfl⟩ | ⟨_, rfl⟩
  · exact readsMade_of_env rfl
  · exact ⟨[.write p v true], by simp, rfl⟩

theorem gotoBankStep_readsMade {b : Byte} {s t : State} {u : Unit} (h : gotoBankStep b s = .done u t) :
    ReadsMade 0 s t := by
  obtain ⟨_, w, hw, ht⟩ := bind_eq_done h
  cases ht
  exact (debouncedWrite_readsMade hw).trans (readsMade_of_env rfl)

theorem gotoAddressStep_readsMade {l : Layout} {a : Address} {s t : State} {u : Unit}
    (h : gotoAddressStep l a s = .done u t) : ReadsMade 0 s t := by
  obtain ⟨_, w, hw, ht⟩ := bind_eq_done h
  obtain ⟨_, x, hx, hy⟩ := bind_eq_done ht
  cases hy
  have hupper := (debouncedWrite_readsMade hw).trans (readsMade_of_env (t := w.setCachedUpper (upperByte l a)) rfl)
  exact hupper.trans ((debouncedWrite_readsMade hx).trans (readsMade_of_env rfl))

theorem gotoOffsetStep_readsMade {l : Layout} {o : Nat} {s t : State} {u : Unit}
    (h : gotoOffsetStep l o s = .done u t) : ReadsMade 0 s t := by
  obtain ⟨_, w, hw, ht⟩ := bind_eq_done h
  obtain ⟨_, x, hx, hy⟩ := bind_eq_done ht
  cases hy
  exact (gotoBankStep_readsMade hw).trans ((gotoAddressStep_readsMade hx).trans (readsMade_of_env rfl))

theorem readAtOffset_readsMade {l : Layout} {o : Nat} {s t : State} {v : Byte} (h : readAtOffset l o s = .done v t) :
    ReadsMade 1 s t := by
  obtain ⟨_, _, w, hw, _, _, _, htrace⟩ := readAtOffset_done h
  exact (gotoOffsetStep_readsMade hw).trans ⟨[_], htrace, rfl⟩

/-! ### The registers at an offset (42_cartridge_map.md R137) -/

/-- The caches and the bus registers stand at an offset. -/
structure StandsAt (l : Layout) (o : Nat) (r : Session) : Prop extends CachesAt l o r where
  bankRegister : r.bank = (mapBankAddress l o).1
  address : r.address = (mapBankAddress l o).2
  currentOffset : r.currentOffset = .ofNat 32 o

theorem readAtOffset_standsAt {l : Layout} {o : Nat} {s t : State} {v : Byte} (h : readAtOffset l o s = .done v t) :
    StandsAt l o t.session := by
  refine ⟨readAtOffset_cachesAt h, ?_, ?_, ?_⟩ <;> rw [(readAtOffset_done h).1]

theorem SumsOnly.standsAt {l : Layout} {o : Nat} {s t : State} (h : SumsOnly s t) (k : StandsAt l o s.session) :
    StandsAt l o t.session where
  bank := h.cachedBank.trans k.bank
  upper := h.cachedUpperByte.trans k.upper
  lower := h.cachedLowerByte.trans k.lower
  bankRegister := h.bank.trans k.bankRegister
  address := h.address.trans k.address
  currentOffset := h.currentOffset.trans k.currentOffset

/-- The frame of positioning and the registers at the offset reached are the whole session but for the accumulators. -/
theorem BusFrame.session_eq {l : Layout} {o : Nat} {s t : State} (hf : BusFrame s t) (h : StandsAt l o t.session) :
    t.session =
      { s.session with
        bank := (mapBankAddress l o).1, cachedBank := some (mapBankAddress l o).1
        address := (mapBankAddress l o).2, cachedUpperByte := some (upperByte l (mapBankAddress l o).2)
        cachedLowerByte := some (lowerByte (mapBankAddress l o).2), currentOffset := .ofNat 32 o
        runningChecksum := t.session.runningChecksum, pageSum := t.session.pageSum } := by
  obtain ⟨⟨hcb, hcu, hcl⟩, hb, ha, ho⟩ := h
  dsimp only
  rw [← hf.status, ← hf.layout, ← hf.layoutLocked, ← hf.header, ← hf.ctrl, ← hf.lastError, ← hb, ← ha, ← ho]
  rw [busRow, ← hb] at hcb
  rw [busRow, ← ha] at hcu
  rw [← ha] at hcl
  rw [← hcb, ← hcu, ← hcl]

/-- The last offset before a page boundary is the last byte of the page before it (42_cartridge_map.md R133). -/
theorem mapBankAddress_last (l : Layout) {n : Nat} (hn : 0 < n) :
    mapBankAddress l (n * pageSize l - 1) = (.ofNat 8 (n - 1), .ofNat 16 (pageSize l - 1)) := by
  have hdiv : (n * pageSize l - 1) / pageSize l = n - 1 := by
    cases l <;> simp only [pageSize] <;> omega
  have hmod : (n * pageSize l - 1) % pageSize l = pageSize l - 1 := by
    cases l <;> simp only [pageSize] <;> omega
  rw [mapBankAddress, resolveNat, hdiv, hmod]

/-! ### A run of consecutive reads -/

/-- From `s` to `t` the bytes `bs` were read at the consecutive offsets from `o` on, each by one positioned read, with
nothing between the reads but updates of accumulators. -/
inductive ReadRun (l : Layout) (t : State) : Nat → State → List Byte → Prop
  | stop (o : Nat) : ReadRun l t o t []
  | sums {o : Nat} {s u : State} {bs : List Byte} (h : SumsOnly s u) (k : ReadRun l t o u bs) : ReadRun l t o s bs
  | read {o : Nat} {s u : State} {v : Byte} {bs : List Byte} (h : readAtOffset l o s = .done v u)
      (k : ReadRun l t (o + 1) u bs) : ReadRun l t o s (v :: bs)

section

variable {l : Layout} {o : Nat} {s t u : State} {bs cs : List Byte}

theorem ReadRun.append (h : ReadRun l t o s bs) (k : ReadRun l u (o + bs.length) t cs) :
    ReadRun l u o s (bs ++ cs) := by
  induction h with
  | stop o => exact k
  | sums h _ ih => exact .sums h (ih k)
  | read h _ ih =>
    refine .read h (ih ?_)
    rwa [List.length_cons, Nat.add_comm _ 1, ← Nat.add_assoc] at k

theorem ReadRun.frame (h : ReadRun l t o s bs) : BusFrame s t := by
  induction h with
  | stop o => exact BusFrame.refl t
  | sums h _ ih => exact h.frame.trans ih
  | @read o s _ _ _ h _ ih =>
    have hf := readAtOffset_frame l o s
    rw [h, final_done] at hf
    exact hf.trans ih

theorem ReadRun.readsMade (h : ReadRun l t o s bs) : ReadsMade bs.length s t := by
  induction h with
  | stop o => exact readsMade_of_env rfl
  | sums h _ ih => simpa only [Nat.zero_add] using (readsMade_of_env h.env).trans ih
  | read h _ ih => simpa only [List.length_cons, Nat.add_comm] using (readAtOffset_readsMade h).trans ih

/-- A run that reads something ends with the registers at the last offset read. -/
theorem ReadRun.standsAt {k : Nat} (h : ReadRun l t o s bs) (hk : k + 1 = o + bs.length)
    (hs : bs = [] → StandsAt l k s.session) : StandsAt l k t.session := by
  induction h with
  | stop o => exact hs rfl
  | sums h _ ih => exact ih hk fun hb => h.standsAt (hs hb)
  | @read o s u _ bs h _ ih =>
    refine ih (by rw [hk, List.length_cons]; omega) fun hb => ?_
    have hko : k = o := by simpa [hb] using hk
    rw [hko]
    exact readAtOffset_standsAt h

/-- A byte of a run that a steady cartridge lists for its offset is the one listed. -/
theorem ReadRun.getElem?_eq {j : Nat} {b : Byte} (h : ReadRun l t o s bs) (hc : Coherent s) (hs : s.steadyCart)
    (ho : o + j < 256 * pageSize l) (hj : j < bs.length)
    (hb : s.cartAt s.session.ctrl (busOfOffset l (o + j)) = some b) : bs[j]? = some b := by
  induction h generalizing j with
  | stop o => exact absurd hj (Nat.not_lt_zero j)
  | sums h _ ih =>
    refine ih (h.coherent hc) (h.frame.steadyCart hs) ho hj ?_
    rwa [State.cartAt, h.env, h.frame.ctrl]
  | @read o s u v bs h _ ih =>
    cases j with
    | zero => rw [List.getElem?_cons_zero, readAtOffset_value h hc hs ho hb]
    | succ j =>
      have hf := readAtOffset_frame l o s
      rw [h, final_done] at hf
      rw [List.getElem?_cons_succ]
      rw [← Nat.add_assoc, Nat.add_right_comm] at ho hb
      refine ih (readAtOffset_busAt h hc).toCoherent (hf.steadyCart hs) ho (Nat.lt_of_succ_lt_succ hj) ?_
      rwa [State.cartAt, hf.cart, hf.ctrl]

/-- A run of offsets for which a steady cartridge lists an image reads that image (20_memory.md R47). -/
theorem ReadRun.eq_image {image : List Byte} (h : ReadRun l t o s bs) (hc : Coherent s) (hs : s.steadyCart)
    (ho : o + bs.length ≤ 256 * pageSize l) (hlen : image.length = bs.length)
    (himage : ∀ j < bs.length, s.cartAt s.session.ctrl (busOfOffset l (o + j)) = image[j]?) : bs = image := by
  apply List.ext_getElem hlen.symm
  intro j hj hj'
  have hb := himage j hj
  rw [List.getElem?_eq_getElem hj'] at hb
  have hget := h.getElem?_eq hc hs (by omega) hj hb
  rw [List.getElem?_eq_getElem hj] at hget
  exact Option.some.inj hget

end

/-! ### The loops of a ROM dump as runs (45_dump_engine.md R194, R195) -/

/-- The inner loop's test: the next offset resolves to another bank exactly at the end of the page. -/
theorem resolveNat_succ_ne_iff {l : Layout} {cur o m : Nat} (ho : cur * pageSize l ≤ o)
    (hm : o + (m + 1) = (cur + 1) * pageSize l) : (resolveNat l (o + 1)).1 ≠ cur ↔ m = 0 := by
  cases l <;> simp only [pageSize, resolveNat] at ho hm ⊢ <;> omega

/-- A done inner loop is a run from its offset to the end of the page, given turns enough for the bytes left of it. -/
theorem pageLoop_readRun {l : Layout} {cur turns o m : Nat} {s t : State} {r : List Byte × Nat}
    (h : pageLoop l cur turns o s = .done r t) (ho : cur * pageSize l ≤ o)
    (hm : o + (m + 1) = (cur + 1) * pageSize l) (hturns : m < turns) :
    ReadRun l t o s r.1 ∧ r.1.length = m + 1 ∧ r.2 = (cur + 1) * pageSize l := by
  induction turns generalizing o m s r with
  | zero => exact absurd hturns (Nat.not_lt_zero m)
  | succ turns ih =>
    obtain ⟨v, u, hu, hrest⟩ := bind_eq_done h
    have htest := resolveNat_succ_ne_iff ho hm
    simp only at hrest
    split at hrest
    next hne =>
      cases hrest
      have hzero := htest.mp hne
      subst hzero
      exact ⟨.read hu (.sums (addToPage_sumsOnly u v) (.stop _)), rfl, hm⟩
    next hsame =>
      obtain ⟨r', x, hx, hy⟩ := bind_eq_done hrest
      cases hy
      obtain ⟨m, rfl⟩ := Nat.exists_eq_succ_of_ne_zero fun h0 => hsame (htest.mpr h0)
      obtain ⟨hrun, hlen, hend⟩ := ih hx (by omega) (by omega) (Nat.lt_of_succ_lt_succ hturns)
      exact ⟨.read hu (.sums (addToPage_sumsOnly u v) hrun), by rw [List.length_cons, hlen], hend⟩

theorem pageSize_pos (l : Layout) : 0 < pageSize l := by
  cases l <;> decide

/-- One pass of the inner loop from the first offset of a bank is a run of one page. -/
theorem pageLoop_readRun_page {l : Layout} {cur : Nat} {s t : State} {r : List Byte × Nat}
    (h : pageLoop l cur (pageSize l) (cur * pageSize l) s = .done r t) :
    ReadRun l t (cur * pageSize l) s r.1 ∧ r.1.length = pageSize l ∧ r.2 = (cur + 1) * pageSize l := by
  have hpos := pageSize_pos l
  obtain ⟨hrun, hlen, hend⟩ := pageLoop_readRun (m := pageSize l - 1) h (Nat.le_refl _)
    (by rw [Nat.sub_add_cancel hpos, Nat.succ_mul]) (Nat.sub_lt hpos Nat.one_pos)
  exact ⟨hrun, by rw [hlen, Nat.sub_add_cancel hpos], hend⟩

theorem resolveNat_bank (l : Layout) (n : Nat) : (resolveNat l (n * pageSize l)).1 = n :=
  Nat.mul_div_cancel n (pageSize_pos l)

/-- A done pass over consecutive banks is one run over their pages. -/
theorem passLoop_readRun {l : Layout} {pages cur : Nat} {s t : State} {bs : List Byte}
    (h : passLoop l pages cur (cur * pageSize l) s = .done bs t) :
    ReadRun l t (cur * pageSize l) s bs ∧ bs.length = pages * pageSize l := by
  induction pages generalizing cur s bs with
  | zero =>
    cases h
    exact ⟨.stop _, by rw [Nat.zero_mul]; rfl⟩
  | succ pages ih =>
    obtain ⟨⟨page, next⟩, u, hu, hrest⟩ := bind_eq_done h
    obtain ⟨rest, x, hx, hy⟩ := bind_eq_done hrest
    cases hy
    obtain ⟨hrun, hlen, rfl⟩ := pageLoop_readRun_page hu
    rw [resolveNat_bank] at hx
    obtain ⟨hruns, hlens⟩ := ih hx
    have hstart : (cur + 1) * pageSize l = cur * pageSize l + page.length := by rw [hlen, Nat.succ_mul]
    rw [hstart] at hruns
    exact ⟨hrun.append (.sums (ifFold_sumsOnly _ u) hruns),
      by rw [List.length_append, hlen, hlens, Nat.succ_mul, Nat.add_comm]⟩

end Sys2Proof.Machine
end

section
/-! The family `20_memory.md`, a ROM dump in one pass: the run of reads it makes and the state it leaves (R47,
45_dump_engine.md R190, R198 to R201). -/

namespace Sys2Proof.Machine

theorem pageSize_eq_ite (l : Layout) : pageSize l = if l = .lowROM then 32768 else 65536 := by
  cases l <;> rfl

/-- A dump that is not split is one pass from `startBank` (45_dump_engine.md R193). -/
theorem passList_unsplit {c : Config} {b : Byte} {pages : Nat} {l : Layout} (h : ¬ (l = .highROM ∧ 64 < pages)) :
    passList c b pages l = [(b.toNat, pages)] :=
  if_neg h

theorem runPasses_single {l : Layout} {origin pages : Nat} {s t : State} {bs : List Byte}
    (h : runPasses l [(origin, pages)] s = .done bs t) :
    passLoop l pages origin (origin * pageSize l) s = .done bs t := by
  obtain ⟨cs, u, hu, hrest⟩ := bind_eq_done h
  cases hrest
  rw [List.append_nil]
  exact hu

theorem exec_dumpRom_done {l : Layout} {b : Byte} {pages : Nat} {s t : State} {bs : List Byte} (ho : s.isOpen)
    (hlocked : s.session.layoutLocked = true) (hl : s.session.layout = some l)
    (hfit : passesFit (passList s.config b pages l) = true)
    (h : runPasses l (passList s.config b pages l) s.clearSums = .done bs t) :
    exec (.dumpRom b pages) s = .next (finishRom bs t) := by
  simp only [exec, execDumpRom, whenOpen, if_pos ho, withLockedLayout, if_pos hlocked, withLayout, hl, if_pos hfit, h,
    orRaise_done]

/-- On a sound environment an unsplit dump within bank 255 ends after one run of reads over its pages. -/
theorem exec_dumpRom_unsplit {l : Layout} {b : Byte} {pages : Nat} {s : State} (ho : s.isOpen)
    (hlocked : s.session.layoutLocked = true) (hl : s.session.layout = some l) (hs : s.soundPorts)
    (hfit : b.toNat + pages ≤ 256) (hsplit : ¬ (l = .highROM ∧ 64 < pages)) :
    ∃ bs t, exec (.dumpRom b pages) s = .next (finishRom bs t) ∧
      ReadRun l t (b.toNat * pageSize l) s bs ∧ bs.length = pages * pageSize l := by
  have hpass : passList s.config b pages l = [(b.toNat, pages)] := passList_unsplit hsplit
  obtain ⟨bs, t, ht⟩ := runPasses_sound (s := s.clearSums) l [(b.toNat, pages)] hs
  obtain ⟨hrun, hlen⟩ := passLoop_readRun (runPasses_single ht)
  refine ⟨bs, t, exec_dumpRom_done ho hlocked hl ?_ (by rw [hpass, ht]), .sums (clearSums_sumsOnly s) hrun, hlen⟩
  rw [hpass]
  simpa [passesFit] using hfit

theorem maskedChecksum_toNat (acc : Sum) : (maskedChecksum acc).toNat = acc.toNat % 65536 := by
  simp [maskedChecksum]

/-- The last byte of a page is at `A_HI = A_LO = 0xFF`, in LowROM by the bit that is forced (41_address_bus.md R111). -/
theorem splitBytes_last (l : Layout) :
    upperByte l (.ofNat 16 (pageSize l - 1)) = 0xFF ∧ lowerByte (.ofNat 16 (pageSize l - 1)) = 0xFF := by
  cases l <;> decide

/-- The session after a run that ends at a page boundary: the registers are those of the page's last byte. -/
theorem ReadRun.session_eq_last {l : Layout} {o n : Nat} {s t : State} {bs : List Byte} (h : ReadRun l t o s bs)
    (hn : o + bs.length = n * pageSize l) (hbs : bs ≠ []) :
    t.session =
      { s.session with
        bank := .ofNat 8 (n - 1), cachedBank := some (.ofNat 8 (n - 1))
        address := .ofNat 16 (pageSize l - 1), cachedUpperByte := some 0xFF, cachedLowerByte := some 0xFF
        currentOffset := .ofNat 32 (n * pageSize l - 1)
        runningChecksum := t.session.runningChecksum, pageSum := t.session.pageSum } := by
  have hend : 0 < n * pageSize l := by
    have := List.length_pos_iff.mpr hbs
    omega
  have hstands : StandsAt l (n * pageSize l - 1) t.session :=
    h.standsAt (by omega) fun hnil => absurd hnil hbs
  have heq := h.frame.session_eq hstands
  obtain ⟨hupper, hlower⟩ := splitBytes_last l
  rwa [mapBankAddress_last l (Nat.pos_of_mul_pos_right hend), hupper, hlower] at heq

/-- Settles O52: the dump is one run of reads, so its bytes are the image and its registers those of the last byte. -/
theorem dumpRomReturnsTheCartridgeImage : Obligations.DumpRomReturnsTheCartridgeImage := by
  intro b pages s l image page hinv ho hlocked hl hs hsteady hpages hfit hsplit himage hcart
  have hpage : page = pageSize l := (pageSize_eq_ite l).symm
  rw [hpage] at himage hcart ⊢
  obtain ⟨bs, t, hexec, hrun, hlen⟩ := exec_dumpRom_unsplit ho hlocked hl hs hfit hsplit
  have hend : b.toNat * pageSize l + bs.length = (b.toNat + pages) * pageSize l := by rw [hlen, Nat.add_mul]
  have hbytes : bs = image :=
    hrun.eq_image hinv.busInv.toCoherent hsteady (hend ▸ Nat.mul_le_mul_right _ hfit) (himage.trans hlen.symm)
      (hlen ▸ hcart)
  have hne : bs ≠ [] := List.ne_nil_of_length_pos (hlen ▸ Nat.mul_pos hpages (pageSize_pos l))
  obtain ⟨es, htrace, hreads⟩ := hrun.readsMade
  have hcommands : t.host.commands = s.host.commands := by rw [hrun.frame.host]
  exact ⟨finishRom bs t, dumpResult bs t, _, hexec, rfl, hbytes, hrun.session_eq_last hend hne,
    maskedChecksum_toNat _, hrun.frame.phase, hcommands, es, htrace, hreads.trans hlen⟩

end Sys2Proof.Machine
end

section
/-! The family `30_encoding.md`, the command word: the decoder as one table over the fields `op`, `L` and `A`, and the
encoder as its inverse (30_encoding.md R70, R71). -/

namespace Sys2Proof

/-! ### The fields of a word (30_encoding.md R70) -/

/-- The field `A`. -/
def operandField (w : CommandWord) : Nat :=
  bitSlice w 31 0

theorem operandField_lt (w : CommandWord) : operandField w < 2 ^ 32 :=
  Nat.mod_lt _ (Nat.two_pow_pos 32)

theorem opField_lt (w : CommandWord) : bitSlice w 39 36 < 16 :=
  Nat.mod_lt _ (Nat.two_pow_pos 4)

theorem layoutField_lt (w : CommandWord) : bitSlice w 32 32 < 2 :=
  Nat.mod_lt _ (Nat.two_pow_pos 1)

/-- The bits of `A` from `lo` on are what is left of it after division. -/
theorem bitSlice_top (w : CommandWord) {lo : Nat} (hlo : lo < 32) : bitSlice w 31 lo = operandField w / 2 ^ lo := by
  have hsplit : 2 ^ lo * 2 ^ (31 + 1 - lo) = 2 ^ (31 + 1 - 0) := by
    rw [← Nat.pow_add, Nat.add_sub_of_le (by omega), Nat.sub_zero]
  simp only [operandField, bitSlice, Nat.pow_zero, Nat.div_one, ← hsplit, Nat.mod_mul_right_div_self]

/-- A slice that ends below bit 31 is a slice of `A`. -/
theorem bitSlice_inside (w : CommandWord) {hi lo : Nat} (hhi : hi < 31) (hlo : lo ≤ hi) :
    bitSlice w hi lo = operandField w / 2 ^ lo % 2 ^ (hi + 1 - lo) := by
  have hdvd : 2 ^ (hi + 1 - lo) ∣ 2 ^ (31 + 1 - lo) := Nat.pow_dvd_pow 2 (by omega)
  rw [← bitSlice_top w (by omega : lo < 32)]
  exact (Nat.mod_mod_of_dvd _ hdvd).symm

/-- A bit vector takes the low bits of a number, whether or not the others were cut off before. -/
theorem ofNat_mod_eq {n m : Nat} (hm : m = 2 ^ n) (a : Nat) : BitVec.ofNat n (a % m) = BitVec.ofNat n a :=
  BitVec.eq_of_toNat_eq (by simp [hm])

/-- A word whose `z` is zero is put together again from its other fields. -/
theorem assemble_fields_of_word {w : CommandWord} (hz : bitSlice w 35 33 = 0) :
    assemble (bitSlice w 39 36) (bitSlice w 32 32) (operandField w) = w := by
  refine BitVec.eq_of_toNat_eq ?_
  rw [assemble_toNat (opField_lt w) (layoutField_lt w) (operandField_lt w)]
  have hw := w.isLt
  simp only [bitSlice, operandField] at hz ⊢
  omega

/-! ### The decoder as a table (30_encoding.md R71) -/

/-- Whether an operation has a layout operand; where it has none, `L` must be zero. -/
def hasLayout : Nat → Bool
  | 0x6 | 0x7 | 0xC => true
  | _ => false

/-- How many low bits of `A` carry the operands of an operation; the others must be zero. -/
def operandBits : Nat → Nat
  | 0x2 | 0x4 | 0xB | 0xD => 8
  | 0xF => 16
  | 0x3 => 17
  | 0x7 | 0xE => 24
  | 0x6 | 0x8 | 0x9 | 0xC => 32
  | _ => 0

/-- The instruction of an operation, its operands taken from `L` and `A`. -/
def Instr.ofFields (op : Nat) (l : Layout) (a : Nat) : Instr :=
  match op with
  | 0x0 => .sessionOpen
  | 0x1 => .quiesce
  | 0x2 => .applyWord (.ofNat 8 a)
  | 0x3 => .gotoAddress (.ofNat 17 a)
  | 0x4 => .gotoBank (.ofNat 8 a)
  | 0x5 => .readData
  | 0x6 => .mapOffset (.ofNat 32 a) l
  | 0x7 => .unmapAddress (.ofNat 8 (a / 2 ^ 16)) (.ofNat 16 a) l
  | 0x8 => .gotoOffset (.ofNat 32 a)
  | 0x9 => .validate (.ofNat 16 (a / 2 ^ 16)) (.ofNat 16 a)
  | 0xA => .parseHeader
  | 0xB => .decodeRomSize (.ofNat 8 a)
  | 0xC => .pageCount a l
  | 0xD => .romPages (.ofNat 8 a)
  | 0xE => .dumpRom (.ofNat 8 (a / 2 ^ 16)) (a % 2 ^ 16)
  | _ => .dumpSram (.ofNat 8 (a / 2 ^ 8)) (.ofNat 8 a)

/-- Every must-be-zero bit of a word is zero (30_encoding.md R73). -/
def accepted (w : CommandWord) : Bool :=
  bitSlice w 35 33 == 0 && (hasLayout (bitSlice w 39 36) || bitSlice w 32 32 == 0) &&
    operandField w / 2 ^ operandBits (bitSlice w 39 36) == 0

/-- What makes a word accepted: `z` is zero, `L` is zero where there is no layout operand, and `A` holds nothing above the
operands. -/
theorem accepted_iff (w : CommandWord) :
    accepted w = true ↔
      bitSlice w 35 33 = 0 ∧ (hasLayout (bitSlice w 39 36) || bitSlice w 32 32 == 0) = true ∧
        operandField w < 2 ^ operandBits (bitSlice w 39 36) := by
  simp only [accepted, Bool.and_eq_true, beq_iff_eq, and_assoc, Nat.div_eq_zero_iff_lt (Nat.two_pow_pos _)]

@[simp] theorem acceptIf_true (i : Instr) : acceptIf true i = .ok i := rfl

@[simp] theorem acceptIf_false (i : Instr) : acceptIf false i = .error .reservedEncoding := rfl

/-- The decoder accepts a word or refuses it, and reads the instruction off its fields, row by row of the table. -/
theorem decode_eq (w : CommandWord) :
    decode w =
      acceptIf (accepted w)
        (.ofFields (bitSlice w 39 36) (layoutOfBit (bitSlice w 32 32)) (operandField w)) := by
  have hA : bitSlice w 31 0 = operandField w := rfl
  have hfit : operandField w / 4294967296 = 0 := Nat.div_eq_of_lt (operandField_lt w)
  have hop := opField_lt w
  by_cases hz : bitSlice w 35 33 = 0
  · simp only [decode, accepted, hz]
    generalize bitSlice w 39 36 = op at hop
    interval_cases op <;>
      simp [hA, hfit, hasLayout, operandBits, Instr.ofFields, bitSlice_top, bitSlice_inside, ofNat_mod_eq]
  · simp [decode, accepted, hz, beq_false_of_ne hz]

/-! ### Encoding and decoding (30_encoding.md R70, R71) -/

theorem layoutOfBit_layoutBit (l : Layout) : layoutOfBit (layoutBit l) = l := by
  cases l <;> rfl

theorem layoutBit_layoutOfBit {n : Nat} (hn : n < 2) : layoutBit (layoutOfBit n) = n := by
  interval_cases n <;> rfl

/-- The upper of two operands that share `A`. -/
theorem ofNat_upper {m n : Nat} (x : BitVec m) {b : Nat} (hb : b < 2 ^ n) :
    BitVec.ofNat m ((x.toNat * 2 ^ n + b) / 2 ^ n) = x := by
  rw [Nat.mul_comm, Nat.mul_add_div (Nat.two_pow_pos n), Nat.div_eq_of_lt hb, Nat.add_zero, BitVec.ofNat_toNat,
    BitVec.setWidth_eq]

/-- The lower of two operands that share `A`. -/
theorem ofNat_lower {n : Nat} (a : Nat) (y : BitVec n) : BitVec.ofNat n (a * 2 ^ n + y.toNat) = y :=
  BitVec.eq_of_toNat_eq (by simp [Nat.mod_eq_of_lt y.isLt])

/-- Two operands cut out of a number that holds nothing else make it up again. -/
theorem join_div_mod {m n a : Nat} (ha : a < m * n) : a / n % m * n + a % n = a := by
  rw [Nat.mod_eq_of_lt (Nat.div_lt_of_lt_mul (Nat.mul_comm m n ▸ ha)), Nat.div_add_mod']

/-- A word whose must-be-zero bits are zero decodes to the instruction of its fields. -/
theorem decode_assemble {op l a : Nat} (hop : op < 16) (hl : l < 2) (hL : hasLayout op || l == 0)
    (ha : a < 2 ^ operandBits op) : decode (assemble op l a) = .ok (.ofFields op (layoutOfBit l) a) := by
  have hbits : operandBits op ≤ 32 := by interval_cases op <;> decide
  have ha32 : a < 2 ^ 32 := Nat.lt_of_lt_of_le ha (Nat.pow_le_pow_right (by decide) hbits)
  obtain ⟨hopField, hz, hlField, haField⟩ := assemble_fields hop hl ha32
  have hzero : accepted (assemble op l a) = true := by
    rw [accepted_iff, hopField, hlField, operandField, haField]
    exact ⟨hz, hL, ha⟩
  rw [decode_eq, hzero, hopField, hlField, operandField, haField, acceptIf_true]

/-- The instruction of the fields of an accepted word is encoded as that word: by what the operation carries, nothing, one
operand or two without a layout, then the three operations with one and `DUMP_ROM`. -/
theorem encode_ofFields {op l a : Nat} (hop : op < 16) (hl : l < 2) (hL : hasLayout op || l == 0)
    (ha : a < 2 ^ operandBits op) :
    encode (.ofFields op (layoutOfBit l) a) = assemble op l a ∧
      (Instr.ofFields op (layoutOfBit l) a).wellFormed = true := by
  have hl0 : hasLayout op = false → l = 0 := fun h => by simpa [h] using hL
  have hbit := layoutBit_layoutOfBit hl
  have hkind : (op = 0x0 ∨ op = 0x1 ∨ op = 0x5 ∨ op = 0xA) ∨
      (op = 0x2 ∨ op = 0x3 ∨ op = 0x4 ∨ op = 0x8 ∨ op = 0xB ∨ op = 0xD) ∨
      (op = 0x9 ∨ op = 0xF) ∨ op = 0x6 ∨ op = 0x7 ∨ op = 0xC ∨ op = 0xE := by omega
  rcases hkind with hnone | hone | htwo | rfl | rfl | rfl | rfl
  · rcases hnone with rfl | rfl | rfl | rfl
    all_goals
      obtain rfl := hl0 rfl
      obtain rfl : a = 0 := Nat.lt_one_iff.mp ha
      exact ⟨rfl, rfl⟩
  · rcases hone with rfl | rfl | rfl | rfl | rfl | rfl
    all_goals
      obtain rfl := hl0 rfl
      exact ⟨congrArg (assemble _ 0) (Nat.mod_eq_of_lt ha), rfl⟩
  · rcases htwo with rfl | rfl
    all_goals
      obtain rfl := hl0 rfl
      exact ⟨congrArg (assemble _ 0) (join_div_mod ha), rfl⟩
  · exact ⟨congrArg₂ (assemble _) hbit (Nat.mod_eq_of_lt ha), rfl⟩
  · exact ⟨congrArg₂ (assemble _) hbit (join_div_mod ha), rfl⟩
  · exact ⟨congrArg₂ (assemble _) hbit rfl, decide_eq_true ha⟩
  · obtain rfl := hl0 rfl
    exact ⟨congrArg (assemble _ 0) (join_div_mod ha), decide_eq_true (Nat.mod_lt a (by decide))⟩

/-- Settles O1: every instruction is the one of the fields its word is assembled from. -/
theorem decodeOfEncodeIsTheInstruction : Obligations.DecodeOfEncodeIsTheInstruction := by
  intro i hi
  cases i with
  | sessionOpen | quiesce | readData | parseHeader => decide
  | applyWord a | gotoBank a | decodeRomSize a | romPages a | gotoAddress a | gotoOffset a =>
    refine (decode_assemble (by decide) (by decide) rfl a.isLt).trans ?_
    rw [Instr.ofFields, BitVec.ofNat_toNat, BitVec.setWidth_eq]
  | mapOffset a l =>
    refine (decode_assemble (by decide) (layoutBit_lt l) rfl a.isLt).trans ?_
    rw [Instr.ofFields, BitVec.ofNat_toNat, BitVec.setWidth_eq, layoutOfBit_layoutBit]
  | pageCount n l =>
    have hn : n < 2 ^ 32 := of_decide_eq_true hi
    refine (decode_assemble (by decide) (layoutBit_lt l) rfl hn).trans ?_
    rw [Instr.ofFields, layoutOfBit_layoutBit]
  | unmapAddress b a l =>
    have hfit : b.toNat * 2 ^ 16 + a.toNat < 2 ^ 24 := by omega
    refine (decode_assemble (by decide) (layoutBit_lt l) rfl hfit).trans ?_
    rw [Instr.ofFields, ofNat_upper b a.isLt, ofNat_lower, layoutOfBit_layoutBit]
  | validate b a =>
    have hfit : b.toNat * 2 ^ 16 + a.toNat < 2 ^ 32 := by omega
    refine (decode_assemble (by decide) (by decide) rfl hfit).trans ?_
    rw [Instr.ofFields, ofNat_upper b a.isLt, ofNat_lower]
  | dumpSram b a =>
    have hfit : b.toNat * 2 ^ 8 + a.toNat < 2 ^ 16 := by omega
    refine (decode_assemble (by decide) (by decide) rfl hfit).trans ?_
    change Except.ok (Instr.dumpSram _ _) = _
    rw [ofNat_upper b a.isLt, ofNat_lower]
  | dumpRom b n =>
    have hn : n < 2 ^ 16 := of_decide_eq_true hi
    have hfit : b.toNat * 2 ^ 16 + n < 2 ^ 24 := by omega
    refine (decode_assemble (by decide) (by decide) rfl hfit).trans ?_
    rw [Instr.ofFields, ofNat_upper b hn, Nat.mul_add_mod_self_right, Nat.mod_eq_of_lt hn]

/-- A decoded instruction is the one of the fields of an accepted word. -/
theorem decode_eq_ok {w : CommandWord} {i : Instr} (h : decode w = .ok i) :
    accepted w = true ∧
      i = .ofFields (bitSlice w 39 36) (layoutOfBit (bitSlice w 32 32)) (operandField w) := by
  rw [decode_eq] at h
  cases hw : accepted w with
  | false => rw [hw, acceptIf_false] at h; cases h
  | true => rw [hw, acceptIf_true] at h; cases h; exact ⟨rfl, rfl⟩

/-- Settles O2: an accepted word is assembled from its own fields, and so is the encoding of their instruction. -/
theorem encodeOfDecodedWordIsTheWord : Obligations.EncodeOfDecodedWordIsTheWord := by
  intro w i h
  obtain ⟨hw, rfl⟩ := decode_eq_ok h
  obtain ⟨hz, hL, ha⟩ := (accepted_iff w).mp hw
  have he := encode_ofFields (opField_lt w) (layoutField_lt w) hL ha
  rwa [assemble_fields_of_word hz] at he

end Sys2Proof
end

section
/-! The family `30_encoding.md`, the opcode table: its rows as the patterns and masks of the sixteen operations, and which
words select them (30_encoding.md R72, R73). -/

namespace Sys2Proof

/-! ### Masks on a word -/

theorem append_eq_append_iff {m n : Nat} {x x' : BitVec m} {y y' : BitVec n} :
    x ++ y = x' ++ y' ↔ x = x' ∧ y = y' := by
  constructor
  · intro h
    have hleft := congrArg (BitVec.extractLsb' n m) h
    have hright := congrArg (BitVec.extractLsb' 0 n) h
    rw [BitVec.extractLsb'_append_eq_left, BitVec.extractLsb'_append_eq_left] at hleft
    rw [BitVec.extractLsb'_append_eq_right, BitVec.extractLsb'_append_eq_right] at hright
    exact ⟨hleft, hright⟩
  · rintro ⟨rfl, rfl⟩
    rfl

/-- A mask that takes the bits from `k` on shows none exactly when there is none. -/
theorem and_highMask_eq_zero_iff {n : Nat} (x : BitVec n) (k : Nat) :
    x &&& (BitVec.allOnes n <<< k) = 0#n ↔ x.toNat < 2 ^ k := by
  constructor
  · intro h
    refine Nat.lt_pow_two_of_testBit _ fun i hi => ?_
    have hbit := congrArg (BitVec.getLsbD · i) h
    by_cases hin : i < n
    · have hshift : i - k < n := by omega
      simpa [BitVec.getLsbD, hin, hshift, Nat.not_lt.mpr hi] using hbit
    · exact BitVec.getLsbD_of_ge x i (Nat.not_lt.mp hin)
  · intro h
    ext i hi
    by_cases hik : i < k
    · simp [hik]
    · have hpow : 2 ^ k ≤ 2 ^ i := Nat.pow_le_pow_right (by decide) (Nat.not_lt.mp hik)
      have hbit : x[i] = false := Nat.testBit_lt_two_pow (Nat.lt_of_lt_of_le h hpow)
      simp [hbit]

/-! ### The rows -/

/-- Of a row of the opcode table: the mask, as it falls on the seven upper bits, on `L` and on `A` of a word. -/
def rowMask (op : Nat) : CommandWord :=
  BitVec.allOnes 7 ++ (if hasLayout op then 0#1 else BitVec.allOnes 1) ++ (BitVec.allOnes 32 <<< operandBits op)

/-- The rows are those of the sixteen operations, in order. -/
theorem opcodeTable_eq (l : Layout) (a : Nat) :
    opcodeTable =
      (List.finRange 16).map fun op => ⟨(Instr.ofFields op l a).mnemonic, assemble op 0 0, rowMask op⟩ := by
  rfl

/-- A word shows an operation's pattern under its mask exactly when it has its number and is accepted. -/
theorem and_rowMask_iff {op : Nat} (hop : op < 16) (w : CommandWord) :
    w &&& rowMask op = assemble op 0 0 ↔ bitSlice w 39 36 = op ∧ accepted w = true := by
  have hw : w = w.extractLsb' 33 7 ++ w.extractLsb' 32 1 ++ w.extractLsb' 0 32 := by
    rw [BitVec.extractLsb'_append_extractLsb'_eq_extractLsb' (start₂ := 33) (start₁ := 32) rfl,
      BitVec.extractLsb'_append_extractLsb'_eq_extractLsb' (start₂ := 32) (start₁ := 0) rfl,
      BitVec.extractLsb'_eq_self]
  have hp : assemble op 0 0 = BitVec.ofNat 7 (op * 8) ++ 0#1 ++ 0#32 := by
    interval_cases op <;> rfl
  have hupper : w.extractLsb' 33 7 = BitVec.ofNat 7 (op * 8) ↔ bitSlice w 39 36 = op ∧ bitSlice w 35 33 = 0 := by
    rw [← BitVec.toNat_inj]
    simp only [BitVec.extractLsb'_toNat, BitVec.toNat_ofNat, Nat.shiftRight_eq_div_pow, bitSlice]
    omega
  have hL : w.extractLsb' 32 1 &&& (if hasLayout op then 0#1 else BitVec.allOnes 1) = 0#1 ↔
      (hasLayout op || bitSlice w 32 32 == 0) = true := by
    cases hasLayout op <;> simp [← BitVec.toNat_inj, Nat.shiftRight_eq_div_pow, bitSlice]
  have hA : w.extractLsb' 0 32 &&& (BitVec.allOnes 32 <<< operandBits op) = 0#32 ↔
      operandField w < 2 ^ operandBits op := by
    rw [and_highMask_eq_zero_iff, BitVec.extractLsb'_toNat, Nat.shiftRight_eq_div_pow]
    rfl
  rw [hp, rowMask]
  conv_lhs => rw [hw]
  rw [BitVec.and_append, BitVec.and_append, append_eq_append_iff, append_eq_append_iff, BitVec.and_allOnes, hupper, hL,
    hA, accepted_iff]
  constructor
  · rintro ⟨⟨⟨rfl, hz⟩, hl⟩, ha⟩
    exact ⟨rfl, hz, hl, ha⟩
  · rintro ⟨rfl, hz, hl, ha⟩
    exact ⟨⟨⟨rfl, hz⟩, hl⟩, ha⟩

/-- The rows an accepted word selects are the one of its operation; another word selects none. -/
theorem selected_mnemonics (w : CommandWord) (l : Layout) (a : Nat) :
    (opcodeTable.filter fun r => r.selects w).map OpcodeRow.mnemonic =
      if accepted w then [(Instr.ofFields (bitSlice w 39 36) l a).mnemonic] else [] := by
  have hrow (op : Fin 16) : (w &&& rowMask op == assemble op 0 0) =
      (op == ⟨bitSlice w 39 36, opField_lt w⟩ && accepted w) := by
    rw [Bool.eq_iff_iff, beq_iff_eq, and_rowMask_iff op.isLt, Bool.and_eq_true, beq_iff_eq, Fin.ext_iff, eq_comm]
  rw [opcodeTable_eq l a, List.filter_map]
  simp only [Function.comp_def, OpcodeRow.selects, hrow]
  cases accepted w with
  | false => simp
  | true =>
    simp only [Bool.and_true, List.filter_beq]
    rw [List.count_eq_one_of_mem (List.nodup_finRange 16) (List.mem_finRange _)]
    rfl

/-- Settles O3: a word selects the row of its operation when it is accepted, and then it decodes to that operation. -/
theorem wordDecodesToTheOneRowItSelects : Obligations.WordDecodesToTheOneRowItSelects := by
  intro w
  have hsel := selected_mnemonics w (layoutOfBit (bitSlice w 32 32)) (operandField w)
  rw [decode_eq]
  cases hw : accepted w with
  | false =>
    rw [hw] at hsel
    exact List.map_eq_nil_iff.mp hsel
  | true =>
    rw [hw] at hsel
    exact hsel

end Sys2Proof
end

section
/-! The family `30_encoding.md`, the answer to the host (R84, R85): what a command that is refused, completes or takes a
fatal error answers, and the commands whose whole answer is one equation. -/

namespace Sys2Proof.Machine

/-! ### A word that is no command (30_encoding.md R73) -/

theorem step_of_decode_error {s s' : State} {w : CommandWord} {e : DecodeError} (hnext : nextCommand s = some (w, s'))
    (hdec : decode w = .error e) : step s = .next (refuseWord e s') := by
  simp only [step, hnext, hdec]

/-- A word that selects no row of the opcode table does not decode. -/
theorem decode_of_selects_none {w : CommandWord} (h : ∀ r ∈ opcodeTable, w &&& r.mask ≠ r.pattern) :
    decode w = .error .reservedEncoding := by
  have hnone : opcodeTable.filter (fun r => r.selects w) = [] :=
    List.filter_eq_nil_iff.mpr fun r hr => by simpa [OpcodeRow.selects] using h r hr
  have hrow := wordDecodesToTheOneRowItSelects w
  cases hd : decode w with
  | ok i => simp [hd, hnone] at hrow
  | error e => rfl

/-- Settles O6: the word does not decode, and the step takes it and answers so. -/
theorem reservedWordIsRefusedAndChangesNothing : Obligations.ReservedWordIsRefusedAndChangesNothing := by
  intro s w ws hcmd hrows
  exact step_of_decode_error (nextCommand_of_commands_cons hcmd) (decode_of_selects_none hrows)

/-- Settles O4: each word is one the decoder evaluates. -/
theorem wordsOfTheSpecDecode : Obligations.WordsOfTheSpecDecode := by
  unfold Obligations.WordsOfTheSpecDecode
  decide

/-! ### The answer of every command (30_encoding.md R84, 60_exceptions.md R235) -/

theorem exec_next (i : Instr) (s : State) : ∃ t, exec i s = .next t := by
  cases i <;> exact ⟨_, rfl⟩

/-- `QUIESCE` is never refused: it succeeds, or answers the fatal error of a failed transaction. -/
theorem execQuiesce_response {s t : State} (h : execQuiesce s = .next t) :
    t.host.response = some { status := .ok, result := none } ∨
    t.host.response = some { status := .fatal .portTransactionFailure, result := none } := by
  rcases execQuiesce_ends h with rfl | rfl
  · exact .inl rfl
  · exact .inr rfl

/-- Settles O11: each end of a command answers, and only completion gives a result. -/
theorem everyInstructionAnswersTheHost : Obligations.EveryInstructionAnswersTheHost := by
  intro i s
  obtain ⟨t, h⟩ := exec_next i s
  refine ⟨t, ?_⟩
  by_cases hi : i = .quiesce
  · subst hi
    rcases execQuiesce_response h with hr | hr
    · exact ⟨_, h, hr, fun _ => rfl⟩
    · exact ⟨_, h, hr, fun hsome => absurd hsome Bool.false_ne_true⟩
  cases exec_ends hi h with
  | refused reason => exact ⟨_, h, rfl, fun hsome => absurd hsome Bool.false_ne_true⟩
  | completed result _ => exact ⟨_, h, rfl, fun _ => rfl⟩
  | raised kind _ => exact ⟨_, h, raise_response kind _, fun hsome => absurd hsome Bool.false_ne_true⟩

/-- Settles O12: of the ends of a command only `refuse` answers a refusal, and it writes nothing but the answer. -/
theorem refusedCommandChangesOnlyTheAnswer : Obligations.RefusedCommandChangesOnlyTheAnswer := by
  intro i s t reason r h hr
  by_cases hi : i = .quiesce
  · subst hi
    rcases execQuiesce_response h with hq | hq <;> cases hq.symm.trans hr
  cases exec_ends hi h with
  | refused reason' => cases hr; rfl
  | completed result _ => cases hr
  | raised kind _ => cases (raise_response kind _).symm.trans hr

/-! ### `APPLY` (30_encoding.md R74, R75) -/

theorem exec_applyWord_open (w : Byte) {s : State} (ho : s.isOpen) :
    exec (.applyWord w) s = .next (complete none (lines .raw w s)) :=
  congrArg Host.Outcome.next (if_pos ho)

/-- Bits 7:5 drive no line. -/
theorem lineLevels_and_lowBits (w : Byte) : lineLevels (w &&& 0x1F) = lineLevels w := by
  have hmask : BitVec.extractLsb' 0 5 (0x1F : Byte) = BitVec.allOnes 5 := by decide
  rw [lineLevels, BitVec.extractLsb'_and, hmask, BitVec.and_allOnes, lineLevels]

/-- Only the levels of a word reach the lines. -/
theorem lines_congr (p : LinePhase) {v w : Byte} (h : lineLevels v = lineLevels w) (s : State) :
    lines p v s = lines p w s := by
  simp only [lines, h]

/-- Settles O29: a word acts through its levels alone, and `APPLY` completes on an open session. -/
theorem applyIgnoresReservedBits : Obligations.ApplyIgnoresReservedBits := by
  intro w s
  have hlines := lines_congr .raw (lineLevels_and_lowBits w) s
  refine ⟨?_, fun ho => ⟨_, exec_applyWord_open w ho, rfl⟩⟩
  simp only [exec, execApply, hlines]

/-! ### `GOTO_ADDRESS` from the sentinel on (30_encoding.md R77, 41_address_bus.md R112, R113) -/

theorem exec_gotoAddress_sentinel {a : BitVec 17} {s : State} (ho : s.isOpen) (ha : a.toNat = overflowSentinel) :
    exec (.gotoAddress a) s = .next (complete none (recoverAddress s)) := by
  simp only [exec, execGotoAddress, whenOpen, if_pos ho, if_pos ha]

theorem exec_gotoAddress_above {a : BitVec 17} {s : State} (ho : s.isOpen) (ha : overflowSentinel < a.toNat) :
    exec (.gotoAddress a) s = .next (refuse .argumentOutOfRange s) := by
  simp only [exec, execGotoAddress, whenOpen, if_pos ho, if_neg (Nat.ne_of_gt ha), if_pos ha]

/-- Settles O30: the sentinel recovers the address, any operand above it is out of range. -/
theorem gotoAddressFromTheSentinelOn : Obligations.GotoAddressFromTheSentinelOn := by
  intro a s ho ha
  split
  · exact exec_gotoAddress_sentinel ho ‹_›
  · exact exec_gotoAddress_above ho (Nat.lt_of_le_of_ne ha (Ne.symm ‹_›))

/-! ### `DECODE_ROM_SIZE` (30_encoding.md R82, 44_checksum_and_size.md R175) -/

/-- The two forms of the result. -/
theorem romSize_result (c : Byte) :
    Result.romSize (sizeValid c) (decodedRomSize c) =
      if 7 ≤ c.toNat then .romSize true (some (2 ^ (c.toNat - 7))) else .romSize false none := by
  unfold sizeValid decodedRomSize
  split
  · exact (if_pos ‹_›).symm
  · exact (if_neg ‹_›).symm

/-- Settles O48: the operation completes with the result of its code. -/
theorem decodeRomSizeGivesAPowerOfTwo : Obligations.DecodeRomSizeGivesAPowerOfTwo := by
  intro c s
  rw [← romSize_result c]
  rfl

end Sys2Proof.Machine
end

section
/-! The family `40_control_lines.md`: which operations move the lines (R103), and the next state of `APPLY` (R100,
R101). -/

namespace Sys2Proof.Machine

/-! ### Work that leaves the lines where they stood -/

/-- The lines and their phase are at `t` what they were at `s`. -/
def LinesKept (s t : State) : Prop :=
  t.session.ctrl = s.session.ctrl ∧ t.phase = s.phase

theorem LinesKept.refl (s : State) : LinesKept s s := ⟨rfl, rfl⟩

theorem LinesKept.trans {s t u : State} (h : LinesKept s t) (k : LinesKept t u) : LinesKept s u := by
  obtain ⟨hctrl, hphase⟩ := h
  obtain ⟨kctrl, kphase⟩ := k
  exact ⟨kctrl.trans hctrl, kphase.trans hphase⟩

/-- A run of port transactions that was not stopped has moved no line. -/
theorem BusFrame.linesKept {α : Type} {r : Txn α} {a : α} {s u : State} (h : BusFrame s r.final)
    (hr : r = .done a u) : LinesKept s u := by
  subst hr
  exact ⟨h.ctrl, h.phase⟩

theorem readBlock_linesKept {l : Layout} {raw : List Byte} {s u : State}
    (hr : readBlock l (s.setLayout l) = .done raw u) : LinesKept s u :=
  (readAscending_frame l headerLength (headerBase l) (s.setLayout l)).linesKept hr

/-- The instructions that may complete with other lines or another phase (R103). `QUIESCE`, which never completes from a
`WorkDone` state, is not among them. -/
def drivesLines : Instr → Bool
  | .applyWord _ | .sessionOpen | .dumpSram _ _ => true
  | _ => false

theorem drivesLines_cases {i : Instr} (h : drivesLines i = true) :
    (∃ w, i = .applyWord w) ∨ i = .sessionOpen ∨ ∃ c d, i = .dumpSram c d := by
  cases i with
  | applyWord w => exact .inl ⟨w, rfl⟩
  | sessionOpen => exact .inr (.inl rfl)
  | dumpSram c d => exact .inr (.inr ⟨c, d, rfl⟩)
  | _ => exact absurd h Bool.false_ne_true

theorem WorkDone.linesKept {i : Instr} {s u : State} (h : WorkDone s i u) :
    drivesLines i = true ∨ LinesKept s u := by
  cases h with
  | opened | applied | sramDumped => exact .inl rfl
  | computed => exact .inr (.refl s)
  | recovered => exact .inr ⟨rfl, rfl⟩
  | addressed _ _ hr => exact .inr ((gotoAddressStep_frame _ _ s).linesKept hr)
  | banked _ hr => exact .inr ((gotoBankStep_frame _ s).linesKept hr)
  | read _ hr => exact .inr ((portRead_frame s).linesKept hr)
  | positioned _ _ hr => exact .inr ((gotoOffsetStep_frame _ _ s).linesKept hr)
  | parsedLow _ _ hr => exact .inr ((readBlock_linesKept hr).trans ⟨rfl, rfl⟩)
  | parsedHigh _ _ hr hr' =>
    exact .inr (((readBlock_linesKept hr).trans (readBlock_linesKept hr')).trans ⟨rfl, rfl⟩)
  | romDumped _ _ hr => exact .inr (((runPasses_frame _ _ s.clearSums).linesKept hr).trans ⟨rfl, rfl⟩)

/-! ### The statements -/

/-- Settles O17: apart from `QUIESCE` and the fatal errors, lines that moved were moved by the work of an instruction
that completed, and only that of `APPLY`, `SESSION_OPEN` and `DUMP_SRAM` does. -/
theorem controlLinesMoveOnlyWithTheirOperations : Obligations.ControlLinesMoveOnlyWithTheirOperations := by
  intro i s t h hmoved
  have hnot : ¬ LinesKept s t := fun ⟨hctrl, hphase⟩ => hmoved.elim (· hctrl) (· hphase)
  by_cases hq : i = .quiesce
  · exact .inr (.inr (.inl hq))
  cases exec_ends hq h with
  | refused reason => exact absurd (LinesKept.refl s) hnot
  | raised kind _ => exact .inr (.inr (.inr (.inr ⟨kind, raise_response kind _⟩)))
  | completed result hd =>
    rcases drivesLines_cases (hd.linesKept.resolve_right hnot) with ha | ho | hs
    · exact .inl ha
    · exact .inr (.inl ho)
    · exact .inr (.inr (.inr (.inl hs)))

/-- The levels of a word by its number (30_encoding.md R74). -/
theorem lineLevels_eq_ofNat (w : Byte) : lineLevels w = BitVec.ofNat 5 (w.toNat % 32) :=
  (ofNat_mod_eq (n := 5) (m := 32) rfl w.toNat).symm

/-- Settles O28: on an open session `APPLY` is one line change. -/
theorem applyDrivesTheFiveLines : Obligations.ApplyDrivesTheFiveLines := by
  intro w s ho
  rw [exec_applyWord_open w ho, ← lineLevels_eq_ofNat]
  rfl

end Sys2Proof.Machine
end

section
/-! The family `41_address_bus.md`, positioning that meets no failure: what each half of an address is as a number (R111),
and the state each sub-step leads to, every write left out that the cache makes needless (R110, R114,
42_cartridge_map.md R137). -/

namespace Sys2Proof.Machine

/-! ### The operands of the port writes (41_address_bus.md R111, 42_cartridge_map.md R130) -/

theorem upperByte_ofNat (l : Layout) {n : Nat} (hn : n ≤ 0xFFFF) :
    upperByte l (.ofNat 16 n) = .ofNat 8 (n / 256) ||| (if l = .lowROM then 0x80 else 0x00) := by
  have hbits : (BitVec.ofNat 16 n).extractLsb' 8 8 = BitVec.ofNat 8 (n / 256) := by
    apply BitVec.eq_of_toNat_eq
    simp only [BitVec.extractLsb'_toNat, BitVec.toNat_ofNat, Nat.shiftRight_eq_div_pow]
    omega
  cases l with
  | lowROM =>
    rw [if_pos rfl, upperByte, hbits]
    rfl
  | highROM =>
    rw [if_neg (by decide), upperByte, hbits]
    exact BitVec.or_zero.symm

theorem lowerByte_ofNat (n : Nat) : lowerByte (.ofNat 16 n) = .ofNat 8 (n % 256) := by
  apply BitVec.eq_of_toNat_eq
  simp only [lowerByte_toNat, BitVec.toNat_ofNat]
  omega

/-- Bank, address and halves of an offset; inside its page the address is an ordinary one (42_cartridge_map.md R131). -/
theorem mapBankAddress_split {l : Layout} {page : Nat} (hpage : pageSize l = page) (o : Nat) :
    mapBankAddress l o = (.ofNat 8 (o / page), .ofNat 16 (o % page)) ∧
    upperByte l (.ofNat 16 (o % page)) = .ofNat 8 (o % page / 256) ||| (if l = .lowROM then 0x80 else 0x00) ∧
    lowerByte (.ofNat 16 (o % page)) = .ofNat 8 (o % page % 256) := by
  subst hpage
  have hle : o % pageSize l ≤ 0xFFFF := by cases l <;> simp only [pageSize] <;> omega
  exact ⟨rfl, upperByte_ofNat l hle, lowerByte_ofNat _⟩

/-! ### An open session runs the sub-step -/

/-- An operand below the sentinel is an ordinary address (41_address_bus.md R110). -/
theorem exec_gotoAddress_open {a : BitVec 17} {s : State} {l : Layout} (ho : s.isOpen)
    (hl : s.session.layout = some l) (ha : a.toNat ≤ 0xFFFF) :
    exec (.gotoAddress a) s =
      .next (orRaise (gotoAddressStep l (.ofNat 16 a.toNat) s) fun _ s => complete none s) := by
  have hlt : a.toNat < overflowSentinel := Nat.lt_succ_of_le ha
  simp only [exec, execGotoAddress, whenOpen, if_pos ho, if_neg hlt.ne, if_neg hlt.not_gt, withLayout, hl,
    BitVec.ofNat_toNat]

theorem exec_gotoBank_open (b : Byte) {s : State} (ho : s.isOpen) :
    exec (.gotoBank b) s = .next (orRaise (gotoBankStep b s) fun _ s => complete none s) :=
  congrArg Host.Outcome.next (if_pos ho)

theorem exec_readData_open {s : State} (ho : s.isOpen) :
    exec .readData s = .next (orRaise (portRead s) fun v s => complete (some (.value v)) s) :=
  congrArg Host.Outcome.next (if_pos ho)

theorem exec_gotoOffset_open {o : Offset} {s : State} {l : Layout} (ho : s.isOpen)
    (hl : s.session.layout = some l) (hm : o.toNat < 256 * pageSize l) :
    exec (.gotoOffset o) s = .next (orRaise (gotoOffsetStep l o.toNat s) fun _ s => complete none s) := by
  simp only [exec, execGotoOffset, whenOpen, if_pos ho, withLayout, hl, inMap, decide_eq_true hm, if_true]

/-! ### The states that sound positioning leads to -/

/-- What a done debounced write records (10_state.md R24 item 2). -/
def debouncedEvents (p : PortId) (c : Option Byte) (v : Byte) : List Event :=
  if c = some v then [] else [.write p v true]

/-- The machine after a done debounced write. -/
def debounced (p : PortId) (c : Option Byte) (v : Byte) (s : State) : State :=
  { s.setPort p fun q => { q with out := if c = some v then q.out else v } with
    env :=
      { s.env with
        txn := s.env.txn + (debouncedEvents p c v).length
        trace := debouncedEvents p c v ++ s.env.trace } }

theorem debouncedWrite_of_soundFor {s : State} {n : Nat} (p : PortId) (c : Option Byte) (v : Byte)
    (h : s.soundFor (n + 1)) :
    debouncedWrite p c v s = .done () (debounced p c v s) ∧ (debounced p c v s).soundFor n := by
  by_cases hc : c = some v
  · have heq : debounced p c v s = s := by
      simp only [debounced, debouncedEvents, if_pos hc]
      cases p <;> rfl
    rw [heq, debouncedWrite, if_pos hc]
    exact ⟨rfl, fun k hk => (h k hk).imp_right (by omega)⟩
  · have heq : debounced p c v s = (s.setPort p fun q => { q with out := v }).record (.write p v true) := by
      simp only [debounced, debouncedEvents, if_neg hc]
      cases p <;> rfl
    rw [heq, debouncedWrite, if_neg hc, portWrite_sound p v (nowFails_of_soundFor h)]
    exact ⟨rfl, soundFor_step h (by simp) (by simp)⟩

/-- The machine after a done `GOTO_BANK` (41_address_bus.md R114). -/
def banked (b : Byte) (s : State) : State :=
  (debounced .bank s.session.cachedBank b s).setBank b

/-- The machine after a done `GOTO_ADDRESS` of an ordinary address (41_address_bus.md R110). -/
def addressed (l : Layout) (a : Address) (s : State) : State :=
  (debounced .aLo s.session.cachedLowerByte (lowerByte a)
    ((debounced .aHi s.session.cachedUpperByte (upperByte l a) s).setCachedUpper (upperByte l a))).setAddress
      (lowerByte a) a

theorem gotoBankStep_of_soundFor {s : State} {n : Nat} (b : Byte) (h : s.soundFor (n + 1)) :
    gotoBankStep b s = .done () (banked b s) ∧ (banked b s).soundFor n := by
  obtain ⟨hw, hs⟩ := debouncedWrite_of_soundFor .bank s.session.cachedBank b h
  exact ⟨by rw [gotoBankStep, hw]; rfl, hs⟩

theorem gotoAddressStep_of_soundFor {s : State} (l : Layout) (a : Address) (h : s.soundFor 2) :
    gotoAddressStep l a s = .done () (addressed l a s) := by
  obtain ⟨hu, hs⟩ := debouncedWrite_of_soundFor .aHi s.session.cachedUpperByte (upperByte l a) h
  obtain ⟨hl, _⟩ := debouncedWrite_of_soundFor (n := 0)
    (s := (debounced .aHi s.session.cachedUpperByte (upperByte l a) s).setCachedUpper (upperByte l a))
    .aLo s.session.cachedLowerByte (lowerByte a) hs
  rw [gotoAddressStep, hu, txn_bind_done]
  exact congrArg (Txn.bind · _) hl

theorem gotoOffsetStep_of_soundFor {s : State} (l : Layout) (o : Nat) (h : s.soundFor 3) :
    gotoOffsetStep l o s =
      .done () ((addressed l (mapBankAddress l o).2 (banked (mapBankAddress l o).1 s)).setOffset (.ofNat 32 o)) := by
  obtain ⟨hb, hs⟩ := gotoBankStep_of_soundFor (mapBankAddress l o).1 h
  rw [gotoOffsetStep, hb, txn_bind_done, gotoAddressStep_of_soundFor l _ hs, txn_bind_done]

/-! ### The statements -/

/-- Settles O33: the sub-step is done, and its state is the one the statement writes out. -/
theorem gotoBankWritesTheBankThatDiffers : Obligations.GotoBankWritesTheBankThatDiffers := by
  intro b s ho hsound
  rw [exec_gotoBank_open b ho, (gotoBankStep_of_soundFor b hsound).1]
  rfl

/-- Settles O31: both debounced writes are done, and the halves are the statement's arithmetic. -/
theorem gotoAddressWritesTheHalvesThatDiffer : Obligations.GotoAddressWritesTheHalvesThatDiffer := by
  intro a s l ho hl ha hsound upper lower up lo
  have hupper : upperByte l (.ofNat 16 a.toNat) = upper := upperByte_ofNat l ha
  have hlower : lowerByte (.ofNat 16 a.toNat) = lower := lowerByte_ofNat a.toNat
  rw [exec_gotoAddress_open ho hl ha, gotoAddressStep_of_soundFor l _ hsound, orRaise_done, addressed, hupper, hlower,
    List.append_assoc]
  rfl

/-- Settles O40: bank, then address, then `currentOffset`, the operands those of the map. -/
theorem gotoOffsetPositionsBankThenAddress : Obligations.GotoOffsetPositionsBankThenAddress := by
  intro o s l ho hl hsound page hm bank addr upper lower bk up lo
  have hpage : pageSize l = page := pageSize_eq_ite l
  obtain ⟨hmap, hupper, hlower⟩ := mapBankAddress_split hpage o.toNat
  rw [exec_gotoOffset_open ho hl (by rwa [hpage]), gotoOffsetStep_of_soundFor l _ hsound, orRaise_done, hmap, addressed,
    hupper, hlower, BitVec.ofNat_toNat, BitVec.setWidth_eq, List.append_assoc, List.append_assoc]
  rfl

end Sys2Proof.Machine
end

section
/-! The family `41_address_bus.md`, positioning that meets a failure (R118): the writes a sub-step makes, in order, and
where it stops when one of them is the first to fail (10_state.md R36, 60_exceptions.md R234). -/

namespace Sys2Proof.Machine

/-! ### A fatal error after bus traffic -/

/-- The counted transactions are the recorded events, none of them a line change. -/
theorem BusFrame.events {s t : State} {es : List Event} (h : BusFrame s t) (ht : t.env.trace = es ++ s.env.trace) :
    t.env.txn = s.env.txn + es.length ∧ ∀ p w, Event.lines p w ∉ es := by
  obtain ⟨ds, hd, hn, hl⟩ := h.trace
  obtain rfl := List.append_cancel_right (hd.symm.trans ht)
  exact ⟨hn, hl⟩

theorem BusFrame.fatalEnd {s u : State} {made : List Event} (kind : FatalKind) (h : BusFrame s u)
    (ht : u.env.trace = made.reverse ++ s.env.trace) : FatalEnd kind s (raise kind u) made := by
  obtain ⟨hn, hl⟩ := h.events ht
  have hcount : transactionCount made = made.length :=
    transactionCount_eq_length fun p w hm => hl p w (List.mem_reverse.mpr hm)
  rw [List.length_reverse, ← hcount] at hn
  exact raise_fatalEnd h.config h.host h.cart h.answers h.failing hn ht

theorem firstFailure_zero {s : State} (h : s.env.txn ∈ s.env.failing) : s.firstFailure 0 :=
  ⟨h, fun _ hk => absurd hk (Nat.not_lt_zero _)⟩

theorem firstFailure_one {s : State} (hok : s.env.txn ∉ s.env.failing) (h : s.env.txn + 1 ∈ s.env.failing) :
    s.firstFailure 1 :=
  ⟨h, fun _ hk => Nat.lt_one_iff.mp hk ▸ hok⟩

/-! ### A list of port writes -/

/-- A port write as it is recorded. -/
def writeEvent (ok : Bool) (w : PortId × Byte) : Event :=
  .write w.1 w.2 ok

/-- The events of a list of port writes of which number `n` is the first to fail: those before it done, it failed, none
after it. -/
def eventsUpTo (ws : List (PortId × Byte)) (n : Nat) : List Event :=
  (ws.take n).map (writeEvent true) ++ ((ws.drop n).take 1).map (writeEvent false)

theorem eventsUpTo_append_left {ws : List (PortId × Byte)} (ws' : List (PortId × Byte)) {n : Nat}
    (hn : n < ws.length) : eventsUpTo (ws ++ ws') n = eventsUpTo ws n := by
  have hdrop : 1 ≤ (ws.drop n).length := by rw [List.length_drop]; omega
  rw [eventsUpTo, eventsUpTo, List.take_append_of_le_length hn.le, List.drop_append_of_le_length hn.le,
    List.take_append_of_le_length hdrop]

theorem eventsUpTo_append_right (ws ws' : List (PortId × Byte)) (m : Nat) :
    eventsUpTo (ws ++ ws') (ws.length + m) = ws.map (writeEvent true) ++ eventsUpTo ws' m := by
  simp only [eventsUpTo, List.take_length_add_append, List.drop_length_add_append, List.map_append, List.append_assoc]

/-- The sequence `r` from `s` makes the port writes `ws`, in order, and stops at the first that fails. -/
structure MakesWrites (ws : List (PortId × Byte)) (s : State) (r : Txn Unit) : Prop where
  frame : BusFrame s r.final
  done : (∀ k < ws.length, s.env.txn + k ∉ s.env.failing) →
    ∃ t, r = .done () t ∧ t.env.trace = (ws.map (writeEvent true)).reverse ++ s.env.trace
  stops : ∀ n < ws.length, s.firstFailure n →
    ∃ u, r = .failed u ∧ u.env.trace = (eventsUpTo ws n).reverse ++ s.env.trace

/-- A register update makes no write. -/
theorem makesWrites_update {s t : State} (hf : BusFrame s t) (he : t.env = s.env) : MakesWrites [] s (.done () t) where
  frame := hf
  done _ := ⟨t, rfl, by rw [he]; rfl⟩
  stops _ hn := absurd hn (Nat.not_lt_zero _)

/-- Where none of its writes fails, the next transaction after the sequence is the one after them. -/
theorem MakesWrites.passes {ws : List (PortId × Byte)} {s : State} {r : Txn Unit} (h : MakesWrites ws s r)
    (hn : ∀ k < ws.length, s.env.txn + k ∉ s.env.failing) :
    ∃ t, r = .done () t ∧ t.env.trace = (ws.map (writeEvent true)).reverse ++ s.env.trace ∧
      t.env.failing = s.env.failing ∧ ∀ j, t.env.txn + j = s.env.txn + (ws.length + j) := by
  obtain ⟨t, ht, htrace⟩ := h.done hn
  have hf := h.frame
  rw [ht, final_done] at hf
  have htxn := (hf.events htrace).1
  rw [List.length_reverse, List.length_map] at htxn
  exact ⟨t, ht, htrace, hf.failing, fun j => by rw [htxn, Nat.add_assoc]⟩

/-- The writes of two sequences one after the other. -/
theorem MakesWrites.bind {ws ws' : List (PortId × Byte)} {s : State} {r : Txn Unit} {k : Unit → State → Txn Unit}
    (h : MakesWrites ws s r) (hk : ∀ t, r = .done () t → MakesWrites ws' t (k () t)) :
    MakesWrites (ws ++ ws') s (r.bind k) := by
  refine ⟨bind_frame h.frame fun _ t ht => (hk t ht).frame, fun hn => ?_, fun n hn hff => ?_⟩
  · rw [List.length_append] at hn
    obtain ⟨t, ht, htrace, hfail, htxn⟩ := h.passes fun j hj => hn j (by omega)
    obtain ⟨u, hu, hutrace⟩ := (hk t ht).done fun j hj => by
      rw [hfail, htxn]
      exact hn _ (by omega)
    exact ⟨u, by rw [ht]; exact hu, by rw [hutrace, htrace, List.map_append, List.reverse_append, List.append_assoc]⟩
  · rcases Nat.lt_or_ge n ws.length with hlt | hge
    · obtain ⟨u, hu, hutrace⟩ := h.stops n hlt hff
      exact ⟨u, by rw [hu]; rfl, by rw [hutrace, eventsUpTo_append_left ws' hlt]⟩
    · obtain ⟨m, rfl⟩ := Nat.exists_eq_add_of_le hge
      obtain ⟨hfails, hbefore⟩ := hff
      obtain ⟨t, ht, htrace, hfail, htxn⟩ := h.passes fun j hj => hbefore j (by omega)
      have hff' : t.firstFailure m := by
        refine ⟨by rwa [hfail, htxn], fun j hj => ?_⟩
        rw [hfail, htxn]
        exact hbefore _ (by omega)
      obtain ⟨u, hu, hutrace⟩ := (hk t ht).stops m (by rw [List.length_append] at hn; omega) hff'
      refine ⟨u, by rw [ht]; exact hu, ?_⟩
      rw [hutrace, htrace, eventsUpTo_append_right, List.reverse_append, List.append_assoc]

/-- A register update after the writes. -/
theorem MakesWrites.update {ws : List (PortId × Byte)} {s : State} {r : Txn Unit} (h : MakesWrites ws s r)
    {f : State → State} (hf : ∀ t, BusFrame t (f t)) (he : ∀ t, (f t).env = t.env) :
    MakesWrites ws s (r.bind fun _ t => .done () (f t)) := by
  have hall := h.bind (k := fun _ t => .done () (f t)) fun t _ => makesWrites_update (hf t) (he t)
  rwa [List.append_nil] at hall

/-- A command that stops at a write ends in the fatal error, after the writes before it and the failed one. -/
theorem MakesWrites.fatalEnd {ws : List (PortId × Byte)} {s : State} {r : Txn Unit} {n : Nat}
    (h : MakesWrites ws s r) (k : Unit → State → State) (hn : n < ws.length) (hff : s.firstFailure n) :
    FatalEnd .portTransactionFailure s (orRaise r k) (eventsUpTo ws n) := by
  obtain ⟨u, hu, htrace⟩ := h.stops n hn hff
  have hf := h.frame
  rw [hu, final_failed] at hf
  rw [hu, orRaise_failed]
  exact hf.fatalEnd _ htrace

/-! ### The writes of the sub-steps (41_address_bus.md R110, R114, 42_cartridge_map.md R137) -/

/-- The port writes of a debounced write. -/
def missWrites (p : PortId) (c : Option Byte) (v : Byte) : List (PortId × Byte) :=
  if c = some v then [] else [(p, v)]

/-- The port writes of `GOTO_ADDRESS` for an ordinary address. -/
def addressWrites (l : Layout) (a : Address) (r : Session) : List (PortId × Byte) :=
  missWrites .aHi r.cachedUpperByte (upperByte l a) ++ missWrites .aLo r.cachedLowerByte (lowerByte a)

/-- The port writes of `GOTO_OFFSET`. -/
def offsetWrites (l : Layout) (o : Nat) (r : Session) : List (PortId × Byte) :=
  missWrites .bank r.cachedBank (mapBankAddress l o).1 ++ addressWrites l (mapBankAddress l o).2 r

theorem debouncedWrite_makesWrites {p : PortId} (hp : p ≠ .data) (c : Option Byte) (v : Byte) (s : State) :
    MakesWrites (missWrites p c v) s (debouncedWrite p c v s) := by
  by_cases hc : c = some v
  · rw [missWrites, debouncedWrite, if_pos hc, if_pos hc]
    exact makesWrites_update (BusFrame.refl s) rfl
  · rw [missWrites, debouncedWrite, if_neg hc, if_neg hc]
    refine ⟨portWrite_frame hp v s, fun hn => ?_, fun n hn hff => ?_⟩
    · have hok : nowFails s = false := Bool.eq_false_iff.mpr fun h => hn 0 Nat.one_pos (nowFails_eq_true.mp h)
      exact ⟨_, portWrite_sound p v hok, by simp [writeEvent]⟩
    · obtain rfl : n = 0 := Nat.lt_one_iff.mp hn
      exact ⟨_, portWrite_fails p v (nowFails_eq_true.mpr hff.1), by simp [eventsUpTo, writeEvent]⟩

/-- An update of the position registers is no bus traffic. -/
theorem position_frame (s : State) (a : Address) (b : Byte) (u l c : Option Byte) (o : Offset) :
    BusFrame s
      { s with
        session :=
          { s.session with
            address := a, bank := b, cachedUpperByte := u, cachedLowerByte := l, cachedBank := c
            currentOffset := o } } :=
  ⟨rfl, rfl, rfl, rfl, rfl, rfl, rfl, rfl, rfl, ⟨rfl, rfl, rfl⟩, ⟨rfl, rfl, rfl⟩, rfl, rfl, rfl, rfl, rfl,
    Nat.le_refl _, traffic_of_env rfl⟩

theorem gotoBankStep_makesWrites (b : Byte) (s : State) :
    MakesWrites (missWrites .bank s.session.cachedBank b) s (gotoBankStep b s) :=
  (debouncedWrite_makesWrites (by decide) s.session.cachedBank b s).update (f := fun t => t.setBank b)
    (fun t => position_frame t _ _ _ _ _ _) fun _ => rfl

theorem gotoAddressStep_makesWrites (l : Layout) (a : Address) (s : State) :
    MakesWrites (addressWrites l a s.session) s (gotoAddressStep l a s) := by
  refine (debouncedWrite_makesWrites (by decide) s.session.cachedUpperByte (upperByte l a) s).bind fun t ht => ?_
  have hcached : (t.setCachedUpper (upperByte l a)).session.cachedLowerByte = s.session.cachedLowerByte :=
    show t.session.cachedLowerByte = _ from congrArg Session.cachedLowerByte (debouncedWrite_done ht).1
  have hlower := (debouncedWrite_makesWrites (p := .aLo) (by decide) s.session.cachedLowerByte (lowerByte a)
    (t.setCachedUpper (upperByte l a))).update (f := fun u => u.setAddress (lowerByte a) a)
      (fun u => position_frame u _ _ _ _ _ _) fun _ => rfl
  rw [← hcached] at hlower
  have hupper : MakesWrites [] t (.done () (t.setCachedUpper (upperByte l a))) :=
    makesWrites_update (position_frame t _ _ _ _ _ _) rfl
  rw [← hcached]
  exact hupper.bind (k := fun _ w => (debouncedWrite .aLo w.session.cachedLowerByte (lowerByte a) w).bind
    fun _ u => .done () (u.setAddress (lowerByte a) a)) fun u hu => by cases hu; exact hlower

theorem gotoOffsetStep_makesWrites (l : Layout) (o : Nat) (s : State) :
    MakesWrites (offsetWrites l o s.session) s (gotoOffsetStep l o s) := by
  refine (gotoBankStep_makesWrites (mapBankAddress l o).1 s).bind fun t ht => ?_
  have haddress := (gotoAddressStep_makesWrites l (mapBankAddress l o).2 t).update
    (f := fun u => u.setOffset (.ofNat 32 o)) (fun u => position_frame u _ _ _ _ _ _) fun _ => rfl
  rwa [(gotoBankStep_done ht).1] at haddress

/-- A stopped `GOTO_OFFSET` has not come to `currentOffset` (42_cartridge_map.md R137). -/
theorem gotoOffsetStep_failed_currentOffset {l : Layout} {o : Nat} {s u : State}
    (h : gotoOffsetStep l o s = .failed u) : u.session.currentOffset = s.session.currentOffset := by
  have hbank := gotoBankStep_counters (mapBankAddress l o).1 s
  cases hb : gotoBankStep (mapBankAddress l o).1 s with
  | failed t =>
    rw [gotoOffsetStep, hb] at h
    cases h
    rw [hb] at hbank
    exact congrArg Prod.fst hbank
  | done _ t =>
    have haddress := gotoAddressStep_counters l (mapBankAddress l o).2 t
    rw [gotoOffsetStep, hb, txn_bind_done] at h
    cases ha : gotoAddressStep l (mapBankAddress l o).2 t with
    | failed v =>
      rw [ha] at h haddress
      cases h
      rw [hb] at hbank
      exact congrArg Prod.fst (haddress.trans hbank)
    | done _ v =>
      rw [ha] at h
      cases h

/-! ### The statements -/

/-- Settles O32: each clause is the list of writes the caches leave, stopped at its place. -/
theorem gotoAddressStopsAtAFailedWrite : Obligations.GotoAddressStopsAtAFailedWrite := by
  intro a s l ho hl ha upper lower
  have hupper : upperByte l (.ofNat 16 a.toNat) = upper := upperByte_ofNat l ha
  have hlower : lowerByte (.ofNat 16 a.toNat) = lower := lowerByte_ofNat a.toNat
  have hwrites := gotoAddressStep_makesWrites l (.ofNat 16 a.toNat) s
  have hexec := exec_gotoAddress_open ho hl ha
  rw [addressWrites, hupper, hlower] at hwrites
  refine ⟨fun hu hfail => ?_, fun hu hlo hfail => ?_, fun hu hlo hok hfail => ?_⟩
  · rw [missWrites, if_neg hu, List.singleton_append] at hwrites
    exact ⟨_, hexec, hwrites.fatalEnd _ (Nat.succ_pos _) (firstFailure_zero hfail)⟩
  · rw [missWrites, if_pos hu, missWrites, if_neg hlo] at hwrites
    exact ⟨_, hexec, hwrites.fatalEnd _ Nat.one_pos (firstFailure_zero hfail)⟩
  · rw [missWrites, if_neg hu, missWrites, if_neg hlo] at hwrites
    exact ⟨_, hexec, hwrites.fatalEnd _ Nat.one_lt_two (firstFailure_one hok hfail)⟩

/-- `GOTO_BANK` makes one write at most. -/
theorem exec_gotoBank_fails {b : Byte} {s : State} (ho : s.isOpen) (hc : s.session.cachedBank ≠ some b)
    (hfail : s.env.txn ∈ s.env.failing) :
    ∃ t, exec (.gotoBank b) s = .next t ∧ FatalEnd .portTransactionFailure s t [.write .bank b false] := by
  have hwrites := gotoBankStep_makesWrites b s
  rw [missWrites, if_neg hc] at hwrites
  exact ⟨_, exec_gotoBank_open b ho, hwrites.fatalEnd _ Nat.one_pos (firstFailure_zero hfail)⟩

theorem exec_gotoOffset_fails {o : Offset} {l : Layout} {s : State} {n : Nat} (ho : s.isOpen)
    (hl : s.session.layout = some l) (hm : o.toNat < 256 * pageSize l)
    (hn : n < (offsetWrites l o.toNat s.session).length) (hff : s.firstFailure n) :
    ∃ t, exec (.gotoOffset o) s = .next t ∧
      FatalEnd .portTransactionFailure s t (eventsUpTo (offsetWrites l o.toNat s.session) n) ∧
      t.session.currentOffset = s.session.currentOffset := by
  have hwrites := gotoOffsetStep_makesWrites l o.toNat s
  refine ⟨_, exec_gotoOffset_open ho hl hm, hwrites.fatalEnd _ hn hff, ?_⟩
  obtain ⟨u, hu, _⟩ := hwrites.stops n hn hff
  rw [hu, orRaise_failed]
  exact (congrArg Prod.fst (raise_counters _ u)).trans (gotoOffsetStep_failed_currentOffset hu)

theorem exec_readData_fails {s : State} (ho : s.isOpen) (hfail : s.env.txn ∈ s.env.failing) :
    ∃ t, exec .readData s = .next t ∧
      FatalEnd .portTransactionFailure s t [.read s.session.ctrl (busAddress s.ports) none] := by
  have hf := portRead_frame s
  have hread := portRead_fails (nowFails_eq_true.mpr hfail)
  rw [hread, final_failed] at hf
  exact ⟨_, exec_readData_open ho, by rw [hread, orRaise_failed]; exact hf.fatalEnd _ rfl⟩

/-- Settles O35: the three operations one by one; the writes of `GOTO_OFFSET` are those of its sub-steps in order. -/
theorem failedWriteOrReadIsFatal : Obligations.FailedWriteOrReadIsFatal := by
  intro s ho
  refine ⟨fun b => exec_gotoBank_fails ho, ?_, fun hfail => ?_⟩
  · intro o l n page bank upper lower writes hl hm hn hff
    have hpage : pageSize l = page := pageSize_eq_ite l
    obtain ⟨hmap, hupper, hlower⟩ := mapBankAddress_split hpage o.toNat
    have hwrites : offsetWrites l o.toNat s.session = writes := by
      rw [offsetWrites, hmap, addressWrites, hupper, hlower, ← List.append_assoc]
      rfl
    have hfails := exec_gotoOffset_fails ho hl (by rwa [hpage]) (by rwa [hwrites]) hff
    rwa [hwrites] at hfails
  · rw [← busAddress_eq_ofNat]
    exact exec_readData_fails ho hfail

end Sys2Proof.Machine
end

section
/-! The family `42_cartridge_map.md`: `MAP` and `UNMAP` inside and outside their domains (R130 to R135), their round trip
(R136), and the refusal of `GOTO_OFFSET` (R137). -/

namespace Sys2Proof.Machine

/-! ### Inside and outside the domain (42_cartridge_map.md R132, R135) -/

theorem inMap_iff {l : Layout} {o : Nat} : inMap l o = true ↔ o < 256 * pageSize l :=
  decide_eq_true_iff

theorem exec_mapOffset_inside {o : Offset} {l : Layout} (s : State) (h : o.toNat < 256 * pageSize l) :
    exec (.mapOffset o l) s =
      .next (complete (some (.bankAddress (mapBankAddress l o.toNat).1 (mapBankAddress l o.toNat).2)) s) :=
  congrArg Host.Outcome.next (if_pos (inMap_iff.mpr h))

theorem exec_mapOffset_outside {o : Offset} {l : Layout} (s : State) (h : ¬ o.toNat < 256 * pageSize l) :
    exec (.mapOffset o l) s = .next (refuse .argumentOutOfRange s) :=
  congrArg Host.Outcome.next (if_neg (mt inMap_iff.mp h))

theorem exec_unmapAddress_inside (b : Byte) {a : Address} {l : Layout} (s : State) (h : a.toNat < pageSize l) :
    exec (.unmapAddress b a l) s = .next (complete (some (.offset (unmapOffset l b a))) s) :=
  congrArg Host.Outcome.next (if_pos h)

theorem exec_unmapAddress_outside (b : Byte) {a : Address} {l : Layout} (s : State) (h : ¬ a.toNat < pageSize l) :
    exec (.unmapAddress b a l) s = .next (refuse .argumentOutOfRange s) :=
  congrArg Host.Outcome.next (if_neg h)

/-- The domain is tested before the first sub-step. -/
theorem exec_gotoOffset_outside {o : Offset} {s : State} {l : Layout} (ho : s.isOpen)
    (hl : s.session.layout = some l) (h : ¬ o.toNat < 256 * pageSize l) :
    exec (.gotoOffset o) s = .next (refuse .argumentOutOfRange s) := by
  have hout : ¬ inMap l o.toNat = true := mt inMap_iff.mp h
  simp only [exec, execGotoOffset, whenOpen, if_pos ho, withLayout, hl, if_neg hout]

/-! ### Bank, address and offset as numbers: nothing is cut off (42_cartridge_map.md R131, R134) -/

theorem pageSize_le (l : Layout) : pageSize l ≤ 65536 := by
  cases l <;> decide

theorem mapBankAddress_fst_toNat {l : Layout} {o : Nat} (h : o < 256 * pageSize l) :
    (mapBankAddress l o).1.toNat = o / pageSize l :=
  Nat.mod_eq_of_lt (Nat.div_lt_of_lt_mul (Nat.mul_comm 256 _ ▸ h))

theorem mapBankAddress_snd_toNat (l : Layout) (o : Nat) : (mapBankAddress l o).2.toNat = o % pageSize l :=
  Nat.mod_eq_of_lt (Nat.lt_of_lt_of_le (Nat.mod_lt o (pageSize_pos l)) (pageSize_le l))

/-- The pages of the 256 banks do not overlap and end with the map. -/
theorem unmapped_lt (l : Layout) (b : Byte) {a : Address} (h : a.toNat < pageSize l) :
    b.toNat * pageSize l + a.toNat < 256 * pageSize l :=
  calc b.toNat * pageSize l + a.toNat < (b.toNat + 1) * pageSize l := by rw [Nat.succ_mul]; omega
    _ ≤ 256 * pageSize l := Nat.mul_le_mul_right _ b.isLt

theorem unmapOffset_toNat (l : Layout) (b : Byte) {a : Address} (h : a.toNat < pageSize l) :
    (unmapOffset l b a).toNat = b.toNat * pageSize l + a.toNat := by
  have hlt := unmapped_lt l b h
  have hpage := pageSize_le l
  exact Nat.mod_eq_of_lt (by omega)

/-! ### The round trip (42_cartridge_map.md R136) -/

/-- Quotient times page plus remainder is the offset again. -/
theorem unmapOffset_mapBankAddress {l : Layout} {o : Offset} (h : o.toNat < 256 * pageSize l) :
    unmapOffset l (mapBankAddress l o.toNat).1 (mapBankAddress l o.toNat).2 = o := by
  rw [unmapOffset, mapBankAddress_fst_toNat h, mapBankAddress_snd_toNat, Nat.div_add_mod', BitVec.ofNat_toNat,
    BitVec.setWidth_eq]

/-- An address inside its page is the remainder, and leaves the bank as the quotient. -/
theorem mapBankAddress_unmapOffset (l : Layout) (b : Byte) {a : Address} (h : a.toNat < pageSize l) :
    mapBankAddress l (unmapOffset l b a).toNat = (b, a) := by
  have hdiv : (b.toNat * pageSize l + a.toNat) / pageSize l = b.toNat := by
    rw [Nat.add_comm, Nat.add_mul_div_right _ _ (pageSize_pos l), Nat.div_eq_of_lt h, Nat.zero_add]
  have hmod : (b.toNat * pageSize l + a.toNat) % pageSize l = a.toNat := by
    rw [Nat.mul_add_mod_self_right, Nat.mod_eq_of_lt h]
  rw [unmapOffset_toNat l b h, mapBankAddress, resolveNat, hdiv, hmod, BitVec.ofNat_toNat, BitVec.ofNat_toNat,
    BitVec.setWidth_eq, BitVec.setWidth_eq]

/-- What `MAP` answers lies in the domain of `UNMAP`. -/
theorem exec_unmapAddress_mapped {o : Offset} {l : Layout} (t : State) (h : o.toNat < 256 * pageSize l) :
    exec (.unmapAddress (mapBankAddress l o.toNat).1 (mapBankAddress l o.toNat).2 l) t =
      .next (complete (some (.offset o)) t) := by
  have haddr : (mapBankAddress l o.toNat).2.toNat < pageSize l := by
    rw [mapBankAddress_snd_toNat]
    exact Nat.mod_lt _ (pageSize_pos l)
  rw [exec_unmapAddress_inside _ t haddr, unmapOffset_mapBankAddress h]

/-- What `UNMAP` answers lies in the domain of `MAP`. -/
theorem exec_mapOffset_unmapped (b : Byte) {a : Address} {l : Layout} (t : State) (h : a.toNat < pageSize l) :
    exec (.mapOffset (unmapOffset l b a) l) t = .next (complete (some (.bankAddress b a)) t) := by
  have hmap : (unmapOffset l b a).toNat < 256 * pageSize l := by
    rw [unmapOffset_toNat l b h]
    exact unmapped_lt l b h
  rw [exec_mapOffset_inside t hmap, mapBankAddress_unmapOffset l b h]

/-! ### The statements -/

/-- Settles O39: either answer lies in the domain of the other operation, which takes it back. -/
theorem mapAndUnmapAreInverse : Obligations.MapAndUnmapAreInverse := by
  intro l page
  have hpage : pageSize l = page := pageSize_eq_ite l
  rw [← hpage]
  constructor
  · intro o s ho
    exact ⟨_, _, _, _, exec_mapOffset_inside s ho, rfl, exec_unmapAddress_mapped _ ho, rfl⟩
  · intro b a s ha
    exact ⟨_, _, _, exec_unmapAddress_inside b s ha, rfl, exec_mapOffset_unmapped b _ ha, rfl⟩

/-- Settles O37: the two sides of the domain. -/
theorem mapSplitsTheOffsetByPages : Obligations.MapSplitsTheOffsetByPages := by
  intro o l s page
  have hpage : pageSize l = page := pageSize_eq_ite l
  rw [← hpage]
  by_cases h : o.toNat < 256 * pageSize l
  · rw [exec_mapOffset_inside s h, if_pos h]
    rfl
  · rw [exec_mapOffset_outside s h, if_neg h]
    rfl

/-- Settles O38: the two sides of the page. -/
theorem unmapJoinsBankAndAddress : Obligations.UnmapJoinsBankAndAddress := by
  intro b a l s page
  have hpage : pageSize l = page := pageSize_eq_ite l
  rw [← hpage]
  by_cases h : a.toNat < pageSize l
  · rw [exec_unmapAddress_inside b s h, if_pos h]
    rfl
  · rw [exec_unmapAddress_outside b s h, if_neg h]
    rfl

/-- Settles O41: an offset from the first one after the map on is not in it. -/
theorem gotoOffsetOutsideTheMapIsRefused : Obligations.GotoOffsetOutsideTheMapIsRefused := by
  intro o s l ho hl hge
  rw [← pageSize_eq_ite] at hge
  exact exec_gotoOffset_outside ho hl (Nat.not_lt.mpr hge)

end Sys2Proof.Machine
end

section
/-! The family `43_header_parser.md`, one block: a run of 36 reads (R146), and, where the cartridge lists the block, what
it reads and the machine it leaves (R145, R154). -/

namespace Sys2Proof.Machine

/-! ### Reading ascending bytes as a run -/

theorem readAscending_readRun {l : Layout} {count o : Nat} {s t : State} {bs : List Byte}
    (h : readAscending l count o s = .done bs t) : ReadRun l t o s bs ∧ bs.length = count := by
  induction count generalizing o s bs with
  | zero =>
    cases h
    exact ⟨.stop _, rfl⟩
  | succ n ih =>
    obtain ⟨v, w, hw, hrest⟩ := bind_eq_done h
    obtain ⟨vs, x, hx, hy⟩ := bind_eq_done hrest
    cases hy
    obtain ⟨hrun, hlen⟩ := ih hx
    exact ⟨.read hw hrun, by rw [List.length_cons, hlen]⟩

/-- The registers with the position at an offset (42_cartridge_map.md R137). -/
def Session.positionedAt (r : Session) (l : Layout) (o : Nat) : Session :=
  { r with
    cachedBank := some (mapBankAddress l o).1, bank := (mapBankAddress l o).1
    cachedUpperByte := some (upperByte l (mapBankAddress l o).2)
    cachedLowerByte := some (lowerByte (mapBankAddress l o).2), address := (mapBankAddress l o).2
    currentOffset := .ofNat 32 o }

/-- Of each positioned read only the position stays, and that until the next. -/
theorem readAscending_session {l : Layout} {count o : Nat} {s t : State} {bs : List Byte}
    (h : readAscending l (count + 1) o s = .done bs t) : t.session = s.session.positionedAt l (o + count) := by
  induction count generalizing o s bs with
  | zero =>
    obtain ⟨v, w, hw, hrest⟩ := bind_eq_done h
    cases hrest
    exact (readAtOffset_done hw).1
  | succ n ih =>
    obtain ⟨v, w, hw, hrest⟩ := bind_eq_done h
    obtain ⟨vs, x, hx, hy⟩ := bind_eq_done hrest
    cases hy
    rw [ih hx, (readAtOffset_done hw).1, Nat.add_assoc, Nat.add_comm 1]
    rfl

/-! ### One block -/

/-- Byte `k` of either block is at the same bus address (43_header_parser.md R145, 20_memory.md R42). -/
theorem busOfOffset_header (l : Layout) {k : Nat} (hk : k < 36) :
    busOfOffset l (headerBase l + k) = .ofNat 24 (0xFFC0 + k) := by
  cases l with
  | lowROM =>
    have hsum : (32704 + k) / 32768 * 65536 + 0x8000 + (32704 + k) % 32768 = 0xFFC0 + k := by omega
    exact congrArg (BitVec.ofNat 24) hsum
  | highROM => rfl

/-- A block was read, the layout set first, and nothing failed (43_header_parser.md R146, R149). -/
structure BlockRead (l : Layout) (raw : List Byte) (s u : State) : Prop where
  done : readBlock l (s.setLayout l) = .done raw u
  length : raw.length = 36

section

variable {l : Layout} {raw : List Byte} {s u : State}

theorem BlockRead.run (h : BlockRead l raw s u) : ReadRun l u (headerBase l) (s.setLayout l) raw :=
  (readAscending_readRun h.done).1

theorem BlockRead.frame (h : BlockRead l raw s u) : BusFrame (s.setLayout l) u :=
  h.run.frame

theorem BlockRead.coherent (h : BlockRead l raw s u) (hc : Coherent s) : Coherent u := by
  obtain ⟨_, hat, _⟩ := readBlock_done hc h.done
  exact hat.toCoherent

theorem BlockRead.readsMade (h : BlockRead l raw s u) : ReadsMade 36 s u :=
  h.length ▸ h.run.readsMade

/-- The position a block leaves: its last byte, which is at the same port values in either layout. -/
theorem BlockRead.session (h : BlockRead l raw s u) :
    u.session =
      { s.session with
        address := .ofNat 16 (headerBase l + 35), bank := 0, cachedUpperByte := some 0xFF, cachedLowerByte := some 0xE3
        cachedBank := some 0, layout := some l, currentOffset := .ofNat 32 (headerBase l + 35) } := by
  rw [readAscending_session h.done]
  cases l <;> rfl

end

/-! ### A cartridge that lists a block -/

/-- Nothing ahead fails or is scheduled, and the cartridge lists the block at the header's bus addresses. -/
structure HeaderAhead (raw : List Byte) (s : State) : Prop where
  coherent : Coherent s
  sound : s.soundPorts
  steady : s.steadyCart
  length : raw.length = 36
  listed : ∀ k < 36, s.cartAt s.session.ctrl (.ofNat 24 (0xFFC0 + k)) = raw[k]?

/-- The block read is the block listed (43_header_parser.md R146). -/
theorem HeaderAhead.read {raw : List Byte} {s : State} (h : HeaderAhead raw s) (l : Layout) :
    ∃ u, BlockRead l raw s u := by
  obtain ⟨bs, u, hu, hlen⟩ := readAscending_sound (s := s.setLayout l) l headerLength (headerBase l) h.sound
  have hc : Coherent (s.setLayout l) := ⟨h.coherent.upper, h.coherent.lower, h.coherent.bank⟩
  have hbound : headerBase l + bs.length ≤ 256 * pageSize l := by
    rw [hlen]
    cases l <;> decide
  have hraw : bs = raw :=
    (readAscending_readRun hu).1.eq_image hc h.steady hbound (h.length.trans hlen.symm) fun k hk => by
      rw [hlen] at hk
      rw [busOfOffset_header l hk]
      exact h.listed k hk
  exact ⟨u, hraw ▸ hu, h.length⟩

/-- Reading a block leaves everything for a second one in place. -/
theorem HeaderAhead.after {raw bs : List Byte} {l : Layout} {s u : State} (h : HeaderAhead raw s)
    (hb : BlockRead l bs s u) : HeaderAhead raw u where
  coherent := hb.coherent h.coherent
  sound := hb.frame.soundPorts h.sound
  steady := hb.frame.steadyCart h.steady
  length := h.length
  listed k hk := by
    rw [State.cartAt, hb.frame.cart, hb.frame.ctrl]
    exact h.listed k hk

end Sys2Proof.Machine
end

section
/-! The family `43_header_parser.md`, the layout decision and the acceptance gate (R149, R151, R152), and how the parser
ends on a header that needs a second block or is not accepted. -/

namespace Sys2Proof.Machine

/-! ### The branches of the parser -/

theorem exec_parseHeader_open {s : State} (ho : s.isOpen) (hu : s.session.layoutLocked = false) :
    exec .parseHeader s = .next (orRaise (readBlock .lowROM (s.setLayout .lowROM)) decideLayout) := by
  simp only [exec, execParseHeader, whenOpen, if_pos ho, hu, Bool.false_eq_true, if_false]

theorem exec_parseHeader_firstBlock {s v : State} {first : List Byte} (ho : s.isOpen)
    (hu : s.session.layoutLocked = false) (h : BlockRead .lowROM first s v) :
    exec .parseHeader s = .next (decideLayout first v) := by
  rw [exec_parseHeader_open ho hu, h.done, orRaise_done]

theorem acceptHeader_valid {raw : List Byte} {h : HeaderInfo} (s : State) (hx : extractHeader raw = h)
    (hv : h.checksum ^^^ h.inverseChecksum = 0xFFFF) :
    acceptHeader raw s = complete (some (.header h)) (s.lockHeader h) := by
  subst hx
  exact if_pos (beq_iff_eq.mpr hv)

theorem acceptHeader_invalid {raw : List Byte} {h : HeaderInfo} (s : State) (hx : extractHeader raw = h)
    (hv : h.checksum ^^^ h.inverseChecksum ≠ 0xFFFF) :
    acceptHeader raw s = raise .headerChecksumMismatch s := by
  subst hx
  exact if_neg fun hb => hv (beq_iff_eq.mp hb)

theorem decideLayout_low {first : List Byte} (s : State) (hn : layoutNibble first = 0) :
    decideLayout first s = acceptHeader first s :=
  if_pos hn

theorem decideLayout_high {first : List Byte} (s : State) (hn : layoutNibble first = 1) :
    decideLayout first s = orRaise (readBlock .highROM (s.setLayout .highROM)) acceptHeader := by
  rw [decideLayout, if_neg (by rw [hn]; decide), if_pos hn]

theorem decideLayout_unknown {first : List Byte} (s : State) (h0 : layoutNibble first ≠ 0)
    (h1 : layoutNibble first ≠ 1) : decideLayout first s = raise .unknownLayoutField s := by
  rw [decideLayout, if_neg h0, if_neg h1]

theorem decideLayout_secondBlock {first raw : List Byte} {v u : State} (hn : layoutNibble first = 1)
    (h : BlockRead .highROM raw v u) : decideLayout first v = acceptHeader raw u := by
  rw [decideLayout_high v hn, h.done, orRaise_done]

/-- The layout nibble is a field of the header (43_header_parser.md R147, R148). -/
theorem layoutNibble_of_header {raw : List Byte} {h : HeaderInfo} (hx : extractHeader raw = h) :
    layoutNibble raw = h.layoutIndicator :=
  congrArg HeaderInfo.layoutIndicator hx

/-! ### A fatal error after blocks -/

theorem BusFrame.setLayout {s t : State} (h : BusFrame s t) (l : Layout) :
    BusFrame (s.setLayout l) (t.setLayout l) :=
  { h with layout := rfl }

/-- The frame of both blocks: the layout set last is the one that stays. -/
theorem BlockRead.frame_trans {l l' : Layout} {first raw : List Byte} {s v u : State} (h : BlockRead l first s v)
    (h' : BlockRead l' raw v u) : BusFrame (s.setLayout l') u :=
  (h.frame.setLayout l').trans h'.frame

/-- A fatal error does not see which layout was set (43_header_parser.md R155). -/
theorem FatalEnd.of_setLayout {kind : FatalKind} {l : Layout} {s t : State} {made : List Event}
    (h : FatalEnd kind (s.setLayout l) t made) : FatalEnd kind s t made :=
  ⟨⟨h.quiesced, h.txn, h.trace, h.ports, h.config, h.cart, h.answers, h.failing⟩, h.lastError, h.host⟩

/-- A fatal error after nothing but reads and the writes that position them. -/
theorem raise_after_reads {kind : FatalKind} {l : Layout} {n : Nat} {s u : State} (hf : BusFrame (s.setLayout l) u)
    (hr : ReadsMade n s u) : ∃ made, FatalEnd kind s (raise kind u) made ∧ readCount made = n := by
  obtain ⟨es, htrace, hcount⟩ := hr
  refine ⟨es.reverse, (hf.fatalEnd kind ?_).of_setLayout, (List.countP_reverse ..).trans hcount⟩
  rw [List.reverse_reverse]
  exact htrace

/-! ### The statements -/

theorem SessionInv.headerAhead {s : State} {raw : List Byte} (h : SessionInv s) (hs : s.soundPorts)
    (hsteady : s.steadyCart) (hlen : raw.length = 36)
    (hcart : ∀ k < 36, s.cartAt s.session.ctrl (.ofNat 24 (0xFFC0 + k)) = raw[k]?) : HeaderAhead raw s :=
  ⟨h.busInv.toCoherent, hs, hsteady, hlen, hcart⟩

/-- Settles O43: both blocks are the listed one, so the second is accepted, and each is 36 reads. -/
theorem parseHeaderAcceptsAHighRomHeader : Obligations.ParseHeaderAcceptsAHighRomHeader := by
  intro s raw h hinv ho hunlocked hs hsteady hlen hheader hcart hnibble hpair
  have hahead := hinv.headerAhead hs hsteady hlen hcart
  obtain ⟨v, hv⟩ := hahead.read .lowROM
  obtain ⟨u, hu⟩ := (hahead.after hv).read .highROM
  have hx : extractHeader raw = h := extractHeader_eq hlen hheader
  have hn : layoutNibble raw = 1 := (layoutNibble_of_header hx).trans hnibble
  have hf := hv.frame_trans hu
  refine ⟨complete (some (.header h)) (u.lockHeader h), ?_, ?_, ?_, hf.phase, hf.pull,
    hv.readsMade.trans hu.readsMade⟩
  · rw [exec_parseHeader_firstBlock ho hunlocked hv, decideLayout_secondBlock hn hu, acceptHeader_valid u hx hpair]
  · rw [complete_session, lockHeader_session, hu.session, hv.session]
    rfl
  · rw [complete_host, lockHeader_host, hf.host, setLayout_host]

/-- Settles O44: the nibble decides which block is the final one, if any; the error comes right after its reads. -/
theorem parseHeaderRejectsBadHeaders : Obligations.ParseHeaderRejectsBadHeaders := by
  intro s raw h hinv ho hunlocked hs hsteady hlen hheader hcart
  have hahead := hinv.headerAhead hs hsteady hlen hcart
  obtain ⟨v, hv⟩ := hahead.read .lowROM
  have hx : extractHeader raw = h := extractHeader_eq hlen hheader
  have hn : layoutNibble raw = h.layoutIndicator := layoutNibble_of_header hx
  have hexec := exec_parseHeader_firstBlock ho hunlocked hv
  refine ⟨fun hge => ?_, fun hlt hpair => ?_⟩
  · have h0 : layoutNibble raw ≠ 0 := fun h0 => by simp [← hn, h0] at hge
    have h1 : layoutNibble raw ≠ 1 := fun h1 => by simp [← hn, h1] at hge
    rw [decideLayout_unknown v h0 h1] at hexec
    obtain ⟨made, hend, hcount⟩ := raise_after_reads (kind := .unknownLayoutField) hv.frame hv.readsMade
    exact ⟨_, made, hexec, hend, hcount⟩
  · by_cases h0 : h.layoutIndicator = 0
    · rw [decideLayout_low v (hn.trans h0), acceptHeader_invalid v hx hpair] at hexec
      obtain ⟨made, hend, hcount⟩ := raise_after_reads (kind := .headerChecksumMismatch) hv.frame hv.readsMade
      exact ⟨_, made, hexec, hend, by rw [hcount, if_pos h0]⟩
    · have h1 : h.layoutIndicator = 1 := by
        apply BitVec.eq_of_toNat_eq
        have hne : h.layoutIndicator.toNat ≠ 0 := fun hz => h0 (BitVec.eq_of_toNat_eq hz)
        show h.layoutIndicator.toNat = 1
        omega
      obtain ⟨u, hu⟩ := (hahead.after hv).read .highROM
      rw [decideLayout_secondBlock (hn.trans h1) hu, acceptHeader_invalid u hx hpair] at hexec
      obtain ⟨made, hend, hcount⟩ :=
        raise_after_reads (kind := .headerChecksumMismatch) (hv.frame_trans hu) (hv.readsMade.trans hu.readsMade)
      exact ⟨_, made, hexec, hend, by rw [hcount, if_neg h0]⟩

end Sys2Proof.Machine
end

section
/-! The family `43_header_parser.md`, the port traffic of a block (R146, R154) and the whole next state of a LowROM header
(R148 to R151). -/

namespace Sys2Proof.Machine

/-! ### The events of one positioned read (10_state.md R24, 42_cartridge_map.md R137) -/

theorem missWrites_events (p : PortId) (c : Option Byte) (v : Byte) :
    (missWrites p c v).map (writeEvent true) = debouncedEvents p c v := by
  unfold missWrites debouncedEvents
  split <;> rfl

theorem readAtOffset_events {l : Layout} {o : Nat} {s t : State} {v : Byte} (h : readAtOffset l o s = .done v t)
    (hc : Coherent s) (hs : s.soundPorts) (ho : o < 256 * pageSize l) :
    t.env.trace =
      ((offsetWrites l o s.session).map (writeEvent true) ++
        [Event.read s.session.ctrl (busOfOffset l o) (some v)]).reverse ++ s.env.trace := by
  obtain ⟨_, hports, w, hw, _, hpw, _, htrace⟩ := readAtOffset_done h
  obtain ⟨_, hbank, hupper, hlower⟩ := hports hc
  rw [hpw] at hbank hupper hlower
  have hf := gotoOffsetStep_frame l o s
  rw [hw, final_done] at hf
  obtain ⟨w', hw', hwrites⟩ := (gotoOffsetStep_makesWrites l o s).done fun k _ hk =>
    absurd (hs _ hk) (Nat.not_lt.mpr (Nat.le_add_right _ k))
  cases hw.symm.trans hw'
  rw [htrace, hwrites, hf.ctrl, busAddress_of_offset ho hbank hupper hlower, List.reverse_append]
  rfl

/-- One write brings the bus to the next offset of a row. -/
theorem offsetWrites_succ {l : Layout} {o : Nat} {r : Session} (h : CachesAt l o r)
    (hrow : busRow l (o + 1) = busRow l o) :
    offsetWrites l (o + 1) r = [(.aLo, lowerByte (mapBankAddress l (o + 1)).2)] := by
  have hb : (mapBankAddress l (o + 1)).1 = (busRow l o).1 := (Prod.ext_iff.mp hrow).1
  have hu : upperByte l (mapBankAddress l (o + 1)).2 = (busRow l o).2 := (Prod.ext_iff.mp hrow).2
  simp [offsetWrites, addressWrites, missWrites, hb, hu, h.bank, h.upper, h.lower, lowerByte_offset_succ_ne l o]

/-! ### The events of a block (43_header_parser.md R154) -/

/-- The events of byte `k` of a row from its offset `o` on, `A_LO` standing elsewhere. -/
def rowEvents (l : Layout) (o : Nat) (ctrl : Option Levels) (bs : List Byte) (k : Nat) : List Event :=
  [.write .aLo (lowerByte (mapBankAddress l (o + k)).2) true, .read ctrl (busOfOffset l (o + k)) bs[k]?]

theorem rowEvents_cons_succ (l : Layout) (o : Nat) (ctrl : Option Levels) (v : Byte) (bs : List Byte) (k : Nat) :
    rowEvents l o ctrl (v :: bs) (k + 1) = rowEvents l (o + 1) ctrl bs k := by
  rw [rowEvents, rowEvents, List.getElem?_cons_succ, Nat.add_assoc, Nat.add_comm 1 k]

/-- From an offset of a row on, each byte takes one write of `A_LO` and one read. -/
theorem readAscending_rowEvents {l : Layout} {count o : Nat} {s t : State} {bs : List Byte}
    (h : readAscending l count (o + 1) s = .done bs t) (hat : CachesAt l o s.session) (hc : Coherent s)
    (hs : s.soundPorts) (hrow : ∀ k < count, busRow l (o + 1 + k) = busRow l o) (ho : o + count < 256 * pageSize l) :
    t.env.trace =
      ((List.range count).flatMap (rowEvents l (o + 1) s.session.ctrl bs)).reverse ++ s.env.trace := by
  induction count generalizing o s bs with
  | zero =>
    cases h
    rfl
  | succ n ih =>
    obtain ⟨v, w, hw, hrest⟩ := bind_eq_done h
    obtain ⟨vs, x, hx, hy⟩ := bind_eq_done hrest
    cases hy
    have hf := readAtOffset_frame l (o + 1) s
    rw [hw, final_done] at hf
    have hnext : busRow l (o + 1) = busRow l o := hrow 0 n.succ_pos
    have hfirst : w.env.trace = (rowEvents l (o + 1) s.session.ctrl (v :: vs) 0).reverse ++ s.env.trace := by
      rw [readAtOffset_events hw hc hs (by omega), offsetWrites_succ hat hnext]
      rfl
    have hrest := ih hx (readAtOffset_cachesAt hw) (readAtOffset_busAt hw hc).toCoherent (hf.soundPorts hs)
      (fun k hk => by rw [hnext, Nat.add_assoc, Nat.add_comm 1 k]; exact hrow (k + 1) (Nat.succ_lt_succ hk)) (by omega)
    rw [hrest, hfirst, hf.ctrl, List.range_succ_eq_map, List.flatMap_cons, List.flatMap_map, List.reverse_append,
      List.append_assoc]
    simp only [rowEvents_cons_succ]

theorem headerLowerByte (l : Layout) (k : Nat) :
    lowerByte (mapBankAddress l (headerBase l + k)).2 = .ofNat 8 (0xC0 + k) := by
  apply BitVec.eq_of_toNat_eq
  simp only [lowerByte_toNat, mapBankAddress, resolveNat, BitVec.toNat_ofNat]
  cases l <;> simp only [pageSize, headerBase] <;> omega

/-- The writes that bring the bus to the start of a block: bank 0, and the halves 0xFF and 0xC0 in either layout. -/
theorem offsetWrites_header (l : Layout) (r : Session) :
    offsetWrites l (headerBase l) r =
      missWrites .bank r.cachedBank 0 ++
        (missWrites .aHi r.cachedUpperByte 0xFF ++ missWrites .aLo r.cachedLowerByte 0xC0) := by
  cases l <;> rfl

/-- The events of a block: the writes the caches leave, the first read, then a write of `A_LO` and a read for each
byte. -/
def blockEvents (r : Session) (raw : List Byte) : List Event :=
  debouncedEvents .bank r.cachedBank 0 ++ debouncedEvents .aHi r.cachedUpperByte 0xFF ++
    (debouncedEvents .aLo r.cachedLowerByte 0xC0 ++ [.read r.ctrl (.ofNat 24 0xFFC0) raw[0]?] ++
      (List.range 35).flatMap fun k =>
        [.write .aLo (.ofNat 8 (0xC0 + (k + 1))) true, .read r.ctrl (.ofNat 24 (0xFFC0 + (k + 1))) raw[k + 1]?])

theorem BlockRead.trace {l : Layout} {raw : List Byte} {s u : State} (h : BlockRead l raw s u) (hc : Coherent s)
    (hs : s.soundPorts) : u.env.trace = (blockEvents s.session raw).reverse ++ s.env.trace := by
  obtain ⟨v, w, hw, hrest⟩ := bind_eq_done h.done
  obtain ⟨vs, x, hx, hy⟩ := bind_eq_done hrest
  cases hy
  have hc : Coherent (s.setLayout l) := ⟨hc.upper, hc.lower, hc.bank⟩
  have hf := readAtOffset_frame l (headerBase l) (s.setLayout l)
  rw [hw, final_done] at hf
  have hbound : headerBase l + 35 < 256 * pageSize l := by cases l <;> decide
  have hfirst := readAtOffset_events hw hc hs (by omega)
  have hothers := readAscending_rowEvents hx (readAtOffset_cachesAt hw) (readAtOffset_busAt hw hc).toCoherent
    (hf.soundPorts hs)
    (fun k hk => by
      rw [Nat.add_assoc, Nat.add_comm 1 k]
      exact busRow_header l (k + 1) (Nat.succ_lt_succ hk)) hbound
  have hevents : ∀ k ∈ List.range 35, rowEvents l (headerBase l + 1) w.session.ctrl vs k =
      [.write .aLo (.ofNat 8 (0xC0 + (k + 1))) true,
        .read s.session.ctrl (.ofNat 24 (0xFFC0 + (k + 1))) (v :: vs)[k + 1]?] := fun k hk => by
    have hlt : k + 1 < 36 := Nat.succ_lt_succ (List.mem_range.mp hk)
    rw [← rowEvents_cons_succ _ _ _ v, rowEvents, headerLowerByte, busOfOffset_header l hlt, hf.ctrl]
    rfl
  rw [List.flatMap_congr hevents] at hothers
  rw [hothers, hfirst, offsetWrites_header, ← Nat.add_zero (headerBase l), busOfOffset_header l (by decide)]
  simp only [List.map_append, missWrites_events, blockEvents, List.reverse_append, List.append_assoc]
  rfl

/-! ### The machine a block leaves -/

/-- The frame of positioning is the whole state, but for the session, the three latches and the record. -/
theorem BusFrame.state_eq {s u : State} {made : List Event} (h : BusFrame s u)
    (ht : u.env.trace = made.reverse ++ s.env.trace) :
    u =
      { s with
        session := u.session
        ports :=
          { s.ports with
            bank := { s.ports.bank with out := u.ports.bank.out }
            aHi := { s.ports.aHi with out := u.ports.aHi.out }
            aLo := { s.ports.aLo with out := u.ports.aLo.out } }
        env := { s.env with txn := s.env.txn + made.length, trace := made.reverse ++ s.env.trace } } := by
  obtain ⟨haHi, haLo, hbank⟩ := h.dirs
  obtain ⟨iaHi, iaLo, ibank⟩ := h.intens
  have hn := (h.events ht).1
  rw [List.length_reverse] at hn
  show State.mk u.config u.session u.phase u.ports u.env u.host = _
  rw [State.mk.injEq]
  refine ⟨h.config, rfl, h.phase, ?_, ?_, h.host⟩
  · show Ports.mk u.ports.aHi u.ports.aLo u.ports.bank u.ports.data u.ports.pull = _
    dsimp only
    rw [← haHi, ← haLo, ← hbank, ← iaHi, ← iaLo, ← ibank, ← h.data, ← h.pull]
  · show Env.mk u.env.cart u.env.answers u.env.failing u.env.txn u.env.trace = _
    rw [h.cart, h.answers, h.failing, hn, ht]

/-- The latches after a block are those of its last byte. -/
theorem BlockRead.latches {l : Layout} {raw : List Byte} {s u : State} (h : BlockRead l raw s u) (hc : Coherent s) :
    u.ports.bank.out = 0 ∧ u.ports.aHi.out = 0xFF ∧ u.ports.aLo.out = 0xE3 := by
  obtain ⟨hupper, hlower, hbank⟩ := h.coherent hc
  rw [h.session] at hupper hlower hbank
  exact ⟨hbank _ rfl, hupper _ rfl, hlower _ rfl⟩

/-- With no layout there is no upper half cached (10_state.md R24 item 3). -/
theorem SessionInv.cachedUpperByte_unlocked {s : State} (h : SessionInv s) (hu : s.session.layoutLocked = false) :
    s.session.cachedUpperByte = none := by
  have hnone : s.session.layout = none := by
    rw [← Option.not_isSome_iff_eq_none, ← h.lockedLayout, hu]
    exact Bool.false_ne_true
  rw [Option.eq_none_iff_forall_ne_some]
  intro v hv
  obtain ⟨l, hl, _⟩ := h.splitUpper v hv
  rw [hnone] at hl
  cases hl

/-- Settles O42: the block is accepted as it stands, and the state it leaves is known field by field. -/
theorem parseHeaderAcceptsALowRomHeader : Obligations.ParseHeaderAcceptsALowRomHeader := by
  intro s raw h hinv ho hunlocked hs hsteady hlen hheader hcart hnibble hpair events
  have hahead := hinv.headerAhead hs hsteady hlen hcart
  obtain ⟨u, hu⟩ := hahead.read .lowROM
  have hx : extractHeader raw = h := extractHeader_eq hlen hheader
  have hn : layoutNibble raw = 0 := (layoutNibble_of_header hx).trans hnibble
  have hevents : blockEvents s.session raw = events := by
    simp only [events, blockEvents, List.range_succ_eq_map (n := 35), List.flatMap_cons, List.flatMap_map,
      debouncedEvents, hinv.cachedUpperByte_unlocked hunlocked, reduceCtorEq, Nat.succ_ne_zero, false_and, true_and,
      if_false]
    rfl
  have htrace := hu.trace hahead.coherent hs
  rw [hevents] at htrace
  obtain ⟨hbank, hupper, hlower⟩ := hu.latches hahead.coherent
  rw [exec_parseHeader_firstBlock ho hunlocked hu, decideLayout_low u hn, acceptHeader_valid u hx hpair,
    hu.frame.state_eq htrace, hbank, hupper, hlower, hu.session]
  rfl

end Sys2Proof.Machine
end

section
/-! The family `43_header_parser.md`, port failures (R150, 60_exceptions.md R234, R236): a command whose work is a sequence of
port transactions ends in the fatal error at the first one that fails. -/

namespace Sys2Proof.Machine

/-! ### Commands that stop at their first failure -/

/-- The transactions of the quiesce sequence among those a command made that came to `ref`. -/
def quiescing (ref : State) : Nat :=
  if ref.isOpen then 0 else 12

theorem quiescing_open {ref : State} (h : ref.isOpen) : quiescing ref = 0 := if_pos h

theorem quiescing_raise (kind : FatalKind) (s : State) : quiescing (raise kind s) = 12 := by
  obtain ⟨_, hsession, _⟩ := raise_frame kind s
  refine if_neg ?_
  rw [State.isOpen, hsession]
  exact nofun

/-- The rest `k` of a command, run from `s`, ends in the fatal error at the first of its own transactions that fails,
compared with where it comes to with no failure. -/
structure StopsAtFailure (k : State → State) (s : State) : Prop where
  count : s.env.txn + quiescing (k s.withoutFailures) ≤ (k s.withoutFailures).env.txn
  record : ∃ later, (k s.withoutFailures).env.trace = later ++ s.env.trace
  fails : ∀ n, s.firstFailure n → s.env.txn + n + quiescing (k s.withoutFailures) < (k s.withoutFailures).env.txn →
    FailsAt n [] [] s (k s.withoutFailures) (k s)

/-- The first failure is one transaction. -/
theorem firstFailure_unique {s : State} {n m : Nat} (hn : s.firstFailure n) (hm : s.firstFailure m) : n = m := by
  obtain ⟨hfn, hbn⟩ := hn
  obtain ⟨hfm, hbm⟩ := hm
  rcases Nat.lt_trichotomy n m with h | h | h
  · exact absurd hfn (hbm n h)
  · exact h
  · exact absurd hfm (hbn m h)

/-- A failure after a part that met none is the first failure of the rest. -/
theorem Unfailed.firstFailure {s t : State} {n : Nat} (h : Unfailed s t) (hn : s.firstFailure n) :
    ∃ m, s.env.txn + n = t.env.txn + m ∧ t.firstFailure m := by
  obtain ⟨hfailing, htxn, hnone⟩ := h
  obtain ⟨hf, hb⟩ := hn
  obtain ⟨m, hm⟩ := Nat.exists_eq_add_of_le ((hnone _ hf).resolve_left (Nat.not_lt.mpr (Nat.le_add_right _ n)))
  refine ⟨m, hm, by rwa [hfailing, ← hm], fun j hj => ?_⟩
  have hsum : t.env.txn + j = s.env.txn + (t.env.txn + j - s.env.txn) := by omega
  rw [hfailing, hsum]
  exact hb _ (by omega)

/-- The events made on the way to `u` are the transactions counted, none of them a line change. -/
theorem BusFrame.transactionCount_eq {s u : State} {made : List Event} (hf : BusFrame s u)
    (hu : u.env.trace = made.reverse ++ s.env.trace) :
    u.env.txn = s.env.txn + transactionCount made ∧ transactionCount made = made.length := by
  obtain ⟨hn, hl⟩ := hf.events hu
  have hcount : transactionCount made = made.length :=
    transactionCount_eq_length fun p w hm => hl p w (List.mem_reverse.mpr hm)
  rw [hcount, hn, List.length_reverse]
  exact ⟨rfl, rfl⟩

/-- A fatal error of the rest of a command is one of the command, after the events that led there. -/
theorem BusFrame.fatalEnd_trans {kind : FatalKind} {s u t : State} {first made : List Event} (hf : BusFrame s u)
    (hu : u.env.trace = first.reverse ++ s.env.trace) (h : FatalEnd kind u t made) :
    FatalEnd kind s t (first ++ made) := by
  have hcount : s.env.txn + transactionCount (first ++ made) = u.env.txn + transactionCount made := by
    rw [transactionCount_append, (hf.transactionCount_eq hu).1, Nat.add_assoc]
  refine ⟨⟨h.quiesced, by rw [hcount, h.txn], ?_, by rw [hcount, ← hf.failing]; exact h.ports,
    h.config.trans hf.config, h.cart.trans hf.cart, h.answers.trans hf.answers, h.failing.trans hf.failing⟩,
    h.lastError, by rw [h.host, hf.host]⟩
  rw [hcount, h.trace, hf.config, hf.failing, hu, List.reverse_append, List.append_assoc]

theorem BusFrame.failsAt_trans {n : Nat} {s u ref t : State} {first : List Event} (hf : BusFrame s u)
    (hu : u.env.trace = first.reverse ++ s.env.trace) (h : FailsAt n [] [] u ref t) :
    FailsAt (transactionCount first + n) [] [] s ref t := by
  obtain ⟨done, e, later, hend, he, rfl, href⟩ := h
  refine ⟨first ++ done, e, later, ?_, he, transactionCount_append first done, ?_⟩
  · simpa only [List.nil_append, List.append_assoc] using hf.fatalEnd_trans hu hend
  · rw [href, hu]
    simp only [List.reverse_append, List.reverse_nil, List.nil_append, List.append_assoc]

/-- A failed transaction after events that are also those of the run with no failure. -/
theorem BusFrame.failsAt {s u ref : State} {e : Event} {es later : List Event} (hf : BusFrame s u)
    (hu : u.env.trace = e :: (es ++ s.env.trace)) (he : e.succeeded = false)
    (href : ref.env.trace = later ++ (es ++ s.env.trace)) :
    FailsAt es.length [] [] s ref (raise .portTransactionFailure u) := by
  have hmade : u.env.trace = (es.reverse ++ [e]).reverse ++ s.env.trace := by
    rw [hu, List.reverse_append, List.reverse_reverse]
    rfl
  refine ⟨es.reverse, e, later, hf.fatalEnd _ hmade, he, ?_, by rw [List.reverse_reverse]; exact href⟩
  obtain ⟨_, hl⟩ := hf.events (es := e :: es) hu
  rw [transactionCount_eq_length fun p w hm => hl p w (List.mem_cons_of_mem _ (List.mem_reverse.mp hm)),
    List.length_reverse]

theorem StopsAtFailure.congr {k k' : State → State} {s : State} (h : ∀ t, k t = k' t) (hk : StopsAtFailure k' s) :
    StopsAtFailure k s :=
  funext h ▸ hk

/-- A rest that makes no transaction of its own has none to fail. -/
theorem stopsAtFailure_of_end {k : State → State} {s : State}
    (hn : (k s.withoutFailures).env.txn = s.env.txn + quiescing (k s.withoutFailures))
    (ht : ∃ later, (k s.withoutFailures).env.trace = later ++ s.env.trace) : StopsAtFailure k s where
  count := hn.ge
  record := ht
  fails n _ hlt := by omega

/-- A sequence that stops at a failure, then a rest that does. -/
theorem Precise.stopsAtFailure {α : Type} {f : State → Txn α} {k : α → State → State} {s : State} (hf : Precise f)
    (ho : s.isOpen) (hk : ∀ a t, t.isOpen → StopsAtFailure (k a) t) :
    StopsAtFailure (fun s => orRaise (f s) k) s := by
  obtain ⟨hfr, hfr0, a, t0, h0, hcase⟩ := hf s
  have href : orRaise (f s.withoutFailures) k = k a t0 := by rw [h0, orRaise_done]
  rw [h0, final_done] at hfr0
  have hrest := hk a t0 (hfr0.status.trans ho)
  have hsame : t0.withoutFailures = t0 := withoutFailures_eq hfr0.failing
  obtain ⟨later, hlater⟩ := hrest.record
  rw [hsame] at hlater
  constructor
  · have hcount := hrest.count
    rw [hsame] at hcount
    rw [href]
    exact (Nat.add_le_add_right hfr0.txn _).trans hcount
  · obtain ⟨es, hes, _⟩ := hfr0.trace
    exact ⟨later ++ es, by rw [href, hlater, hes, List.append_assoc]; rfl⟩
  · intro n hn hlt
    simp only [href] at hlt ⊢
    rcases hcase with ⟨t, ht, rfl, hok⟩ | ⟨t, e, es, more, ht, htrace, he, _, _, hmore, hff, _⟩
    · rw [ht, final_done] at hfr
      rw [ht, orRaise_done]
      obtain ⟨m, hm, hfm⟩ := hok.firstFailure hn
      obtain ⟨ds, hds, _⟩ := hfr.trace
      rw [← List.reverse_reverse ds] at hds
      have hcount := (hfr.transactionCount_eq hds).1
      obtain rfl : n = transactionCount ds.reverse + m := by omega
      exact hfr.failsAt_trans hds ((hk a t (hfr.status.trans ho)).fails m hfm (by rwa [← hm]))
    · rw [ht, final_failed] at hfr
      rw [ht, orRaise_failed, firstFailure_unique hn hff]
      exact hfr.failsAt (later := later ++ more) htrace he (by rw [hlater, hmore, List.append_assoc])

/-- Setting the layout first is no transaction (43_header_parser.md R155). -/
theorem StopsAtFailure.setLayout {k : State → State} {l : Layout} {s : State} (h : StopsAtFailure k (s.setLayout l)) :
    StopsAtFailure (fun s => k (s.setLayout l)) s where
  count := h.count
  record := h.record
  fails n hn hlt := by
    obtain ⟨done, e, later, hend, hrest⟩ := h.fails n hn hlt
    exact ⟨done, e, later, hend.of_setLayout, hrest⟩

/-- A command that completes has met no failure. -/
theorem complete_stopsAtFailure (r : Option Result) {f : State → State} {s : State}
    (ho : (f s.withoutFailures).isOpen) (he : (f s.withoutFailures).env = s.withoutFailures.env) :
    StopsAtFailure (fun t => complete r (f t)) s := by
  have hopen : (complete r (f s.withoutFailures)).isOpen := ho
  refine stopsAtFailure_of_end ?_ ⟨[], by rw [complete_env, he]; rfl⟩
  rw [quiescing_open hopen, complete_env, he]
  rfl

theorem raise_stopsAtFailure (kind : FatalKind) (s : State) : StopsAtFailure (raise kind) s := by
  obtain ⟨_, _, _, _, _, _, _, htxn, htrace, _⟩ := raise_frame kind s.withoutFailures
  refine stopsAtFailure_of_end ?_ ⟨_ ++ [_], by rw [htrace, List.append_cons]; rfl⟩
  rw [htxn, quiescing_raise]
  rfl

/-! ### The header parser -/

theorem precise_readBlock (l : Layout) : Precise (readBlock l) :=
  precise_readAscending l headerLength (headerBase l)

theorem acceptHeader_stopsAtFailure (raw : List Byte) {s : State} (ho : s.isOpen) :
    StopsAtFailure (acceptHeader raw) s := by
  by_cases hv : (extractHeader raw).checksum ^^^ (extractHeader raw).inverseChecksum = 0xFFFF
  · have hcomplete := complete_stopsAtFailure (some (.header (extractHeader raw)))
      (f := fun t => t.lockHeader (extractHeader raw)) (s := s) ho rfl
    exact .congr (fun t => acceptHeader_valid t rfl hv) hcomplete
  · exact .congr (fun t => acceptHeader_invalid t rfl hv) (raise_stopsAtFailure _ s)

theorem decideLayout_stopsAtFailure (first : List Byte) {s : State} (ho : s.isOpen) :
    StopsAtFailure (decideLayout first) s := by
  by_cases h0 : layoutNibble first = 0
  · exact .congr (fun t => decideLayout_low t h0) (acceptHeader_stopsAtFailure first ho)
  · by_cases h1 : layoutNibble first = 1
    · have hsecond := (precise_readBlock .highROM).stopsAtFailure (s := s.setLayout .highROM) ho fun raw _ hu =>
        acceptHeader_stopsAtFailure raw hu
      exact .congr (fun t => decideLayout_high t h1) hsecond.setLayout
    · exact .congr (fun t => decideLayout_unknown t h0 h1) (raise_stopsAtFailure _ s)

/-- A done run of reads made a transaction for each byte. -/
theorem ReadRun.length_le {l : Layout} {o : Nat} {s t : State} {bs : List Byte} (h : ReadRun l t o s bs) :
    s.env.txn + bs.length ≤ t.env.txn := by
  obtain ⟨es, hes, hreads⟩ := h.readsMade
  rw [(h.frame.events hes).1, ← hreads]
  exact Nat.add_le_add_left List.countP_le_length _

/-- Settles O46: the parser is one block, then the layout decision with perhaps another, and each part stops at its first
failure. -/
theorem parseHeaderPortFailureIsFatal : Obligations.ParseHeaderPortFailureIsFatal := by
  intro s ho hunlocked
  have hstops : StopsAtFailure (fun s => orRaise (readBlock .lowROM (s.setLayout .lowROM)) decideLayout) s :=
    ((precise_readBlock .lowROM).stopsAtFailure (s := s.setLayout .lowROM) ho fun first _ hv =>
      decideLayout_stopsAtFailure first hv).setLayout
  refine ⟨_, _, exec_parseHeader_open ho hunlocked, rfl, ?_, fun n hn hlt =>
    ⟨_, exec_parseHeader_open ho hunlocked, hstops.fails n hn hlt⟩⟩
  obtain ⟨first, v, hv, hlen⟩ := readAscending_sound (s := s.withoutFailures.setLayout .lowROM) .lowROM headerLength
    (headerBase .lowROM) nofun
  have hread : readBlock .lowROM (s.withoutFailures.setLayout .lowROM) = .done first v := hv
  have hrun := (readAscending_readRun hv).1
  have hfirst : s.env.txn + 36 ≤ v.env.txn := by
    have hle := hrun.length_le
    rwa [hlen] at hle
  have hcount := (decideLayout_stopsAtFailure first (hrun.frame.status.trans ho)).count
  rw [withoutFailures_eq hrun.frame.failing] at hcount
  rw [hread, orRaise_done]
  exact (Nat.add_le_add_right hfirst _).trans hcount

end Sys2Proof.Machine
end

section
/-! The family `44_checksum_and_size.md`, the checksum pair and the size arithmetic (R170, R176, R177, R179). -/

namespace Sys2Proof.Machine

/-! ### `VALIDATE` (44_checksum_and_size.md R170) -/

theorem exec_validate (c i : Checksum) (s : State) :
    exec (.validate c i) s = .next (complete (some (.valid (checksumPairValid c i))) s) :=
  rfl

theorem checksumPairValid_iff (c i : Checksum) : checksumPairValid c i = true ↔ c ^^^ i = 0xFFFF#16 :=
  beq_iff_eq

/-- The xor is all ones exactly for the complement: xor with `c` is injective. -/
theorem xor_eq_ones_iff_complement (c i : Checksum) : c ^^^ i = 0xFFFF#16 ↔ i = ~~~c := by
  have hcompl : c ^^^ ~~~c = 0xFFFF#16 := by
    rw [← BitVec.xor_allOnes, ← BitVec.xor_assoc, BitVec.xor_self, BitVec.zero_xor]
    rfl
  rw [← hcompl, BitVec.xor_right_inj]

/-- The complement of `c` is `0xFFFF - c` as a number. -/
theorem eq_complement_iff_add (c i : Checksum) : i = ~~~c ↔ c.toNat + i.toNat = 0xFFFF := by
  rw [← BitVec.toNat_inj, BitVec.toNat_not]
  have hc := c.isLt
  omega

/-- Settles O47: the three forms are one condition on the pair. -/
theorem validateComparesTheXor : Obligations.ValidateComparesTheXor := by
  intro c i s
  have hxor := checksumPairValid_iff c i
  have hcompl := hxor.trans (xor_eq_ones_iff_complement c i)
  exact ⟨_, exec_validate c i s, hxor, hcompl, hcompl.trans (eq_complement_iff_add c i)⟩

/-! ### Sizes (44_checksum_and_size.md R175 to R177) -/

theorem pagesOf_eq (l : Layout) (n : Nat) : pagesOf l n = n * if l = .lowROM then 4 else 2 := by
  cases l
  · exact Nat.mul_assoc n 2 2
  · rfl

/-- A megabit is 131072 bytes, in pages of either size. -/
theorem pagesOf_mul_pageSize (l : Layout) (n : Nat) : pagesOf l n * pageSize l = n * 131072 := by
  cases l <;> simp only [pagesOf, pageSize, Nat.mul_assoc]

theorem exec_pageCount (n : Nat) (l : Layout) (s : State) :
    exec (.pageCount n l) s = .next (complete (some (.pageCount (pagesOf l n))) s) :=
  rfl

/-- Settles O49: the page count and its size in bytes, by layout. -/
theorem pageCountHoldsTheMegabits : Obligations.PageCountHoldsTheMegabits := by
  intro n l s
  refine ⟨pagesOf l n, exec_pageCount n l s, ?_, ?_⟩
  · rw [pagesOf_eq, mul_ite]
  · rw [← pageSize_eq_ite l]
    exact pagesOf_mul_pageSize l n

/-! ### `ROM_PAGES` on a locked session (44_checksum_and_size.md R179) -/

theorem decodedRomSize_valid {c : Byte} (h : romCodeMin ≤ c.toNat) :
    decodedRomSize c = some (2 ^ (c.toNat - romCodeMin)) :=
  if_pos h

theorem decodedRomSize_invalid {c : Byte} (h : c.toNat < romCodeMin) : decodedRomSize c = none :=
  if_neg h.not_ge

section

variable {c : Byte} {s : State} {l : Layout}

theorem exec_romPages_valid (ho : s.isOpen) (hlocked : s.session.layoutLocked = true) (hl : s.session.layout = some l)
    (hc : romCodeMin ≤ c.toNat) :
    exec (.romPages c) s = .next (complete (some (.pageCount (pagesOf l (2 ^ (c.toNat - romCodeMin))))) s) := by
  simp only [exec, execRomPages, whenOpen, if_pos ho, withLockedLayout, if_pos hlocked, withLayout, hl,
    decodedRomSize_valid hc]

theorem exec_romPages_invalid (ho : s.isOpen) (hlocked : s.session.layoutLocked = true)
    (hl : s.session.layout = some l) (hc : c.toNat < romCodeMin) :
    exec (.romPages c) s = .next (raise .invalidRomSizeCode s) := by
  simp only [exec, execRomPages, whenOpen, if_pos ho, withLockedLayout, if_pos hlocked, withLayout, hl,
    decodedRomSize_invalid hc]

end

/-- Settles O50: from code 7 on the command completes; below it the fatal error is taken where the command began. -/
theorem romPagesCountsOrRaises : Obligations.RomPagesCountsOrRaises := by
  intro c s l ho hlocked hl
  constructor
  · intro hc
    rw [← pagesOf_eq l]
    exact exec_romPages_valid ho hlocked hl hc
  · intro hc
    exact ⟨_, exec_romPages_invalid ho hlocked hl hc, (BusFrame.refl s).fatalEnd .invalidRomSizeCode rfl⟩

end Sys2Proof.Machine
end

section
/-! The family `44_checksum_and_size.md`, the accumulators of a ROM dump: what each loop adds to `pageSum` and moves to
`runningChecksum` (R171, R172), and which bytes the folds of a pass cover (45_dump_engine.md R197, R198). -/

namespace Sys2Proof.Machine

/-! ### The sum of bytes in an accumulator (44_checksum_and_size.md R171) -/

/-- The sum of bytes, modulo 2^32. -/
def accumulated (bs : List Byte) : Sum :=
  .ofNat 32 (byteSum bs)

theorem accumulated_cons (v : Byte) (bs : List Byte) : accumulated (v :: bs) = v.setWidth 32 + accumulated bs := by
  simp only [accumulated, byteSum, List.map_cons, List.sum_cons, BitVec.ofNat_add, BitVec.ofNat_toNat]

theorem accumulated_append (bs cs : List Byte) : accumulated (bs ++ cs) = accumulated bs + accumulated cs := by
  simp only [accumulated, byteSum, List.map_append, List.sum_append, BitVec.ofNat_add]

theorem accumulated_nil : accumulated [] = 0 := rfl

theorem addByte_add_accumulated (acc : Sum) (v : Byte) (bs : List Byte) :
    addByte acc v + accumulated bs = acc + accumulated (v :: bs) := by
  rw [accumulated_cons, addByte, BitVec.add_assoc]

theorem add_accumulated_toNat (acc : Sum) (bs : List Byte) :
    (acc + accumulated bs).toNat = (acc.toNat + byteSum bs) % 2 ^ 32 := by
  rw [BitVec.toNat_add, accumulated, BitVec.toNat_ofNat, Nat.add_mod_mod]

/-- The final checksum of accumulated bytes is their sum modulo 65536 (44_checksum_and_size.md R173). -/
theorem maskedChecksum_accumulated (bs : List Byte) : (maskedChecksum (accumulated bs)).toNat = byteSum bs % 65536 := by
  rw [maskedChecksum_toNat, accumulated, BitVec.toNat_ofNat, Nat.mod_mod_of_dvd _ (by decide)]

/-! ### The loops (45_dump_engine.md R194, R195) -/

/-- The inner loop adds each byte to `pageSum` and leaves `runningChecksum` alone. -/
theorem pageLoop_sums {l : Layout} {cur turns o : Nat} {s t : State} {r : List Byte × Nat}
    (h : pageLoop l cur turns o s = .done r t) :
    t.session.runningChecksum = s.session.runningChecksum ∧
      t.session.pageSum = s.session.pageSum + accumulated r.1 := by
  induction turns generalizing o s r with
  | zero =>
    cases h
    exact ⟨rfl, (BitVec.add_zero _).symm⟩
  | succ turns ih =>
    obtain ⟨v, u, hu, hrest⟩ := bind_eq_done h
    obtain ⟨hrunning, hpage⟩ := readAtOffset_sums l o s
    rw [hu, final_done] at hrunning hpage
    have hadd (bs : List Byte) :
        (u.addToPage v).session.pageSum + accumulated bs = s.session.pageSum + accumulated (v :: bs) := by
      rw [← hpage]
      exact addByte_add_accumulated _ v bs
    simp only at hrest
    split at hrest
    next =>
      cases hrest
      exact ⟨hrunning, (BitVec.add_zero _).symm.trans (hadd [])⟩
    next =>
      obtain ⟨r', x, hx, hy⟩ := bind_eq_done hrest
      cases hy
      obtain ⟨hrunning', hpage'⟩ := ih hx
      exact ⟨hrunning'.trans hrunning, hpage'.trans (hadd r'.1)⟩

/-- Settles O51: the loop is a run of one page (`pageLoop_readRun`), each byte of it added to `pageSum`. -/
theorem innerLoopReadsExactlyOnePage : Obligations.InnerLoopReadsExactlyOnePage := by
  intro l cur turns s hs hturns
  have hpos := pageSize_pos l
  obtain ⟨⟨bs, next⟩, t, ht⟩ := pageLoop_sound l cur turns (cur * pageSize l) hs
  obtain ⟨_, hlen, rfl⟩ := pageLoop_readRun (m := pageSize l - 1) ht (Nat.le_refl _)
    (by rw [Nat.sub_add_cancel hpos, Nat.succ_mul]) (by omega)
  obtain ⟨hrunning, hpage⟩ := pageLoop_sums ht
  refine ⟨bs, t, ht, ?_, by rw [hpage, add_accumulated_toNat], hrunning⟩
  rw [hlen, Nat.sub_add_cancel hpos, pageSize_eq_ite]

/-! ### A pass page by page (45_dump_engine.md R195, R197) -/

/-- Bank `cur` is finished: the fold, if its condition holds (45_dump_engine.md R197). -/
def foldAfter (l : Layout) (cur : Nat) (s : State) : State :=
  if foldCondition s.config.foldBankRef l cur (cur + 1) then s.fold else s

theorem foldAfter_of_true {l : Layout} {cur : Nat} {s : State}
    (h : foldCondition s.config.foldBankRef l cur (cur + 1) = true) : foldAfter l cur s = s.fold :=
  if_pos h

theorem foldAfter_of_false {l : Layout} {cur : Nat} {s : State}
    (h : foldCondition s.config.foldBankRef l cur (cur + 1) = false) : foldAfter l cur s = s :=
  if_neg (h ▸ Bool.false_ne_true)

theorem foldAfter_config (l : Layout) (cur : Nat) (s : State) : (foldAfter l cur s).config = s.config :=
  (ifFold_sumsOnly _ s).frame.config

/-- A fold moves bytes from one accumulator to the other: their total stays (44_checksum_and_size.md R172). -/
theorem foldAfter_total (l : Layout) (cur : Nat) (s : State) :
    (foldAfter l cur s).session.runningChecksum + (foldAfter l cur s).session.pageSum =
      s.session.runningChecksum + s.session.pageSum := by
  unfold foldAfter
  split
  · exact BitVec.add_zero _
  · rfl

/-- The first page of a pass, then the others. -/
theorem passLoop_cons {l : Layout} {cur : Nat} {s u : State} {page : List Byte} (pages : Nat)
    (h : pageLoop l cur (pageSize l) (cur * pageSize l) s = .done (page, (cur + 1) * pageSize l) u) :
    passLoop l (pages + 1) cur (cur * pageSize l) s =
      (passLoop l pages (cur + 1) ((cur + 1) * pageSize l) (foldAfter l cur u)).bind fun rest t =>
        .done (page ++ rest) t := by
  rw [passLoop, h, txn_bind_done, resolveNat_bank]
  rfl

/-- A done pass, taken apart after its first page. -/
theorem passLoop_cons_done {l : Layout} {pages cur : Nat} {s t : State} {bs : List Byte}
    (h : passLoop l (pages + 1) cur (cur * pageSize l) s = .done bs t) :
    ∃ page rest u,
      pageLoop l cur (pageSize l) (cur * pageSize l) s = .done (page, (cur + 1) * pageSize l) u ∧
      passLoop l pages (cur + 1) ((cur + 1) * pageSize l) (foldAfter l cur u) = .done rest t ∧
      bs = page ++ rest := by
  obtain ⟨⟨page, next⟩, u, hu, _⟩ := bind_eq_done h
  obtain ⟨_, _, hnext⟩ := pageLoop_readRun_page hu
  obtain rfl : next = (cur + 1) * pageSize l := hnext
  rw [passLoop_cons pages hu] at h
  obtain ⟨rest, w, hw, hy⟩ := bind_eq_done h
  cases hy
  exact ⟨page, rest, u, hu, hw, rfl⟩

/-- A done pass, taken apart before its last page. -/
theorem passLoop_concat_done {l : Layout} {pages cur : Nat} {s t : State} {bs : List Byte}
    (h : passLoop l (pages + 1) cur (cur * pageSize l) s = .done bs t) :
    ∃ before page u v,
      passLoop l pages cur (cur * pageSize l) s = .done before u ∧
      pageLoop l (cur + pages) (pageSize l) ((cur + pages) * pageSize l) u =
        .done (page, (cur + pages + 1) * pageSize l) v ∧
      bs = before ++ page ∧ t = foldAfter l (cur + pages) v := by
  induction pages generalizing cur s bs with
  | zero =>
    obtain ⟨page, rest, v, hv, hrest, rfl⟩ := passLoop_cons_done h
    cases hrest
    exact ⟨[], page, s, v, rfl, hv, List.append_nil page, rfl⟩
  | succ pages ih =>
    obtain ⟨first, rest, v, hv, hrest, rfl⟩ := passLoop_cons_done h
    obtain ⟨before, page, u, x, hu, hx, rfl, rfl⟩ := ih hrest
    have hcur : cur + 1 + pages = cur + (pages + 1) := by omega
    rw [hcur] at hx ⊢
    exact ⟨first ++ before, page, u, x, by rw [passLoop_cons pages hv, hu, txn_bind_done], hx,
      (List.append_assoc ..).symm, rfl⟩

/-! ### What the folds of a pass cover (45_dump_engine.md R197, R198) -/

/-- Every byte of a pass is in one of the accumulators, in whichever. -/
theorem passLoop_total {l : Layout} {pages cur : Nat} {s t : State} {bs : List Byte}
    (h : passLoop l pages cur (cur * pageSize l) s = .done bs t) :
    t.session.runningChecksum + t.session.pageSum =
      s.session.runningChecksum + s.session.pageSum + accumulated bs := by
  induction pages generalizing t bs with
  | zero =>
    cases h
    exact (BitVec.add_zero _).symm
  | succ pages ih =>
    obtain ⟨before, page, u, v, hu, hv, rfl, rfl⟩ := passLoop_concat_done h
    obtain ⟨hrunning, hpage⟩ := pageLoop_sums hv
    rw [foldAfter_total, hrunning, hpage, ← BitVec.add_assoc, ih hu, BitVec.add_assoc, accumulated_append]

section

variable {l : Layout} {pages cur : Nat} {s t : State} {bs : List Byte}

/-- A pass whose last bank is folded: `runningChecksum` has all its bytes. -/
theorem passLoop_folded (h : passLoop l (pages + 1) cur (cur * pageSize l) s = .done bs t)
    (hs : s.session.pageSum = 0)
    (hfold : foldCondition s.config.foldBankRef l (cur + pages) (cur + pages + 1) = true) :
    t.session.runningChecksum = s.session.runningChecksum + accumulated bs := by
  have htotal := passLoop_total h
  have hconfig := (passLoop_frame l (pages + 1) cur (cur * pageSize l) s).config
  rw [h, final_done] at hconfig
  obtain ⟨_, _, _, v, _, _, _, rfl⟩ := passLoop_concat_done h
  rw [foldAfter_config] at hconfig
  rw [foldAfter_of_true (hconfig ▸ hfold)] at htotal ⊢
  have hpage : v.fold.session.pageSum = 0 := rfl
  rwa [hs, hpage, add_zero, add_zero] at htotal

/-- A pass whose last bank is not folded, where the bank before it was: `runningChecksum` has all but the last page. -/
theorem passLoop_unfolded (h : passLoop l (pages + 1) cur (cur * pageSize l) s = .done bs t)
    (hs : s.session.pageSum = 0)
    (hlast : foldCondition s.config.foldBankRef l (cur + pages) (cur + pages + 1) = false)
    (hbefore : ∀ k, k + 1 = pages → foldCondition s.config.foldBankRef l (cur + k) (cur + k + 1) = true) :
    t.session.runningChecksum = s.session.runningChecksum + accumulated (bs.take (pages * pageSize l)) := by
  have hconfig := (passLoop_frame l (pages + 1) cur (cur * pageSize l) s).config
  rw [h, final_done] at hconfig
  obtain ⟨before, page, u, v, hu, hv, rfl, rfl⟩ := passLoop_concat_done h
  rw [foldAfter_config] at hconfig
  rw [foldAfter_of_false (hconfig ▸ hlast), (pageLoop_sums hv).1, ← (passLoop_readRun hu).2, List.take_left]
  cases pages with
  | zero =>
    cases hu
    exact (BitVec.add_zero _).symm
  | succ pages => exact passLoop_folded hu hs (hbefore pages rfl)

end

/-- The parity of the bank entered at which a LowROM fold is left out, by `FOLD_BANK_REF` (45_dump_engine.md R197). -/
def unfoldedParity (ref : FoldBankRef) : Nat :=
  if ref = .entered then 1 else 0

theorem foldCondition_iff (ref : FoldBankRef) (l : Layout) (n : Nat) :
    foldCondition ref l n (n + 1) = true ↔ ¬ (l = .lowROM ∧ (n + 1) % 2 = unfoldedParity ref) := by
  cases l with
  | highROM => simp [foldCondition]
  | lowROM =>
    cases ref
    · simp [foldCondition, unfoldedParity]
    · simp [foldCondition, unfoldedParity]; omega

/-- Of two consecutive banks one is folded, whatever the layout. -/
theorem foldCondition_before {ref : FoldBankRef} {l : Layout} {n : Nat}
    (h : foldCondition ref l (n + 1) (n + 1 + 1) = false) : foldCondition ref l n (n + 1) = true := by
  rw [← Bool.not_eq_true, foldCondition_iff, not_not] at h
  obtain ⟨_, hparity⟩ := h
  rw [foldCondition_iff]
  omega

/-- The bytes of a pass that its folds cover: all, or all but the last page (45_dump_engine.md R198). -/
def foldedBytes (ref : FoldBankRef) (l : Layout) (last pages : Nat) (bs : List Byte) : List Byte :=
  if l = .lowROM ∧ last % 2 = unfoldedParity ref then bs.take ((pages - 1) * pageSize l) else bs

theorem foldedBytes_eq (ref : FoldBankRef) (l : Layout) (last pages : Nat) (bs : List Byte) :
    foldedBytes ref l last pages bs =
      if l = .lowROM ∧ last % 2 = unfoldedParity ref then bs.take ((pages - 1) * 32768) else bs := by
  cases l <;> simp only [foldedBytes, pageSize, reduceCtorEq, false_and, if_false]

/-- A pass that begins with an empty `pageSum` accumulates `foldedBytes`. -/
theorem passLoop_runningChecksum {l : Layout} {pages cur : Nat} {s t : State} {bs : List Byte}
    (h : passLoop l pages cur (cur * pageSize l) s = .done bs t) (hs : s.session.pageSum = 0) :
    t.session.runningChecksum =
      s.session.runningChecksum + accumulated (foldedBytes s.config.foldBankRef l (cur + pages) pages bs) := by
  unfold foldedBytes
  cases pages with
  | zero =>
    cases h
    simp only [List.take_nil, ite_self]
    exact (BitVec.add_zero _).symm
  | succ pages =>
    have hiff := foldCondition_iff s.config.foldBankRef l (cur + pages)
    split
    next hleft =>
      have hlast := Bool.eq_false_iff.mpr fun htrue => hiff.mp htrue hleft
      obtain ⟨rfl, _⟩ := hleft
      rw [Nat.add_sub_cancel]
      refine passLoop_unfolded h hs hlast fun k hk => foldCondition_before ?_
      rwa [← hk] at hlast
    next hall => exact passLoop_folded h hs (hiff.mpr hall)

/-! ### An unsplit dump (45_dump_engine.md R193, R198, R200) -/

/-- On a sound environment an unsplit dump within bank 255 is one pass from cleared accumulators. -/
theorem exec_dumpRom_passLoop {l : Layout} {b : Byte} {pages : Nat} {s : State} (ho : s.isOpen)
    (hlocked : s.session.layoutLocked = true) (hl : s.session.layout = some l) (hs : s.soundPorts)
    (hfit : b.toNat + pages ≤ 256) (hsplit : ¬ (l = .highROM ∧ 64 < pages)) :
    ∃ bs t, exec (.dumpRom b pages) s = .next (finishRom bs t) ∧
      passLoop l pages b.toNat (b.toNat * pageSize l) s.clearSums = .done bs t := by
  have hpass : passList s.config b pages l = [(b.toNat, pages)] := passList_unsplit hsplit
  obtain ⟨bs, t, ht⟩ := runPasses_sound (s := s.clearSums) l [(b.toNat, pages)] hs
  refine ⟨bs, t, exec_dumpRom_done ho hlocked hl ?_ (by rw [hpass, ht]), runPasses_single ht⟩
  rw [hpass]
  simpa [passesFit] using hfit

/-- Settles O54: the pass begins at cleared accumulators, so the checksum is that of the bytes its folds cover. -/
theorem dumpRomChecksumCoversWholeLogicalPages : Obligations.DumpRomChecksumCoversWholeLogicalPages := by
  intro b pages s l h ho hlocked hl hheader hs hfit hsplit
  obtain ⟨bs, t, hexec, hpass⟩ := exec_dumpRom_passLoop ho hlocked hl hs hfit hsplit
  obtain ⟨hrun, hlen⟩ := passLoop_readRun hpass
  have hsum := passLoop_runningChecksum hpass rfl
  have hchecksum : (maskedChecksum t.session.runningChecksum).toNat =
      byteSum (foldedBytes s.config.foldBankRef l (b.toNat + pages) pages bs) % 65536 := by
    have hcleared : s.clearSums.session.runningChecksum = 0 := rfl
    rw [hsum, hcleared, zero_add]
    exact maskedChecksum_accumulated _
  rw [foldedBytes_eq] at hchecksum
  refine ⟨finishRom bs t, dumpResult bs t, _, hexec, rfl, by rw [← pageSize_eq_ite]; exact hlen, hchecksum, ?_⟩
  rw [hrun.frame.header.trans hheader]
  exact beq_iff_eq

end Sys2Proof.Machine
end

section
/-! The family `44_checksum_and_size.md`, an SRAM dump: the window its turns walk through (45_dump_engine.md R211,
R213), what one turn reads and leaves, and the dump as a whole (R210, R214, R216). -/

namespace Sys2Proof.Machine

/-! ### The window (45_dump_engine.md R211 to R213) -/

/-- The bytes a bank of the window holds (45_dump_engine.md R212). -/
def sramCap (a0 : Nat) : Nat :=
  sramCeiling + 1 - a0

theorem add_sramCap {a0 : Nat} (h : a0 ≤ sramCeiling) : a0 + sramCap a0 = sramCeiling + 1 :=
  Nat.add_sub_of_le (Nat.le_succ_of_le h)

/-- Bank and address of byte `j` of the window from (`b0`, `a0`). -/
def sramPosition (b0 a0 j : Nat) : Nat × Nat :=
  (b0 + j / sramCap a0, a0 + j % sramCap a0)

theorem sramPosition_zero (b0 a0 : Nat) : sramPosition b0 a0 0 = (b0, a0) := by
  simp [sramPosition]

/-- From one byte of the window to the next: along the bank, or on to the next bank above the ceiling. -/
theorem sramNext_sramPosition {a0 : Nat} (h : a0 ≤ sramCeiling) (b0 j : Nat) :
    sramNext a0 (sramPosition b0 a0 j).1 (sramPosition b0 a0 j).2 = sramPosition b0 a0 (j + 1) := by
  have hcap := add_sramCap h
  have hpos : 0 < sramCap a0 := by omega
  have hlt := Nat.mod_lt j hpos
  have hj := Nat.mod_add_div j (sramCap a0)
  unfold sramNext sramPosition
  split
  next hend =>
    obtain ⟨hdiv, hmod⟩ := (Nat.div_mod_unique hpos (a := j + 1) (c := 0) (d := j / sramCap a0 + 1)).mpr
      ⟨by rw [Nat.mul_succ]; omega, hpos⟩
    rw [hdiv, hmod]
    rfl
  next hinside =>
    obtain ⟨hdiv, hmod⟩ := (Nat.div_mod_unique hpos (a := j + 1) (c := j % sramCap a0 + 1)
      (d := j / sramCap a0)).mpr ⟨by omega, by omega⟩
    rw [hdiv, hmod]
    rfl

theorem sramPosition_address_le {a0 : Nat} (h : a0 ≤ sramCeiling) (b0 j : Nat) :
    (sramPosition b0 a0 j).2 ≤ sramCeiling := by
  have hcap := add_sramCap h
  have hlt := Nat.mod_lt j (show 0 < sramCap a0 by omega)
  simp only [sramPosition]
  omega

theorem sramOriginAddr_le (c : Config) (l : Layout) : sramOriginAddr c l ≤ sramCeiling := by
  cases l with
  | lowROM => exact Nat.le_of_lt_succ c.sramLowAddr.isLt
  | highROM => exact Nat.le_of_lt_succ c.sramHighAddr.isLt

/-! ### One turn of the loop (45_dump_engine.md R210) -/

/-- One turn at (`sb`, `sa`): from `s` to `t` the byte `v` was read there and added to `runningChecksum`. -/
structure SramTurn (l : Layout) (sb sa : Nat) (v : Byte) (s t : State) : Prop where
  frame : BusFrame s t
  readsMade : ReadsMade 1 s t
  bank : t.session.bank = .ofNat 8 sb
  address : t.session.address = .ofNat 16 sa
  runningChecksum : t.session.runningChecksum = addByte s.session.runningChecksum v
  pageSum : t.session.pageSum = s.session.pageSum
  coherent : Coherent s → Coherent t
  value : ∀ b, Coherent s → s.steadyCart → sa ≤ sramCeiling →
    s.cartAt s.session.ctrl (busOfBankAddress l sb sa) = some b → v = b

theorem portRead_done {s t : State} {v : Byte} (h : portRead s = .done v t) :
    v = dataByte s ∧ t = s.record (.read s.session.ctrl (busAddress s.ports) (some (dataByte s))) := by
  cases hf : nowFails s with
  | true => rw [portRead_fails hf] at h; cases h
  | false =>
    rw [portRead_sound hf] at h
    cases h
    exact ⟨rfl, rfl⟩

/-- The two positioning calls of a turn: the bus and its registers stand at bank `sb` and address `sa`. -/
structure SramPositioned (l : Layout) (sb sa : Nat) (s t : State) : Prop where
  frame : BusFrame s t
  readsMade : ReadsMade 0 s t
  counters : t.session.counters = s.session.counters
  bank : t.session.bank = .ofNat 8 sb
  address : t.session.address = .ofNat 16 sa
  coherent : Coherent s → Coherent t
  busAddress : Coherent s → sa < 65536 → busAddress t.ports = busOfBankAddress l sb sa

theorem sramPositioned_of_done {l : Layout} {sb sa : Nat} {s t u : State} {x y : Unit}
    (ht : gotoBankStep (.ofNat 8 sb) s = .done x t) (hu : gotoAddressStep l (.ofNat 16 sa) t = .done y u) :
    SramPositioned l sb sa s u := by
  have hft := gotoBankStep_frame (.ofNat 8 sb) s
  have hct := gotoBankStep_counters (.ofNat 8 sb) s
  rw [ht, final_done] at hft hct
  have hfu := gotoAddressStep_frame l (.ofNat 16 sa) t
  have hcu := gotoAddressStep_counters l (.ofNat 16 sa) t
  rw [hu, final_done] at hfu hcu
  obtain ⟨hsession, _, _, hbankOut⟩ := gotoBankStep_done ht
  obtain ⟨hsession', hbankPort, hupperOut, hlowerOut⟩ := gotoAddressStep_done hu
  have hregister : ∀ v, t.session.cachedBank = some v → t.session.bank = v := by
    rw [hsession]
    exact fun v hv => Option.some.inj hv
  constructor
  case frame => exact hft.trans hfu
  case readsMade => exact (gotoBankStep_readsMade ht).trans (gotoAddressStep_readsMade hu)
  case counters => exact hcu.trans hct
  case bank => rw [hsession', hsession]
  case address => rw [hsession']
  case coherent => exact fun hc => (gotoAddressStep_busAt hu (gotoBankStep_coherent ht hc) hregister).toCoherent
  case busAddress =>
    intro hc ha
    have hct := gotoBankStep_coherent ht hc
    exact busAddress_of_bankAddress ha (hbankPort ▸ hbankOut hc.bank) (hupperOut hct.upper) (hlowerOut hct.lower)

/-- The read of a turn and the addition of its byte. -/
theorem SramPositioned.turn {l : Layout} {sb sa : Nat} {s t u : State} {v : Byte} (h : SramPositioned l sb sa s t)
    (hread : portRead t = .done v u) : SramTurn l sb sa v s (u.addToRunning v) := by
  have hframe := portRead_frame t
  rw [hread, final_done] at hframe
  obtain ⟨hvalue, hu⟩ := portRead_done hread
  have hsums := addToRunning_sumsOnly u v
  have hrunning : t.session.runningChecksum = s.session.runningChecksum := congrArg (fun r => r.2.1) h.counters
  have hpage : t.session.pageSum = s.session.pageSum := congrArg (fun r => r.2.2) h.counters
  constructor
  case frame => exact h.frame.trans (hframe.trans hsums.frame)
  case readsMade => exact h.readsMade.trans ⟨[_], congrArg (fun s => s.env.trace) hu, rfl⟩
  case bank => rw [hsums.bank, hu]; exact h.bank
  case address => rw [hsums.address, hu]; exact h.address
  case runningChecksum => rw [← hrunning, hu]; rfl
  case pageSum => rw [← hpage, hu]; rfl
  case coherent =>
    intro hc
    obtain ⟨hupper, hlower, hbank⟩ := h.coherent hc
    exact hsums.coherent (hu ▸ ⟨hupper, hlower, hbank⟩)
  case value =>
    intro b hc hs ha hb
    rw [hvalue]
    refine dataByte_of_cart (readByte_answers_steady (h.frame.steadyCart hs)) ?_
    rwa [State.cartAt, h.frame.ctrl, h.frame.cart, h.busAddress hc (Nat.lt_of_le_of_lt ha (by decide))]

/-- A done loop of one turn more begins with a turn at its position. -/
theorem sramLoop_succ_done {l : Layout} {a0 count sb sa : Nat} {s t : State} {bs : List Byte}
    (h : sramLoop l a0 (count + 1) sb sa s = .done bs t) :
    ∃ v vs u, SramTurn l sb sa v s u ∧
      sramLoop l a0 count (sramNext a0 sb sa).1 (sramNext a0 sb sa).2 u = .done vs t ∧ bs = v :: vs := by
  obtain ⟨_, w, hw, h1⟩ := bind_eq_done h
  obtain ⟨_, x, hx, h2⟩ := bind_eq_done h1
  obtain ⟨v, y, hy, h3⟩ := bind_eq_done h2
  obtain ⟨vs, z, hz, h4⟩ := bind_eq_done h3
  cases h4
  exact ⟨v, vs, _, (sramPositioned_of_done hw hx).turn hy, hz, rfl⟩

/-! ### The loop over the window (45_dump_engine.md R210, R213, R216) -/

/-- The loop adds its bytes to `runningChecksum` and makes one read for each. -/
theorem sramLoop_sums {l : Layout} {a0 count sb sa : Nat} {s t : State} {bs : List Byte}
    (h : sramLoop l a0 count sb sa s = .done bs t) :
    t.session.runningChecksum = s.session.runningChecksum + accumulated bs ∧
      t.session.pageSum = s.session.pageSum ∧ ReadsMade bs.length s t := by
  induction count generalizing sb sa s bs with
  | zero =>
    cases h
    exact ⟨(BitVec.add_zero _).symm, rfl, readsMade_of_env rfl⟩
  | succ count ih =>
    obtain ⟨v, vs, u, hturn, hrest, rfl⟩ := sramLoop_succ_done h
    obtain ⟨hrunning, hpage, hreads⟩ := ih hrest
    refine ⟨?_, hpage.trans hturn.pageSum, ?_⟩
    · rw [hrunning, hturn.runningChecksum, addByte_add_accumulated]
    · rw [List.length_cons, Nat.add_comm]
      exact hturn.readsMade.trans hreads

section

variable {l : Layout} {b0 a0 count j : Nat} {s t : State} {bs : List Byte}

/-- A done loop that goes on at byte `j` of the window: a turn there, then the loop at byte `j + 1`. -/
theorem sramLoop_turn (ha : a0 ≤ sramCeiling)
    (h : sramLoop l a0 (count + 1) (sramPosition b0 a0 j).1 (sramPosition b0 a0 j).2 s = .done bs t) :
    ∃ v vs u, SramTurn l (sramPosition b0 a0 j).1 (sramPosition b0 a0 j).2 v s u ∧
      sramLoop l a0 count (sramPosition b0 a0 (j + 1)).1 (sramPosition b0 a0 (j + 1)).2 u = .done vs t ∧
      bs = v :: vs := by
  rw [← sramNext_sramPosition ha b0 j]
  exact sramLoop_succ_done h

/-- A done loop of at least one turn leaves the registers at its last byte. -/
theorem sramLoop_registers (ha : a0 ≤ sramCeiling) (hcount : 0 < count)
    (h : sramLoop l a0 count (sramPosition b0 a0 j).1 (sramPosition b0 a0 j).2 s = .done bs t) :
    t.session.bank = .ofNat 8 (sramPosition b0 a0 (j + (count - 1))).1 ∧
      t.session.address = .ofNat 16 (sramPosition b0 a0 (j + (count - 1))).2 := by
  induction count generalizing j s bs with
  | zero => exact absurd hcount (Nat.lt_irrefl 0)
  | succ count ih =>
    obtain ⟨_, _, _, hturn, hrest, _⟩ := sramLoop_turn ha h
    rw [Nat.add_sub_cancel]
    cases count with
    | zero =>
      cases hrest
      exact ⟨hturn.bank, hturn.address⟩
    | succ count =>
      have hlast := ih (Nat.succ_pos count) hrest
      rwa [Nat.add_sub_cancel, Nat.add_right_comm, Nat.add_assoc] at hlast

/-- A done loop reads what a steady cartridge lists for the window. -/
theorem sramLoop_eq_image {image : List Byte} (ha : a0 ≤ sramCeiling)
    (h : sramLoop l a0 count (sramPosition b0 a0 j).1 (sramPosition b0 a0 j).2 s = .done bs t) (hc : Coherent s)
    (hs : s.steadyCart) (hlen : image.length = count)
    (himage : ∀ k < count, s.cartAt s.session.ctrl
      (busOfBankAddress l (sramPosition b0 a0 (j + k)).1 (sramPosition b0 a0 (j + k)).2) = image[k]?) :
    bs = image := by
  induction count generalizing j s bs image with
  | zero =>
    cases h
    exact (List.eq_nil_of_length_eq_zero hlen).symm
  | succ count ih =>
    obtain ⟨v, vs, u, hturn, hrest, rfl⟩ := sramLoop_turn ha h
    obtain ⟨b, rest, rfl⟩ := List.exists_cons_of_length_eq_add_one hlen
    have hv : v = b :=
      hturn.value b hc hs (sramPosition_address_le ha b0 j) (himage 0 (Nat.succ_pos count))
    refine congr (congrArg List.cons hv) (ih hrest (hturn.coherent hc) (hturn.frame.steadyCart hs)
      (Nat.succ.inj hlen) fun k hk => ?_)
    have hk' := himage (k + 1) (Nat.succ_lt_succ hk)
    rw [List.getElem?_cons_succ, ← Nat.add_assoc, Nat.add_right_comm] at hk'
    rwa [State.cartAt, hturn.frame.cart, hturn.frame.ctrl]

end

/-! ### The dump (45_dump_engine.md R210, R211, R214) -/

theorem sramOrigin_eq_ite (c : Config) (l : Layout) :
    sramOriginBank c l = (if l = .lowROM then c.sramLowBank.toNat else c.sramHighBank.toNat) ∧
      sramOriginAddr c l = (if l = .lowROM then c.sramLowAddr.toNat else c.sramHighAddr.toNat) ∧
      sramControlWord c l = if l = .lowROM then c.cwSramLow else c.cwSramHigh := by
  cases l <;> exact ⟨rfl, rfl, rfl⟩

/-- The state in which the loop of an SRAM dump begins: sums cleared, the SRAM word on the lines. -/
def sramStart (l : Layout) (s : State) : State :=
  lines .sramEnabled (sramControlWord s.config l) s.clearSums

theorem sramStart_coherent {l : Layout} {s : State} (h : Coherent s) : Coherent (sramStart l s) :=
  ⟨h.upper, h.lower, h.bank⟩

section

variable {c d : Byte} {l : Layout} {n b0 a0 : Nat} {s t : State} {bs : List Byte}

/-- On a sound environment a dump within bank 255 ends after its loop over the window. -/
theorem exec_dumpSram_sramLoop (ho : s.isOpen) (hlocked : s.session.layoutLocked = true)
    (hl : s.session.layout = some l) (hs : s.soundPorts) (hb0 : sramOriginBank s.config l = b0)
    (ha0 : sramOriginAddr s.config l = a0) (hfit : b0 + sramBanks a0 (sramBytes c) ≤ 256) :
    ∃ bs t, exec (.dumpSram c d) s =
        .next (complete (some (.sramDump (dumpResult bs t))) (restoreReadIdle t).countDump) ∧
      sramLoop l a0 (sramBytes c) b0 a0 (sramStart l s) = .done bs t ∧ bs.length = sramBytes c := by
  obtain ⟨bs, t, ht, hlen⟩ := sramLoop_sound (s := sramStart l s) l a0 (sramBytes c) b0 a0 hs
  have hfits : sramFits b0 a0 (sramBytes c) = true := decide_eq_true hfit
  refine ⟨bs, t, ?_, ht, hlen⟩
  rw [sramStart] at ht
  simp only [exec, execDumpSram, whenOpen, if_pos ho, withLockedLayout, if_pos hlocked, withLayout, hl, hb0, ha0,
    if_pos hfits, ht, finishSram]

/-- What the loop of a dump keeps, accumulates and records, from where it begins. -/
theorem sramLoop_fromStart (h : sramLoop l a0 n b0 a0 (sramStart l s) = .done bs t) :
    BusFrame (sramStart l s) t ∧ t.session.currentOffset = s.session.currentOffset ∧
      t.session.runningChecksum = accumulated bs ∧ t.session.pageSum = 0 ∧
      ReadsMade bs.length (sramStart l s) t := by
  have hframe := sramLoop_frame l a0 n b0 a0 (sramStart l s)
  have hoffset := sramLoop_currentOffset l a0 n b0 a0 (sramStart l s)
  rw [h, final_done] at hframe hoffset
  obtain ⟨hrunning, hpage, hreads⟩ := sramLoop_sums h
  exact ⟨hframe, hoffset, hrunning.trans (zero_add _), hpage, hreads⟩

/-- The record of a dump: the SRAM word, the events of its loop, the read-idle word (45_dump_engine.md R214). -/
theorem restoreReadIdle_trace {es : List Event} (hconfig : t.config = s.config)
    (ht : t.env.trace = es ++ (sramStart l s).env.trace) :
    (restoreReadIdle t).env.trace =
      .lines .readIdle (lineLevels s.config.cwReadIdle) ::
        (es ++ .lines .sramEnabled (lineLevels (sramControlWord s.config l)) :: s.env.trace) := by
  rw [restoreReadIdle_env, ht, hconfig]
  rfl

end

theorem byteSum_le (bs : List Byte) : byteSum bs ≤ bs.length * 255 := by
  have h := (bs.map BitVec.toNat).sum_le_card_nsmul 255 fun n hn => by
    obtain ⟨b, _, rfl⟩ := List.mem_map.mp hn
    exact Nat.le_of_lt_succ b.isLt
  rwa [List.length_map] at h

/-- The bytes of an SRAM dump are too few for their sum to wrap (44_checksum_and_size.md R180). -/
theorem accumulated_toNat_of_sramBytes {c : Byte} {bs : List Byte} (h : bs.length = sramBytes c) :
    (accumulated bs).toNat = byteSum bs := by
  have hle := byteSum_le bs
  have hc := c.isLt
  rw [h, sramBytes] at hle
  exact Nat.mod_eq_of_lt (by omega)

/-- Settles O58: the loop walks the window, so its bytes are the image; the two line changes are the dump's own. -/
theorem dumpSramReturnsTheWindow : Obligations.DumpSramReturnsTheWindow := by
  intro c d s l image n b0 a0 cw cap hinv ho hlocked hl hs hsteady hfit hlen himage
  obtain ⟨hb0, ha0, hcw⟩ : sramOriginBank s.config l = b0 ∧ sramOriginAddr s.config l = a0 ∧
      sramControlWord s.config l = cw := sramOrigin_eq_ite s.config l
  have ha : a0 ≤ sramCeiling := ha0 ▸ sramOriginAddr_le s.config l
  obtain ⟨bs, t, hexec, hloop, hbs⟩ := exec_dumpSram_sramLoop (c := c) (d := d) ho hlocked hl hs hb0 ha0 hfit
  obtain ⟨hframe, hoffset, hsum, hpage, es, htrace, hreads⟩ := sramLoop_fromStart hloop
  have hwindow : sramLoop l a0 n (sramPosition b0 a0 0).1 (sramPosition b0 a0 0).2 (sramStart l s) = .done bs t := by
    rw [sramPosition_zero]
    exact hloop
  have hlisted : ∀ k < n, (sramStart l s).cartAt (sramStart l s).session.ctrl
      (busOfBankAddress l (sramPosition b0 a0 (0 + k)).1 (sramPosition b0 a0 (0 + k)).2) = image[k]? := by
    intro k hk
    rw [Nat.zero_add, ← himage k hk, ← hcw]
    rfl
  obtain rfl : bs = image :=
    sramLoop_eq_image ha hwindow (sramStart_coherent hinv.busInv.toCoherent) hsteady hlen hlisted
  have hchecksum : (maskedChecksum t.session.runningChecksum).toNat = byteSum bs % 65536 := by
    rw [hsum, maskedChecksum_accumulated]
  have hrunning : t.session.runningChecksum.toNat = byteSum bs := by
    rw [hsum, accumulated_toNat_of_sramBytes hbs]
  have hconfig : t.config = s.config := hframe.config
  have hreadIdle : some (lineLevels t.config.cwReadIdle) = some (lineLevels s.config.cwReadIdle) := by rw [hconfig]
  have hcommands : t.host.commands = s.host.commands := congrArg HostSide.commands hframe.host
  have hrecord := restoreReadIdle_trace hconfig htrace
  rw [hcw] at hrecord
  refine ⟨_, dumpResult bs t, hexec, rfl, rfl, hchecksum, hrunning, hpage, hreadIdle, rfl, hoffset, hframe.header,
    hframe.layout, hframe.layoutLocked.trans hlocked, hframe.status.trans ho, hframe.lastError, hcommands,
    fun hn => ?_, es, hrecord, hreads.trans hbs, (hframe.events htrace).2⟩
  have hregisters := sramLoop_registers ha hn hwindow
  rwa [Nat.zero_add] at hregisters

end Sys2Proof.Machine
end

section
/-! The family `45_dump_engine.md`, admission and ends: which dumps are refused before anything is touched (R192, R193,
R212), the ROM dump of no pages (R198), and the statuses an SRAM dump can answer (R214, R215). -/

namespace Sys2Proof.Machine

/-! ### Admission (45_dump_engine.md R192, R193, R212) -/

theorem passList_split {c : Config} {b : Byte} {pages : Nat} {l : Layout} (h : l = .highROM ∧ 64 < pages) :
    passList c b pages l = [(c.hiromOriginA.val, 64), (c.hiromOriginB.toNat, pages - 64)] :=
  if_pos h

/-- The bank after the last one of a ROM dump (45_dump_engine.md R193). -/
def romDumpEnd (c : Config) (b : Byte) (pages : Nat) (l : Layout) : Nat :=
  if l = .highROM ∧ 64 < pages then c.hiromOriginB.toNat + (pages - 64) else b.toNat + pages

/-- Only the last pass can run past bank 255: the first of two begins at `HIROM_ORIGIN_A`, which leaves room for it
(00_scope.md R3). -/
theorem passesFit_passList {c : Config} {b : Byte} {pages : Nat} {l : Layout} :
    passesFit (passList c b pages l) = true ↔ romDumpEnd c b pages l ≤ 256 := by
  unfold romDumpEnd
  split
  next hsplit =>
    have hfirst : c.hiromOriginA.val + 64 ≤ 256 := by omega
    rw [passList_split hsplit]
    simp [passesFit, hfirst]
  next hsingle =>
    rw [passList_unsplit hsingle]
    simp [passesFit]

section

variable {b c d : Byte} {pages b0 a0 : Nat} {l : Layout} {s : State}

theorem exec_dumpRom_within (ho : s.isOpen) (hlocked : s.session.layoutLocked = true) (hl : s.session.layout = some l)
    (hfit : romDumpEnd s.config b pages l ≤ 256) :
    exec (.dumpRom b pages) s =
      .next (orRaise (runPasses l (passList s.config b pages l) s.clearSums) finishRom) := by
  simp only [exec, execDumpRom, whenOpen, if_pos ho, withLockedLayout, if_pos hlocked, withLayout, hl,
    if_pos (passesFit_passList.mpr hfit)]

theorem exec_dumpRom_past (ho : s.isOpen) (hlocked : s.session.layoutLocked = true) (hl : s.session.layout = some l)
    (hpast : 256 < romDumpEnd s.config b pages l) :
    exec (.dumpRom b pages) s = .next (refuse .argumentOutOfRange s) := by
  have hfit : ¬ passesFit (passList s.config b pages l) = true := mt passesFit_passList.mp hpast.not_ge
  simp only [exec, execDumpRom, whenOpen, if_pos ho, withLockedLayout, if_pos hlocked, withLayout, hl, if_neg hfit]

theorem exec_dumpSram_within (ho : s.isOpen) (hlocked : s.session.layoutLocked = true)
    (hl : s.session.layout = some l) (hb0 : sramOriginBank s.config l = b0) (ha0 : sramOriginAddr s.config l = a0)
    (hfit : b0 + sramBanks a0 (sramBytes c) ≤ 256) :
    exec (.dumpSram c d) s = .next (finishSram (sramLoop l a0 (sramBytes c) b0 a0 (sramStart l s))) := by
  have hfits : sramFits b0 a0 (sramBytes c) = true := decide_eq_true hfit
  simp only [exec, execDumpSram, whenOpen, if_pos ho, withLockedLayout, if_pos hlocked, withLayout, hl, hb0, ha0,
    if_pos hfits, sramStart]

theorem exec_dumpSram_past (ho : s.isOpen) (hlocked : s.session.layoutLocked = true)
    (hl : s.session.layout = some l) (hb0 : sramOriginBank s.config l = b0) (ha0 : sramOriginAddr s.config l = a0)
    (hpast : 256 < b0 + sramBanks a0 (sramBytes c)) :
    exec (.dumpSram c d) s = .next (refuse .argumentOutOfRange s) := by
  have hfits : ¬ sramFits b0 a0 (sramBytes c) = true := mt of_decide_eq_true hpast.not_ge
  simp only [exec, execDumpSram, whenOpen, if_pos ho, withLockedLayout, if_pos hlocked, withLayout, hl, hb0, ha0,
    if_neg hfits]

end

/-- Settles O55: split or not, a ROM dump ends at `romDumpEnd`, and an SRAM dump after its banks. -/
theorem dumpPastTheLastBankIsRefused : Obligations.DumpPastTheLastBankIsRefused := by
  intro s l ho hlocked hl
  constructor
  · rintro b pages (⟨hsingle, hpast⟩ | ⟨hsplit, hpast⟩)
    · exact exec_dumpRom_past ho hlocked hl (by rwa [romDumpEnd, if_neg hsingle])
    · exact exec_dumpRom_past ho hlocked hl (by rwa [romDumpEnd, if_pos hsplit])
  · intro c d n b0 cap hpast
    obtain ⟨hb0, ha0, _⟩ := sramOrigin_eq_ite s.config l
    exact exec_dumpSram_past ho hlocked hl hb0 ha0 hpast

/-! ### The dump of no pages (45_dump_engine.md R192, R198) -/

/-- The one pass of such a dump is empty, whatever the layout. -/
theorem exec_dumpRom_zero {b : Byte} {s : State} {l : Layout} (ho : s.isOpen)
    (hlocked : s.session.layoutLocked = true) (hl : s.session.layout = some l) :
    exec (.dumpRom b 0) s = .next (finishRom [] s.clearSums) := by
  have hsingle : ¬ (l = .highROM ∧ 64 < 0) := fun h => absurd h.2 (Nat.not_lt_zero 64)
  have hfit : romDumpEnd s.config b 0 l ≤ 256 := by
    rw [romDumpEnd, if_neg hsingle]
    exact b.isLt.le
  rw [exec_dumpRom_within ho hlocked hl hfit, passList_unsplit hsingle]
  rfl

theorem checksumMatches_eq_decide (h : HeaderInfo) (checksum : Checksum) :
    checksumMatches (some h) checksum = decide (h.checksum = checksum) := by
  rw [checksumMatches, beq_eq_decide]
  exact decide_eq_decide.mpr eq_comm

/-- Settles O56: the dump ends at once, with the accumulators just cleared. -/
theorem dumpRomOfNoPagesIsEmpty : Obligations.DumpRomOfNoPagesIsEmpty := by
  intro b s l h ho hlocked hl hheader
  refine ⟨Config.duration s.host.dumps, ?_⟩
  have hmatch : checksumMatches s.clearSums.session.header (maskedChecksum 0) = decide (h.checksum = 0) := by
    rw [clearSums_session, hheader]
    exact checksumMatches_eq_decide h _
  rw [exec_dumpRom_zero ho hlocked hl, ← hmatch]
  rfl

/-! ### The statuses of an SRAM dump (45_dump_engine.md R214, R215) -/

/-- A dump that was admitted succeeds or has met a port failure. -/
theorem finishSram_response (r : Txn (List Byte)) :
    (∃ d, (finishSram r).host.response = some { status := .ok, result := some (.sramDump d) }) ∨
      (finishSram r).host.response = some { status := .fatal .portTransactionFailure, result := none } := by
  cases r with
  | done bs t => exact .inl ⟨_, rfl⟩
  | failed t => exact .inr (raise_response _ _)

/-- An SRAM dump is refused or ends as `finishSram` says. -/
theorem exec_dumpSram_cases {c d : Byte} {s t : State} (h : exec (.dumpSram c d) s = .next t) :
    (∃ reason, t = refuse reason s) ∨ ∃ r, t = finishSram r := by
  cases h
  simp only [whenOpen, withLockedLayout, withLayout]
  split
  · split
    · split
      · split
        · exact .inr ⟨_, rfl⟩
        · exact .inl ⟨_, rfl⟩
      · exact .inl ⟨_, rfl⟩
    · exact .inl ⟨_, rfl⟩
  · exact .inl ⟨_, rfl⟩

/-- Settles O59: the operation does not look at `romSizeCode`, and its one fatal error is that of the ports. -/
theorem dumpSramIgnoresTheRomSizeCode : Obligations.DumpSramIgnoresTheRomSizeCode := by
  intro c d d' s
  refine ⟨rfl, fun t h hr => ?_⟩
  rcases exec_dumpSram_cases h with ⟨reason, rfl⟩ | ⟨r, rfl⟩
  · cases hr
  · rcases finishSram_response r with ⟨_, hok⟩ | hfailed
    · cases hok.symm.trans hr
    · cases hfailed.symm.trans hr

end Sys2Proof.Machine
end

section
/-! The family `45_dump_engine.md`, ROM dumps pass by pass: the two passes of a split dump (R193, R198) and the port
failure that aborts a dump (R202). -/

namespace Sys2Proof.Machine

/-! ### A split dump (45_dump_engine.md R193, R197, R198) -/

/-- Done passes, taken apart after the first. -/
theorem runPasses_cons_done {l : Layout} {origin pages : Nat} {ps : List (Nat × Nat)} {s t : State} {bs : List Byte}
    (h : runPasses l ((origin, pages) :: ps) s = .done bs t) :
    ∃ first rest u, passLoop l pages origin (origin * pageSize l) s = .done first u ∧
      runPasses l ps u = .done rest t ∧ bs = first ++ rest := by
  obtain ⟨first, u, hu, hrest⟩ := bind_eq_done h
  obtain ⟨rest, v, hv, hend⟩ := bind_eq_done hrest
  cases hend
  exact ⟨first, rest, u, hu, hv, rfl⟩

/-- In HighROM every page is folded, so a pass leaves `pageSum` empty (45_dump_engine.md R197). -/
theorem passLoop_highROM_sums {pages cur : Nat} {s t : State} {bs : List Byte}
    (h : passLoop .highROM pages cur (cur * pageSize .highROM) s = .done bs t) (hs : s.session.pageSum = 0) :
    t.session.runningChecksum = s.session.runningChecksum + accumulated bs ∧ t.session.pageSum = 0 := by
  have hrunning := passLoop_runningChecksum h hs
  rw [foldedBytes, if_neg (fun hlow => nomatch hlow.1)] at hrunning
  have htotal := passLoop_total h
  rw [hs, add_zero, hrunning] at htotal
  exact ⟨hrunning, add_eq_left.mp htotal⟩

/-- What a pass reads of a steady cartridge that lists an image for it. -/
theorem passLoop_eq_image {l : Layout} {pages cur : Nat} {s t : State} {bs image : List Byte}
    (h : passLoop l pages cur (cur * pageSize l) s = .done bs t) (hc : Coherent s) (hs : s.steadyCart)
    (hfit : cur + pages ≤ 256) (hlen : image.length = pages * pageSize l)
    (himage : ∀ j < pages * pageSize l, s.cartAt s.session.ctrl (busOfOffset l (cur * pageSize l + j)) = image[j]?) :
    bs = image := by
  obtain ⟨hrun, hbs⟩ := passLoop_readRun h
  refine hrun.eq_image hc hs ?_ (hlen.trans hbs.symm) (hbs ▸ himage)
  rw [hbs, ← Nat.add_mul]
  exact Nat.mul_le_mul_right _ hfit

/-- A split dump that is done: a pass of 64 pages, then one of the others. -/
structure SplitDump (c : Config) (pages : Nat) (s : State) (first rest : List Byte) (u t : State) : Prop where
  firstPass : passLoop .highROM 64 c.hiromOriginA.val (c.hiromOriginA.val * pageSize .highROM) s = .done first u
  secondPass :
    passLoop .highROM (pages - 64) c.hiromOriginB.toNat (c.hiromOriginB.toNat * pageSize .highROM) u = .done rest t

section

variable {c : Config} {pages : Nat} {s u t : State} {first rest image : List Byte}

theorem SplitDump.frame_first (h : SplitDump c pages s first rest u t) : BusFrame s u :=
  (passLoop_readRun h.firstPass).1.frame

theorem SplitDump.frame (h : SplitDump c pages s first rest u t) : BusFrame s t :=
  h.frame_first.trans (passLoop_readRun h.secondPass).1.frame

/-- The checksum is not reset between the passes (45_dump_engine.md R198). -/
theorem SplitDump.runningChecksum (h : SplitDump c pages s first rest u t) (hs : s.session.pageSum = 0) :
    t.session.runningChecksum = s.session.runningChecksum + accumulated (first ++ rest) := by
  obtain ⟨hfirst, hpage⟩ := passLoop_highROM_sums h.firstPass hs
  obtain ⟨hrest, _⟩ := passLoop_highROM_sums h.secondPass hpage
  rw [hrest, hfirst, accumulated_append, BitVec.add_assoc]

/-- A cartridge's image read from the two origins, the second pass's bytes after the first's. -/
theorem SplitDump.eq_image (h : SplitDump c pages s first rest u t) (hb : BusAt .highROM s) (hs : s.steadyCart)
    (hpages : 64 < pages) (hfit : c.hiromOriginB.toNat + (pages - 64) ≤ 256) (hlen : image.length = pages * 65536)
    (himage : ∀ j < pages * 65536,
      s.cartAt s.session.ctrl
          (busOfOffset .highROM
            (if j < 64 * 65536 then c.hiromOriginA.val * 65536 + j
            else c.hiromOriginB.toNat * 65536 + (j - 64 * 65536))) = image[j]?) :
    first ++ rest = image := by
  have hfirst : first = image.take (64 * 65536) := by
    refine passLoop_eq_image h.firstPass hb.toCoherent hs (by omega) ?_ fun j (hj : j < 64 * 65536) => ?_
    · rw [List.length_take, hlen, pageSize]
      omega
    · have hbyte := himage j (Nat.lt_trans hj (Nat.mul_lt_mul_of_pos_right hpages (by decide)))
      rw [if_pos hj] at hbyte
      rw [List.getElem?_take_of_lt hj]
      exact hbyte
  have hrest : rest = image.drop (64 * 65536) := by
    refine passLoop_eq_image h.secondPass (passLoop_busAt h.firstPass hb).toCoherent (h.frame_first.steadyCart hs)
      hfit ?_ fun j (hj : j < (pages - 64) * 65536) => ?_
    · rw [List.length_drop, hlen, pageSize, Nat.sub_mul]
    · have hbyte := himage (64 * 65536 + j) (by omega)
      rw [if_neg (by omega), Nat.add_sub_cancel_left] at hbyte
      rw [List.getElem?_drop, State.cartAt, h.frame_first.cart, h.frame_first.ctrl]
      exact hbyte
  rw [hfirst, hrest, List.take_append_drop]

/-- The bus is left at the last byte of the second pass. -/
theorem SplitDump.registers (h : SplitDump c pages s first rest u t) (hpages : 64 < pages) :
    t.session.bank = .ofNat 8 (c.hiromOriginB.toNat + (pages - 64) - 1) ∧ t.session.address = 0xFFFF := by
  obtain ⟨hrun, hlen⟩ := passLoop_readRun h.secondPass
  have hne : rest ≠ [] :=
    List.ne_nil_of_length_pos (hlen ▸ Nat.mul_pos (Nat.sub_pos_of_lt hpages) (pageSize_pos .highROM))
  have hsession := hrun.session_eq_last (by rw [hlen, ← Nat.add_mul]) hne
  exact ⟨congrArg Session.bank hsession, congrArg Session.address hsession⟩

end

/-- On a sound environment a split dump within bank 255 ends after its two passes. -/
theorem exec_dumpRom_split {b : Byte} {pages : Nat} {s : State} (ho : s.isOpen)
    (hlocked : s.session.layoutLocked = true) (hl : s.session.layout = some .highROM) (hs : s.soundPorts)
    (hpages : 64 < pages) (hfit : s.config.hiromOriginB.toNat + (pages - 64) ≤ 256) :
    ∃ first rest u t, exec (.dumpRom b pages) s = .next (finishRom (first ++ rest) t) ∧
      SplitDump s.config pages s.clearSums first rest u t := by
  have hsplit : Layout.highROM = .highROM ∧ 64 < pages := ⟨rfl, hpages⟩
  obtain ⟨bs, t, ht⟩ := runPasses_sound (s := s.clearSums) .highROM (passList s.config b pages .highROM) hs
  have hexec := exec_dumpRom_within (b := b) ho hlocked hl (by rwa [romDumpEnd, if_pos hsplit])
  rw [ht, orRaise_done] at hexec
  rw [passList_split hsplit] at ht
  obtain ⟨first, rest, u, hfirst, hrest, rfl⟩ := runPasses_cons_done ht
  exact ⟨first, rest, u, t, hexec, hfirst, runPasses_single hrest⟩

/-- Settles O53: the two passes read the two halves of the image, and both sums end in `runningChecksum`. -/
theorem dumpRomSplitUsesTheConfiguredOrigins : Obligations.DumpRomSplitUsesTheConfiguredOrigins := by
  intro b pages s h image hinv ho hlocked hl hheader hs hsteady hpages hfit hlen himage
  obtain ⟨first, rest, u, t, hexec, hdump⟩ := exec_dumpRom_split (b := b) ho hlocked hl hs hpages hfit
  have hbus : BusAt .highROM s.clearSums := (clearSums_sumsOnly s).busAt (hinv.busInv.busAt hl)
  have hbytes : first ++ rest = image := hdump.eq_image hbus hsteady hpages hfit hlen himage
  have hchecksum : (maskedChecksum t.session.runningChecksum).toNat = byteSum image % 65536 := by
    have hcleared : s.clearSums.session.runningChecksum = 0 := rfl
    rw [hdump.runningChecksum rfl, hcleared, zero_add, hbytes, maskedChecksum_accumulated]
  refine ⟨finishRom (first ++ rest) t, dumpResult (first ++ rest) t, _, hexec, rfl, hbytes, hchecksum, ?_,
    hdump.registers hpages⟩
  have hlast : t.session.header = some h := hdump.frame.header.trans hheader
  rw [hlast]
  exact beq_iff_eq

/-! ### A port failure (45_dump_engine.md R202, 60_exceptions.md R236) -/

/-- Done passes read their pages, at least one transaction for each byte. -/
theorem runPasses_length_le {l : Layout} {ps : List (Nat × Nat)} {s t : State} {bs : List Byte}
    (h : runPasses l ps s = .done bs t) :
    bs.length = (ps.map Prod.snd).sum * pageSize l ∧ s.env.txn + bs.length ≤ t.env.txn := by
  induction ps generalizing s bs with
  | nil =>
    cases h
    exact ⟨(Nat.zero_mul _).symm, Nat.le_refl _⟩
  | cons p ps ih =>
    obtain ⟨first, rest, u, hfirst, hrest, rfl⟩ := runPasses_cons_done h
    obtain ⟨hrun, hlen⟩ := passLoop_readRun hfirst
    obtain ⟨hlens, hcount⟩ := ih hrest
    have hcount' := hrun.length_le
    rw [List.length_append]
    refine ⟨?_, by omega⟩
    rw [hlen, hlens, List.map_cons, List.sum_cons, Nat.add_mul]

/-- Split or not, the passes have the pages of the dump (45_dump_engine.md R193). -/
theorem passList_pages (c : Config) (b : Byte) (pages : Nat) (l : Layout) :
    ((passList c b pages l).map Prod.snd).sum = pages := by
  by_cases hsplit : l = .highROM ∧ 64 < pages
  · rw [passList_split hsplit]
    exact Nat.add_sub_of_le hsplit.2.le
  · rw [passList_unsplit hsplit]
    rfl

theorem finishRom_stopsAtFailure (bs : List Byte) {s : State} (ho : s.isOpen) : StopsAtFailure (finishRom bs) s :=
  have hopen : (finishRom bs s.withoutFailures).isOpen := ho
  stopsAtFailure_of_end (by rw [quiescing_open hopen]; rfl) ⟨[], rfl⟩

/-- Settles O57: the passes stop at their first failure, and without one the dump ends open with its image. -/
theorem dumpRomPortFailureDiscardsTheDump : Obligations.DumpRomPortFailureDiscardsTheDump := by
  intro b pages s l ho hlocked hl hfit
  have hexec := exec_dumpRom_within (b := b) (pages := pages) ho hlocked hl hfit
  have hsound := exec_dumpRom_within (s := s.withoutFailures) (b := b) (pages := pages) ho hlocked hl hfit
  have hstops : StopsAtFailure
      (fun u => orRaise (runPasses l (passList s.config b pages l) u.clearSums) finishRom) s :=
    Precise.stopsAtFailure (precise_after clearSums_sumsOnly (fun _ => rfl) (precise_runPasses l _)) ho
      fun bs _ hu => finishRom_stopsAtFailure bs hu
  obtain ⟨bs, t, ht⟩ :=
    runPasses_sound (s := s.withoutFailures.clearSums) l (passList s.config b pages l) nofun
  have href : orRaise (runPasses l (passList s.config b pages l) s.withoutFailures.clearSums) finishRom =
      finishRom bs t := by rw [ht, orRaise_done]
  have hframe := runPasses_frame l (passList s.config b pages l) s.withoutFailures.clearSums
  rw [ht, final_done] at hframe
  have hopen : (finishRom bs t).isOpen := hframe.status.trans ho
  obtain ⟨hlen, hcount⟩ := runPasses_length_le ht
  rw [hlen, passList_pages, pageSize_eq_ite] at hcount
  refine ⟨finishRom bs t, _, _, hsound.trans (congrArg _ href), rfl, hcount, fun n hn hlt => ⟨_, hexec, ?_⟩⟩
  have hfails := hstops.fails n hn
  simp only [href, quiescing_open hopen] at hfails
  exact hfails hlt

end Sys2Proof.Machine
end

section
/-! The family `45_dump_engine.md`, a port failure in an SRAM dump (R218, 60_exceptions.md R236): the SRAM word, the
transactions up to the failed one, read-idle, then the quiesce sequence. -/

namespace Sys2Proof.Machine

section

variable {s u ref : State} {l : Layout} {e : Event} {es later : List Event}

/-- A transaction that failed after the SRAM word was on the lines: the read-idle word comes before the fatal error. -/
theorem BusFrame.failsAt_sram (hf : BusFrame (sramStart l s) u)
    (hu : u.env.trace = e :: (es ++ (sramStart l s).env.trace)) (he : e.succeeded = false)
    (href : ref.env.trace = later ++ (es ++ (sramStart l s).env.trace)) :
    FailsAt es.length [.lines .sramEnabled (lineLevels (sramControlWord s.config l))]
      [.lines .readIdle (lineLevels s.config.cwReadIdle)] s ref
      (raise .portTransactionFailure (restoreReadIdle u)) := by
  obtain ⟨htxn, hlines⟩ := hf.events (es := e :: es) hu
  have hdone : transactionCount es.reverse = es.length := by
    rw [transactionCount_eq_length fun p w hm => hlines p w (List.mem_cons_of_mem _ (List.mem_reverse.mp hm)),
      List.length_reverse]
  have hfailed : transactionCount [e] = 1 :=
    transactionCount_eq_length fun p w hm => hlines p w (List.mem_singleton.mp hm ▸ List.mem_cons_self)
  have hlast : transactionCount [.lines .readIdle (lineLevels s.config.cwReadIdle)] = 0 := rfl
  have hfirst : transactionCount [.lines .sramEnabled (lineLevels (sramControlWord s.config l))] = 0 := rfl
  have hconfig : u.config = s.config := hf.config
  refine ⟨es.reverse, e, later, raise_fatalEnd hconfig hf.host hf.cart hf.answers hf.failing ?_ ?_, he, hdone, ?_⟩
  · rw [List.append_cons, transactionCount_append, transactionCount_append, transactionCount_append, hfirst, hdone,
      hfailed, hlast, Nat.zero_add]
    exact htxn
  · rw [restoreReadIdle_env, hu, hconfig]
    simp [sramStart]
  · rw [href, List.reverse_reverse]
    rfl

/-- A loop on the SRAM word that stops at its first failure, and the end of the dump after it. -/
theorem Precise.finishSram_failsAt {f : State → Txn (List Byte)} (hf : Precise f) {k : Nat} (hk : s.firstFailure k)
    (hlt : s.env.txn + k < (finishSram (f (sramStart l s.withoutFailures))).env.txn) :
    FailsAt k [.lines .sramEnabled (lineLevels (sramControlWord s.config l))]
      [.lines .readIdle (lineLevels s.config.cwReadIdle)] s (finishSram (f (sramStart l s.withoutFailures)))
      (finishSram (f (sramStart l s))) := by
  obtain ⟨hframe, _, bs, t0, h0, hcase⟩ := hf (sramStart l s)
  have hstart : (sramStart l s).withoutFailures = sramStart l s.withoutFailures := rfl
  rw [← hstart, h0] at hlt ⊢
  rcases hcase with ⟨t, _, rfl, _, _, hnone⟩ | ⟨t, e, es, later, ht, htrace, he, _, _, hlater, hfirst, _⟩
  · have hlt : s.env.txn + k < t.env.txn := hlt
    rcases hnone _ hk.1 with hbefore | hafter
    · exact absurd hbefore (Nat.le_add_right _ k).not_gt
    · exact absurd hlt hafter.not_gt
  · rw [ht, final_failed] at hframe
    obtain rfl := firstFailure_unique hk hfirst
    rw [ht]
    refine hframe.failsAt_sram (later := .lines .readIdle (lineLevels t0.config.cwReadIdle) :: later) htrace he ?_
    rw [List.cons_append, ← hlater]
    rfl

end

/-- Settles O60: the loop stops at its first failure, and the end of the dump restores read-idle on either exit. -/
theorem dumpSramFailureRestoresReadIdleFirst : Obligations.DumpSramFailureRestoresReadIdleFirst := by
  intro c d s l n b0 a0 cw cap ho hlocked hl hfit
  obtain ⟨hb0, ha0, hcw⟩ : sramOriginBank s.config l = b0 ∧ sramOriginAddr s.config l = a0 ∧
      sramControlWord s.config l = cw := sramOrigin_eq_ite s.config l
  have hexec := exec_dumpSram_within (c := c) (d := d) ho hlocked hl hb0 ha0 hfit
  have hsound := exec_dumpSram_within (s := s.withoutFailures) (c := c) (d := d) ho hlocked hl hb0 ha0 hfit
  obtain ⟨bs, t, ht, hlen⟩ :=
    sramLoop_sound (s := sramStart l s.withoutFailures) l a0 (sramBytes c) b0 a0 nofun
  have hcount : s.env.txn + bs.length ≤ t.env.txn := (sramLoop_unfailed ht).2
  refine ⟨_, dumpResult bs t, hsound, by rw [ht]; rfl, ?_, fun k hk hlt => ⟨_, hexec, ?_⟩⟩
  · rw [ht]
    rwa [hlen] at hcount
  · rw [← hcw]
    exact (precise_sramLoop l a0 (sramBytes c) b0 a0).finishSram_failsAt hk hlt

end Sys2Proof.Machine
end

section
/-! The family `60_exceptions.md`, how a fatal error ends (R236, R239, 70_reset_and_hazards.md R265): where the work of
an instruction stops, the record tells what it did; from there on it is the quiesce sequence. -/

namespace Sys2Proof.Machine

/-! ### What was made on the way to a state -/

/-- From `s` to `u` the block made exactly the port transactions and line changes `made`, in order; the parameters, the
host and what the environment holds are as before. -/
structure Makes (made : List Event) (s u : State) : Prop where
  config : u.config = s.config
  host : u.host = s.host
  cart : u.env.cart = s.env.cart
  answers : u.env.answers = s.env.answers
  failing : u.env.failing = s.env.failing
  txn : u.env.txn = s.env.txn + transactionCount made
  trace : u.env.trace = made.reverse ++ s.env.trace

theorem Makes.trans {first rest : List Event} {s t u : State} (h : Makes first s t) (k : Makes rest t u) :
    Makes (first ++ rest) s u where
  config := k.config.trans h.config
  host := k.host.trans h.host
  cart := k.cart.trans h.cart
  answers := k.answers.trans h.answers
  failing := k.failing.trans h.failing
  txn := by rw [k.txn, h.txn, transactionCount_append, Nat.add_assoc]
  trace := by rw [k.trace, h.trace, List.reverse_append, List.append_assoc]

/-- `u` is come to from `s` by port transactions and line changes. -/
def Reaches (s u : State) : Prop :=
  ∃ made, Makes made s u

theorem Reaches.trans {s t u : State} : Reaches s t → Reaches t u → Reaches s u
  | ⟨_, h⟩, ⟨_, k⟩ => ⟨_, h.trans k⟩

/-- An update of the registers makes nothing. -/
theorem reaches_of_eq {s u : State} (hc : u.config = s.config) (hh : u.host = s.host) (he : u.env = s.env) :
    Reaches s u :=
  ⟨[], hc, hh, by rw [he], by rw [he], by rw [he], by rw [he]; rfl, by rw [he]; rfl⟩

theorem lines_reaches (p : LinePhase) (w : Byte) (s : State) : Reaches s (lines p w s) :=
  ⟨[.lines p (lineLevels w)], rfl, rfl, rfl, rfl, rfl, rfl, rfl⟩

theorem BusFrame.reaches {s u : State} (h : BusFrame s u) : Reaches s u := by
  obtain ⟨es, htrace, _⟩ := h.trace
  rw [← List.reverse_reverse es] at htrace
  exact ⟨_, h.config, h.host, h.cart, h.answers, h.failing, (h.transactionCount_eq htrace).1, htrace⟩

theorem OneTransaction.reaches {s u : State} {e : Event} (h : OneTransaction s u) (ht : u.env.trace = e :: s.env.trace)
    (he : transactionCount [e] = 1) : Reaches s u :=
  ⟨[e], h.config, h.host, h.cart, h.answers, h.failing, by rw [h.txn, he], ht⟩

theorem portDir_reaches (p : PortId) (d : Direction) (s : State) : Reaches s (portDir p d s).final :=
  (portDir_once p d s).reaches (congrArg Env.trace (portDir_final p d s).1) rfl

theorem portPull_reaches (m : Byte) (s : State) : Reaches s (portPull m s).final :=
  (portPull_once m s).reaches (congrArg Env.trace (portPull_final m s).1) rfl

theorem configurePorts_reaches (s : State) : Reaches s (configurePorts s).final :=
  configurePorts_final (R := Reaches) Reaches.trans portDir_reaches portPull_reaches s

/-- One block read of the header parser, the layout set first (43_header_parser.md R149). -/
theorem readBlock_reaches (l : Layout) (s : State) : Reaches s (readBlock l (s.setLayout l)).final :=
  (reaches_of_eq (s := s) (u := s.setLayout l) rfl rfl rfl).trans
    (readAscending_frame l headerLength (headerBase l) (s.setLayout l)).reaches

/-- Wherever the work of an instruction stops for a fatal error, it has made port transactions and line changes, and no
answer. -/
theorem WorkStopped.reaches {i : Instr} {s u : State} (h : WorkStopped s i u) : Reaches s u := by
  cases h with
  | opening => exact (reaches_of_eq (s := s) (u := s.setLastError 0x00) rfl rfl rfl).trans (configurePorts_reaches _)
  | addressing a l => exact (gotoAddressStep_frame l _ s).reaches
  | banking b => exact (gotoBankStep_frame b s).reaches
  | reading => exact (portRead_frame s).reaches
  | positioning o l => exact (gotoOffsetStep_frame l _ s).reaches
  | parsingFirst => exact readBlock_reaches .lowROM s
  | @parsingSecond _ v _ hv =>
    have hfirst := readBlock_reaches .lowROM s
    rw [hv, final_done] at hfirst
    exact hfirst.trans (readBlock_reaches .highROM v)
  | counting c => exact reaches_of_eq rfl rfl rfl
  | dumpingRom b n l => exact (clearSums_sumsOnly s).frame.reaches.trans (runPasses_frame l _ _).reaches
  | dumpingSram c d l n b a =>
    exact (((clearSums_sumsOnly s).frame.reaches.trans (lines_reaches _ _ _)).trans
      (sramLoop_frame l a n b a _).reaches).trans (lines_reaches _ _ _)

theorem Reaches.fatalEnd {s u : State} (h : Reaches s u) (kind : FatalKind) :
    ∃ made, FatalEnd kind s (raise kind u) made := by
  obtain ⟨made, hm⟩ := h
  exact ⟨made, raise_fatalEnd hm.config hm.host hm.cart hm.answers hm.failing hm.txn hm.trace⟩

/-! ### `QUIESCE` (70_reset_and_hazards.md R265, R267) -/

/-- The sequence as a command runs it that made nothing before. -/
theorem quiesceSequence_quiesceEnd (s : State) : QuiesceEnd s (quiesceSequence s).1 [] := by
  obtain ⟨hconfig, _, _, _, hcart, hanswers, hfailing, htxn, htrace, hports⟩ := quiesceSequence_frame s
  exact ⟨quiesceSequence_quiesced s, htxn, htrace, hports, hconfig, hcart, hanswers, hfailing⟩

/-- A fatal error that is recorded after the sequence and not before it, as `QUIESCE` does (R239). -/
theorem QuiesceEnd.fatalEnd {s u : State} {made : List Event} (h : QuiesceEnd s u made) (hh : u.host = s.host)
    (kind : FatalKind) : FatalEnd kind s ((u.setLastError kind.code).respond (.fatal kind) none) made :=
  { h with
    quiesced := { h.quiesced with }
    lastError := rfl
    host := by rw [respond_host, setLastError_host, hh] }

theorem quiesceSequence_fatalEnd (s : State) (kind : FatalKind) :
    FatalEnd kind s (((quiesceSequence s).1.setLastError kind.code).respond (.fatal kind) none) [] := by
  obtain ⟨_, _, _, hhost, _⟩ := quiesceSequence_frame s
  exact (quiesceSequence_quiesceEnd s).fatalEnd hhost kind

theorem exec_quiesce_fails {s : State} {n : Nat} (hn : n < 12) (h : s.env.txn + n ∈ s.env.failing) :
    exec .quiesce s =
      .next (((quiesceSequence s).1.setLastError FatalKind.portTransactionFailure.code).respond
        (.fatal .portTransactionFailure) none) := by
  have hbad : ¬ (quiesceSequence s).2 = true := fun hok => (quiesceSequence_ok s).mp hok n hn h
  exact congrArg Host.Outcome.next (if_neg hbad)

/-! ### The statements -/

/-- Settles O13: every fatal error is taken where the work of its instruction stopped, or after the sequence of
a failed `QUIESCE`. -/
theorem fatalErrorQuiescesAndCloses : Obligations.FatalErrorQuiescesAndCloses := by
  intro i s t kind r h hr
  by_cases hq : i = .quiesce
  · subst hq
    rcases execQuiesce_ends h with rfl | rfl
    · cases hr
    · cases hr
      exact ⟨rfl, [], quiesceSequence_fatalEnd s _⟩
  · cases exec_ends hq h with
    | refused reason => cases hr
    | completed result _ => cases hr
    | raised kind' hstop =>
      cases (raise_response kind' _).symm.trans hr
      exact ⟨rfl, hstop.reaches.fatalEnd kind⟩

/-- Settles O27: a failing transaction among the twelve makes the sequence report a failure after all of them. -/
theorem quiesceAttemptsEveryStepDespiteFailures : Obligations.QuiesceAttemptsEveryStepDespiteFailures := by
  rintro s ⟨k, hk, hle, hlt⟩
  obtain ⟨n, rfl⟩ := Nat.exists_eq_add_of_le hle
  exact ⟨_, exec_quiesce_fails (Nat.add_lt_add_iff_left.mp hlt) hk, quiesceSequence_fatalEnd s _⟩

end Sys2Proof.Machine
end

section
/-! The family `60_exceptions.md`, which operation raises which fatal kind (R231 to R234). -/

namespace Sys2Proof.Machine

/-! ### The kinds of an operation -/

/-- The operations that make port transactions (R234). -/
def makesTransactions : Instr → Bool
  | .sessionOpen | .quiesce | .gotoAddress _ | .gotoBank _ | .readData | .gotoOffset _ | .parseHeader | .dumpRom _ _
  | .dumpSram _ _ => true
  | _ => false

theorem makesTransactions_cases {i : Instr} (h : makesTransactions i = true) :
    i = .sessionOpen ∨ i = .quiesce ∨ (∃ a, i = .gotoAddress a) ∨ (∃ b, i = .gotoBank b) ∨ i = .readData ∨
      (∃ o, i = .gotoOffset o) ∨ i = .parseHeader ∨ (∃ b n, i = .dumpRom b n) ∨ ∃ c d, i = .dumpSram c d := by
  cases i with
  | sessionOpen | quiesce | gotoAddress | gotoBank | readData | gotoOffset | parseHeader | dumpRom | dumpSram => simp
  | _ => exact absurd h Bool.false_ne_true

/-- Whether an operation may raise a kind (R231 to R234). -/
def mayRaise (i : Instr) : FatalKind → Bool
  | .headerChecksumMismatch | .unknownLayoutField => decide (i = .parseHeader)
  | .invalidRomSizeCode => (i matches .romPages _)
  | .portTransactionFailure => makesTransactions i

theorem eq_romPages_of_mayRaise {i : Instr} (h : mayRaise i .invalidRomSizeCode = true) :
    ∃ code, i = .romPages code := by
  cases i with
  | romPages code => exact ⟨code, rfl⟩
  | _ => exact absurd h Bool.false_ne_true

/-! ### States that answer no other fatal error -/

/-- A fatal error that is answered at `t` is of a kind of `P`. -/
def RaisesOnly (P : FatalKind → Prop) (t : State) : Prop :=
  ∀ kind r, t.host.response = some { status := .fatal kind, result := r } → P kind

section Rules

variable {P : FatalKind → Prop} {s k : State}

theorem raisesOnly_refuse (reason : RefuseReason) (s : State) : RaisesOnly P (refuse reason s) :=
  nofun

theorem raisesOnly_complete (result : Option Result) (s : State) : RaisesOnly P (complete result s) :=
  nofun

theorem raisesOnly_raise {kind : FatalKind} (h : P kind) : RaisesOnly P (raise kind s) := by
  intro kind' r hr
  cases (raise_response kind s).symm.trans hr
  exact h

theorem raisesOnly_whenOpen (h : RaisesOnly P k) : RaisesOnly P (whenOpen s k) := by
  unfold whenOpen
  split
  · exact h
  · exact raisesOnly_refuse _ _

theorem raisesOnly_withLayout {k : Layout → State} (h : ∀ l, RaisesOnly P (k l)) : RaisesOnly P (withLayout s k) := by
  unfold withLayout
  split
  · exact h _
  · exact raisesOnly_refuse _ _

theorem raisesOnly_withLockedLayout {k : Layout → State} (h : ∀ l, RaisesOnly P (k l)) :
    RaisesOnly P (withLockedLayout s k) := by
  unfold withLockedLayout
  split
  · exact raisesOnly_withLayout h
  · exact raisesOnly_refuse _ _

theorem raisesOnly_orRaise {α : Type} {r : Txn α} {k : α → State → State} (hp : P .portTransactionFailure)
    (h : ∀ a u, RaisesOnly P (k a u)) : RaisesOnly P (orRaise r k) := by
  cases r with
  | done a u => exact h a u
  | failed u => exact raisesOnly_raise hp

theorem raisesOnly_acceptHeader (h : P .headerChecksumMismatch) (raw : List Byte) (s : State) :
    RaisesOnly P (acceptHeader raw s) := by
  simp only [acceptHeader]
  split
  · exact raisesOnly_complete _ _
  · exact raisesOnly_raise h

theorem raisesOnly_decideLayout (hp : P .portTransactionFailure) (hc : P .headerChecksumMismatch)
    (hu : P .unknownLayoutField) (first : List Byte) (s : State) : RaisesOnly P (decideLayout first s) := by
  unfold decideLayout
  split
  · exact raisesOnly_acceptHeader hc first s
  · split
    · exact raisesOnly_orRaise hp (raisesOnly_acceptHeader hc)
    · exact raisesOnly_raise hu

end Rules

/-! ### The operations -/

/-- An operation answers no fatal error but those it may raise. -/
theorem exec_raisesOnly {i : Instr} {s t : State} (h : exec i s = .next t) :
    RaisesOnly (fun kind => mayRaise i kind = true) t := by
  cases i with
  | sessionOpen =>
    cases h
    split
    · exact raisesOnly_refuse _ _
    · exact raisesOnly_orRaise rfl fun _ _ => raisesOnly_complete _ _
  | quiesce =>
    intro kind r hr
    rcases execQuiesce_response h with hq | hq
    · cases hq.symm.trans hr
    · cases hq.symm.trans hr
      rfl
  | applyWord w => cases h; exact raisesOnly_whenOpen (raisesOnly_complete _ _)
  | gotoAddress a =>
    cases h
    refine raisesOnly_whenOpen ?_
    split
    · exact raisesOnly_complete _ _
    · split
      · exact raisesOnly_refuse _ _
      · exact raisesOnly_withLayout fun _ => raisesOnly_orRaise rfl fun _ _ => raisesOnly_complete _ _
  | gotoBank b => cases h; exact raisesOnly_whenOpen (raisesOnly_orRaise rfl fun _ _ => raisesOnly_complete _ _)
  | readData => cases h; exact raisesOnly_whenOpen (raisesOnly_orRaise rfl fun _ _ => raisesOnly_complete _ _)
  | mapOffset o l =>
    cases h
    split
    · exact raisesOnly_complete _ _
    · exact raisesOnly_refuse _ _
  | unmapAddress b a l =>
    cases h
    split
    · exact raisesOnly_complete _ _
    · exact raisesOnly_refuse _ _
  | gotoOffset o =>
    cases h
    refine raisesOnly_whenOpen (raisesOnly_withLayout fun l => ?_)
    split
    · exact raisesOnly_orRaise rfl fun _ _ => raisesOnly_complete _ _
    · exact raisesOnly_refuse _ _
  | validate c d => cases h; exact raisesOnly_complete _ _
  | parseHeader =>
    cases h
    refine raisesOnly_whenOpen ?_
    split
    · exact raisesOnly_refuse _ _
    · exact raisesOnly_orRaise rfl (raisesOnly_decideLayout rfl rfl rfl)
  | decodeRomSize c => cases h; exact raisesOnly_complete _ _
  | pageCount n l => cases h; exact raisesOnly_complete _ _
  | romPages c =>
    cases h
    refine raisesOnly_whenOpen (raisesOnly_withLockedLayout fun l => ?_)
    split
    · exact raisesOnly_complete _ _
    · exact raisesOnly_raise rfl
  | dumpRom b n =>
    cases h
    refine raisesOnly_whenOpen (raisesOnly_withLockedLayout fun l => ?_)
    simp only
    split
    · exact raisesOnly_orRaise rfl fun _ _ => raisesOnly_complete _ _
    · exact raisesOnly_refuse _ _
  | dumpSram c d =>
    rcases exec_dumpSram_cases h with ⟨reason, rfl⟩ | ⟨bs | u, rfl⟩
    · exact raisesOnly_refuse reason s
    · exact raisesOnly_complete _ _
    · exact raisesOnly_raise rfl

/-- Settles O14: an operation raises nothing but what the table allows it, kind by kind. -/
theorem fatalKindsComeFromTheirOperations : Obligations.FatalKindsComeFromTheirOperations := by
  intro i s t kind r h hr
  have hmay : mayRaise i kind = true := exec_raisesOnly h kind r hr
  cases kind with
  | headerChecksumMismatch | unknownLayoutField => exact of_decide_eq_true hmay
  | invalidRomSizeCode => exact eq_romPages_of_mayRaise hmay
  | portTransactionFailure => exact makesTransactions_cases hmay

end Sys2Proof.Machine
end

section
/-! The family `60_exceptions.md`, admission by the status of the session and its layout (R235). -/

namespace Sys2Proof.Machine

/-! ### The two gates -/

theorem whenOpen_open {s : State} (ho : s.isOpen) (k : State) : whenOpen s k = k :=
  if_pos ho

theorem whenOpen_closed {s : State} (hc : s.session.status = .closed) (k : State) :
    whenOpen s k = refuse .sessionClosed s :=
  if_neg fun ho => SessionStatus.noConfusion (hc.symm.trans ho)

theorem withLayout_none {s : State} (hl : s.session.layout = none) (k : Layout → State) :
    withLayout s k = refuse .layoutUndetermined s := by
  rw [withLayout, hl]

/-- With no layout the gate is shut, whatever `layoutLocked` says. -/
theorem withLockedLayout_none {s : State} (hl : s.session.layout = none) (k : Layout → State) :
    withLockedLayout s k = refuse .layoutUndetermined s := by
  rw [withLockedLayout, withLayout_none hl, ite_self]

/-! ### A closed session -/

theorem execSessionOpen_closed {s : State} (hc : s.session.status = .closed) :
    execSessionOpen s =
      .next (orRaise (configurePorts (s.setLastError 0x00)) fun _ u => complete none (openSession (powerUp u))) :=
  congrArg Host.Outcome.next (if_neg fun ho => SessionStatus.noConfusion (hc.symm.trans ho))

/-- `SESSION_OPEN` on a closed session succeeds, or answers the fatal error of a failed transaction. -/
theorem execSessionOpen_response {s t : State} (hc : s.session.status = .closed) (h : execSessionOpen s = .next t) :
    t.host.response = some { status := .ok, result := none } ∨
    t.host.response = some { status := .fatal .portTransactionFailure, result := none } := by
  rw [execSessionOpen_closed hc] at h
  cases h
  cases configurePorts (s.setLastError 0x00) with
  | done _ u => exact .inl rfl
  | failed u => exact .inr (raise_response _ u)

/-- Settles O22: nine operations stand behind `whenOpen`; the others succeed, fail at their ports or find an argument
out of range. -/
theorem closedSessionAdmission : Obligations.ClosedSessionAdmission := by
  intro i s hc
  cases i with
  | applyWord | gotoAddress | gotoBank | readData | gotoOffset | parseHeader | romPages | dumpRom | dumpSram =>
    exact congrArg Host.Outcome.next (whenOpen_closed hc _)
  | sessionOpen =>
    intro t h hr
    rcases execSessionOpen_response hc h with hs | hs <;> cases hs.symm.trans hr
  | quiesce =>
    intro t h hr
    rcases execQuiesce_response h with hs | hs <;> cases hs.symm.trans hr
  | mapOffset o l =>
    intro t h
    cases h
    split <;> exact nofun
  | unmapAddress b a l =>
    intro t h
    cases h
    split <;> exact nofun
  | validate | decodeRomSize | pageCount =>
    intro t h
    cases h
    exact nofun

/-! ### An open session -/

theorem exec_sessionOpen_open {s : State} (ho : s.isOpen) :
    exec .sessionOpen s = .next (refuse .sessionAlreadyOpen s) :=
  congrArg Host.Outcome.next (if_pos ho)

theorem exec_parseHeader_locked {s : State} (ho : s.isOpen) (hlocked : s.session.layoutLocked = true) :
    exec .parseHeader s = .next (refuse .headerAlreadyParsed s) :=
  congrArg Host.Outcome.next ((whenOpen_open ho _).trans (if_pos hlocked))

/-- The operand of an ordinary address passes both tests that come before that of the layout. -/
theorem exec_gotoAddress_noLayout {a : BitVec 17} {s : State} (ho : s.isOpen) (hl : s.session.layout = none)
    (ha : a.toNat ≤ 0xFFFF) : exec (.gotoAddress a) s = .next (refuse .layoutUndetermined s) := by
  have hlt : a.toNat < overflowSentinel := Nat.lt_succ_of_le ha
  simp only [exec, execGotoAddress, whenOpen_open ho, if_neg hlt.ne, if_neg hlt.not_gt, withLayout_none hl]

/-- Settles O23: each refusal is the answer of one gate, `SESSION_OPEN`'s own, `PARSE_HEADER`'s own or the layout's. -/
theorem openSessionAdmission : Obligations.OpenSessionAdmission := by
  rintro i s reason ho (⟨rfl, rfl⟩ | ⟨rfl, hlocked, rfl⟩ | ⟨hi, hl, rfl⟩)
  · exact exec_sessionOpen_open ho
  · exact exec_parseHeader_locked ho hlocked
  · rcases hi with ⟨a, rfl, ha⟩ | ⟨o, rfl⟩ | ⟨c, rfl⟩ | ⟨b, n, rfl⟩ | ⟨c, d, rfl⟩
    · exact exec_gotoAddress_noLayout ho hl ha
    · exact congrArg Host.Outcome.next ((whenOpen_open ho _).trans (withLayout_none hl _))
    · exact congrArg Host.Outcome.next ((whenOpen_open ho _).trans (withLockedLayout_none hl _))
    · exact congrArg Host.Outcome.next ((whenOpen_open ho _).trans (withLockedLayout_none hl _))
    · exact congrArg Host.Outcome.next ((whenOpen_open ho _).trans (withLockedLayout_none hl _))

end Sys2Proof.Machine
end

section
/-! The family `70_reset_and_hazards.md`, power-on and idling: the reset values meet the invariant, and a step without a
command does nothing (R261). -/

namespace Sys2Proof.Machine

theorem nextCommand_of_commands_nil {s : State} (h : s.host.commands = []) : nextCommand s = none := by
  rw [nextCommand, h]

/-- Settles O7: there is no next command to take. -/
theorem stepWithoutCommandChangesNothing : Obligations.StepWithoutCommandChangesNothing := by
  intro s h
  rw [step, nextCommand_of_commands_nil h]

/-- Settles O9: the session is closed and idle, with nothing cached, no layout and no header. -/
theorem powerOnHoldsSessionInv : Obligations.PowerOnHoldsSessionInv where
  closedIdle _ := ⟨rfl, rfl, rfl, rfl, rfl, rfl, rfl⟩
  lockedLayout := rfl
  lockedHeader := rfl
  headerValid := nofun
  headerLow := nofun
  coherentUpper := nofun
  coherentLower := nofun
  coherentBank := nofun
  splitUpper := nofun
  splitLower := nofun
  bankRegister := nofun
  openPorts := nofun
  openLines := nofun
  errorCode := Nat.zero_le 4
  cartCanonical := memory_wf_nil
  answersCanonical := memory_wf_nil

end Sys2Proof.Machine
end

section
/-! The family `70_reset_and_hazards.md`, a port failure in session creation (R264): a sequence of transactions stops at
the first that fails, and the fatal error is taken there. -/

namespace Sys2Proof.Machine

/-! ### Port transactions and no line change -/

/-- From `s` to `u` the block made exactly `n` port transactions and changed no line. -/
def Transacts (n : Nat) (s u : State) : Prop :=
  ∃ made, Makes made s u ∧ made.length = n ∧ ∀ p w, Event.lines p w ∉ made

theorem Transacts.trans {n m : Nat} {s t u : State} : Transacts n s t → Transacts m t u → Transacts (n + m) s u
  | ⟨first, hfirst, hn, hl⟩, ⟨rest, hrest, hm, hl'⟩ =>
    ⟨first ++ rest, hfirst.trans hrest, by rw [List.length_append, hn, hm], fun p w hmem =>
      (List.mem_append.mp hmem).elim (hl p w) (hl' p w)⟩

theorem Transacts.failing {n : Nat} {s u : State} : Transacts n s u → u.env.failing = s.env.failing
  | ⟨_, hmade, _⟩ => hmade.failing

theorem Transacts.txn {n : Nat} {s u : State} : Transacts n s u → u.env.txn = s.env.txn + n
  | ⟨_, hmade, hn, hl⟩ => by rw [hmade.txn, transactionCount_eq_length hl, hn]

/-- The transactions to come after `n` of them are those that came after the first `n` before. -/
theorem Transacts.failing_iff {n : Nat} {s t : State} (h : Transacts n s t) (j : Nat) :
    t.env.txn + j ∈ t.env.failing ↔ s.env.txn + (n + j) ∈ s.env.failing := by
  rw [h.failing, h.txn, Nat.add_assoc]

theorem OneTransaction.transacts {s u : State} {e : Event} (h : OneTransaction s u)
    (ht : u.env.trace = e :: s.env.trace) (he : ∀ p w, e ≠ .lines p w) : Transacts 1 s u := by
  have hl : ∀ p w, Event.lines p w ∉ [e] := fun p w hm => he p w (List.mem_singleton.mp hm).symm
  refine ⟨[e], ⟨h.config, h.host, h.cart, h.answers, h.failing, ?_, ht⟩, rfl, hl⟩
  rw [h.txn, transactionCount_eq_length hl, List.length_singleton]

/-! ### A sequence of transactions, done or stopped -/

/-- The sequence `r` from `s` makes `m` port transactions and changes no line; it stops at the first that fails. -/
structure StopsWithin {α : Type} (m : Nat) (s : State) (r : Txn α) : Prop where
  done : (∀ k < m, s.env.txn + k ∉ s.env.failing) → ∃ a t, r = .done a t ∧ Transacts m s t
  stops : ∀ n < m, s.firstFailure n → ∃ u, r = .failed u ∧ Transacts (n + 1) s u

theorem stopsWithin_one {α : Type} {s : State} {r : Txn α} (h : Transacts 1 s r.final)
    (hdone : nowFails s = false → ∃ a t, r = .done a t) (hfail : nowFails s = true → ∃ u, r = .failed u) :
    StopsWithin 1 s r where
  done hn := by
    have hok : nowFails s = false := Bool.eq_false_iff.mpr fun hf => hn 0 Nat.one_pos (nowFails_eq_true.mp hf)
    obtain ⟨a, t, rfl⟩ := hdone hok
    exact ⟨a, t, rfl, h⟩
  stops n hn hff := by
    obtain rfl := Nat.lt_one_iff.mp hn
    obtain ⟨u, rfl⟩ := hfail (nowFails_eq_true.mpr hff.1)
    exact ⟨u, rfl, h⟩

/-- One sequence after the other: the failure is in the first, or in the second with the first done. -/
theorem StopsWithin.bind {α β : Type} {m m' : Nat} {s : State} {r : Txn α} {k : α → State → Txn β}
    (h : StopsWithin m s r) (hk : ∀ a t, StopsWithin m' t (k a t)) : StopsWithin (m + m') s (r.bind k) where
  done hn := by
    obtain ⟨a, t, rfl, ht⟩ := h.done fun j hj => hn j (by omega)
    obtain ⟨b, u, hu, htu⟩ := (hk a t).done fun j hj => (ht.failing_iff j).not.mpr (hn _ (by omega))
    exact ⟨b, u, hu, ht.trans htu⟩
  stops n hn hff := by
    rcases Nat.lt_or_ge n m with hlt | hge
    · obtain ⟨u, rfl, hu⟩ := h.stops n hlt hff
      exact ⟨u, rfl, hu⟩
    · obtain ⟨j, rfl⟩ := Nat.exists_eq_add_of_le hge
      obtain ⟨hfails, hbefore⟩ := hff
      obtain ⟨a, t, rfl, ht⟩ := h.done fun i hi => hbefore i (by omega)
      have hff' : t.firstFailure j :=
        ⟨(ht.failing_iff j).mpr hfails, fun i hi => (ht.failing_iff i).not.mpr (hbefore _ (by omega))⟩
      obtain ⟨u, hu, htu⟩ := (hk a t).stops j (by omega) hff'
      exact ⟨u, hu, ht.trans htu⟩

/-! ### `SESSION_OPEN` (70_reset_and_hazards.md R262, R264) -/

theorem portDir_stopsWithin (p : PortId) (d : Direction) (s : State) : StopsWithin 1 s (portDir p d s) :=
  stopsWithin_one ((portDir_once p d s).transacts (congrArg Env.trace (portDir_final p d s).1) nofun)
    (fun h => ⟨_, _, portDir_sound p d h⟩) fun h => ⟨_, portDir_fails p d h⟩

theorem portPull_stopsWithin (m : Byte) (s : State) : StopsWithin 1 s (portPull m s) :=
  stopsWithin_one ((portPull_once m s).transacts (congrArg Env.trace (portPull_final m s).1) nofun)
    (fun h => ⟨_, _, portPull_sound m h⟩) fun h => ⟨_, portPull_fails m h⟩

theorem configurePorts_stopsWithin (s : State) : StopsWithin 5 s (configurePorts s) :=
  (portDir_stopsWithin .aHi .output s).bind fun _ s =>
    (portDir_stopsWithin .aLo .output s).bind fun _ s =>
      (portDir_stopsWithin .bank .output s).bind fun _ s =>
        (portDir_stopsWithin .data .input s).bind fun _ s => portPull_stopsWithin s.config.dataPullupOpen s

theorem Makes.fatalEnd {made : List Event} {s u : State} (h : Makes made s u) (kind : FatalKind) :
    FatalEnd kind s (raise kind u) made :=
  raise_fatalEnd h.config h.host h.cart h.answers h.failing h.txn h.trace

theorem setLastError_makes (c : Byte) (s : State) : Makes [] s (s.setLastError c) :=
  ⟨rfl, rfl, rfl, rfl, rfl, rfl, rfl⟩

/-- Settles O25: the five transactions stop at the failing one, and the fatal error is taken there, before any line has
moved. -/
theorem sessionOpenPortFailureIsFatal : Obligations.SessionOpenPortFailureIsFatal := by
  intro s n hclosed hn hbefore hfails
  obtain ⟨u, hu, made, hmade, hlength, hlines⟩ :=
    (configurePorts_stopsWithin (s.setLastError 0x00)).stops n hn ⟨hfails, hbefore⟩
  refine ⟨raise .portTransactionFailure u, made, ?_, ((setLastError_makes 0x00 s).trans hmade).fatalEnd _, hlength,
    hlines⟩
  rw [exec, execSessionOpen_closed hclosed, hu, orRaise_failed]

end Sys2Proof.Machine
end

section
/-! The family `70_reset_and_hazards.md`, teardown: the whole state after `QUIESCE` (R265, R267), and the ways out of
`Open` (R266). -/

namespace Sys2Proof.Machine

/-! ### States part by part -/

theorem env_ext {e e' : Env} (cart : e.cart = e'.cart) (answers : e.answers = e'.answers)
    (failing : e.failing = e'.failing) (txn : e.txn = e'.txn) (trace : e.trace = e'.trace) : e = e' := by
  cases e
  simp only at cart answers failing txn trace
  subst cart answers failing txn trace
  rfl

theorem state_ext {s t : State} (config : s.config = t.config) (session : s.session = t.session)
    (phase : s.phase = t.phase) (ports : s.ports = t.ports) (env : s.env = t.env) (host : s.host = t.host) : s = t := by
  cases s
  simp only at config session phase ports env host
  subst config session phase ports env host
  rfl

/-! ### The quiesce sequence where none of its transactions fails -/

theorem exec_quiesce_done {s : State} (h : ∀ k < 12, s.env.txn + k ∉ s.env.failing) :
    exec .quiesce s = .next (complete none (quiesceSequence s).1) :=
  congrArg Host.Outcome.next (if_pos ((quiesceSequence_ok s).mpr h))

section Sound

variable {failing : List Nat} {n : Nat}

theorem quiesceEvents_sound (c : Config) (h : ∀ k < 12, n + k ∉ failing) :
    quiesceEvents c failing n =
      [ .write .aHi 0 true, .write .aLo 0 true, .write .bank 0 true, .pullups 0 true,
        .intEnable .aHi 0 true, .intEnable .aLo 0 true, .intEnable .bank 0 true, .intEnable .data 0 true,
        .direction .aHi .input c.dirEncoding.inputMask true, .direction .aLo .input c.dirEncoding.inputMask true,
        .direction .bank .input c.dirEncoding.inputMask true,
        .direction .data .input c.dirEncoding.inputMask true ] := by
  have hok : ∀ k < 12, (!failing.contains (n + k)) = true := fun k hk => by simpa using h k hk
  simp only [quiesceEvents, hok, Nat.reduceLT]

/-- With no failure among the twelve transactions the ports are idle in every field but the latch of `DATA`. -/
theorem PortsIdle.eq_idle {p : Ports} (hp : PortsIdle failing n p) (h : ∀ k < 12, n + k ∉ failing) :
    p =
      { aHi := { out := 0, dir := Vector.replicate 8 .input, inten := 0 }
        aLo := { out := 0, dir := Vector.replicate 8 .input, inten := 0 }
        bank := { out := 0, dir := Vector.replicate 8 .input, inten := 0 }
        data := { out := p.data.out, dir := Vector.replicate 8 .input, inten := 0 }
        pull := 0 } := by
  obtain ⟨⟨_, _, _⟩, ⟨_, _, _⟩, ⟨_, _, _⟩, ⟨_, _, _⟩, _⟩ := p
  simp only [Ports.mk.injEq, Port.mk.injEq]
  exact
    ⟨⟨hp.aHiOut (h 0 (by decide)), hp.aHiDir (h 8 (by decide)), hp.aHiInten (h 4 (by decide))⟩,
      ⟨hp.aLoOut (h 1 (by decide)), hp.aLoDir (h 9 (by decide)), hp.aLoInten (h 5 (by decide))⟩,
      ⟨hp.bankOut (h 2 (by decide)), hp.bankDir (h 10 (by decide)), hp.bankInten (h 6 (by decide))⟩,
      ⟨trivial, hp.dataDir (h 11 (by decide)), hp.dataInten (h 7 (by decide))⟩, hp.pull (h 3 (by decide))⟩

end Sound

/-- Settles O26: every part of the state after the sequence, one by one. -/
theorem quiesceReturnsEverythingToIdle : Obligations.QuiesceReturnsEverythingToIdle := by
  intro s hsound
  have hok : ∀ k < 12, s.env.txn + k ∉ s.env.failing := fun k hk hm => by
    have := hsound _ hm
    omega
  obtain ⟨hconfig, hsession, hphase, hhost, hcart, hanswers, hfailing, htxn, htrace, hports⟩ := quiesceSequence_frame s
  have hdata : (quiesceSequence s).1.ports.data.out = s.ports.data.out := quiesceSequence_dataLatchKept s
  have hidle := hports.eq_idle hok
  rw [hdata] at hidle
  rw [quiesceEvents_sound s.config hok] at htrace
  rw [exec_quiesce_done hok]
  exact congrArg Host.Outcome.next <|
    state_ext hconfig hsession hphase hidle (env_ext hcart hanswers hfailing htxn htrace)
      (congrArg (fun host : HostSide => { host with response := some { status := .ok, result := none } }) hhost)

/-! ### The ways out of an open session (70_reset_and_hazards.md R266) -/

/-- The answer is no part of the sequence. -/
theorem QuiesceEnd.respond {s u : State} {made : List Event} (h : QuiesceEnd s u made) (status : Status)
    (result : Option Result) : QuiesceEnd s (u.respond status result) made :=
  { h with quiesced := { h.quiesced with } }

theorem execQuiesce_quiesceEnd {s t : State} (h : execQuiesce s = .next t) : QuiesceEnd s t [] := by
  rcases execQuiesce_ends h with rfl | rfl
  · exact (quiesceSequence_quiesceEnd s).respond .ok none
  · exact (quiesceSequence_fatalEnd s _).toQuiesceEnd

/-- The work of an instruction that completes leaves an open session open. -/
theorem WorkDone.isOpen {i : Instr} {s u : State} (h : WorkDone s i u) (ho : s.isOpen) : u.isOpen := by
  by_cases hi : i = .sessionOpen
  · subst hi
    exact absurd ho h.sessionOpen.1
  · exact (h.opFrame hi).status.trans ho

/-- Settles O15: a refused and a completed command leave the session open; `QUIESCE` and a fatal error both end in the
sequence. -/
theorem openIsLeftOnlyByQuiesceOrFatalError : Obligations.OpenIsLeftOnlyByQuiesceOrFatalError := by
  intro i s t hopen h hleft
  by_cases hq : i = .quiesce
  · subst hq
    exact ⟨.inl rfl, [], execQuiesce_quiesceEnd h⟩
  · cases exec_ends hq h with
    | refused reason => exact absurd hopen hleft
    | completed result hdone => exact absurd (hdone.isOpen hopen) hleft
    | raised kind hstop =>
      obtain ⟨made, hend⟩ := hstop.reaches.fatalEnd kind
      exact ⟨.inr ⟨kind, raise_response kind _⟩, made, hend.toQuiesceEnd⟩

end Sys2Proof.Machine
end
